-- ==== Sys2Proof/Word.lean ====
section
/-! DEFINITION. The data the block moves: register words, bytes, and IEEE 754 binary32 values as data
(00_scope.md R6, R7; 20_memory.md R74). -/

namespace Sys2Proof

/-- A register word, a command word, a u32 (00_scope.md R6). -/
abbrev Word := BitVec 32

/-- A byte of a serialised register word or of the PCM stream (20_memory.md R74, R76). -/
abbrev Byte := BitVec 8

/-- A binary32 value (00_scope.md R7), one term for each of the 2^32 encodings (20_memory.md R74):
* `nan s p`: biased exponent 255, fraction `p + 1` (a NaN's fraction is never 0);
* `inf s`: biased exponent 255, fraction 0;
* `num s e f`: a finite value, biased exponent `e < 255`, fraction `f`; `e = 0` holds the zeros and subnormals.
`s` is the sign bit, `true` for negative. -/
inductive F32 where
  | nan (sign : Bool) (payload : Fin 8388607)
  | inf (sign : Bool)
  | num (sign : Bool) (exp : Fin 255) (frac : BitVec 23)
deriving DecidableEq, Repr, Inhabited

/-- The four rounded operators (00_scope.md R8), as names for the free NaN results of Config. -/
inductive FpOp where
  | add | sub | mul | div
deriving DecidableEq, Repr, Inhabited

end Sys2Proof
end

