-- ==== Sys2Proof/Syntax.lean ====
section
/-! DEFINITION. What the host can ask of the block: bus transactions, command words, and the five operations of
spec/opcode_table.json (30_encoding.md R100 to R104; 46_host_commands.md R350 to R357). -/

namespace Sys2Proof

/-- The two bus ports (10_state.md R51; 60_exceptions.md R411). -/
inductive Port where
  | ctrl | audio
deriving DecidableEq, Repr, Inhabited

/-- The other port. -/
def Port.other : Port → Port
  | .ctrl => .audio
  | .audio => .ctrl

/-- A bus transaction as the wires carry it (30_encoding.md R100, format `BUS`): an address of 12 bits plus, for a
write, 32 data bits. -/
structure BusTxn where
  addr : BitVec 12
  data : Option Word
deriving DecidableEq, Repr, Inhabited

/-- A decoded command word (30_encoding.md R102 to R104). -/
inductive Cmd where
  | nop
  | gate (voice : BitVec 5) (down : Bool)
  | render (count : BitVec 24)
deriving DecidableEq, Repr

/-- The operations of the block, one constructor per row of spec/opcode_table.json, each issued on a port
(30_encoding.md R112). `busWrite` with offset 0x000 carries a word written to `CMD` that is no command
(46_host_commands.md R357). -/
inductive Instr where
  | nop (port : Port)
  | gate (port : Port) (voice : BitVec 5) (down : Bool)
  | render (port : Port) (count : BitVec 24)
  | busWrite (port : Port) (offset : BitVec 12) (value : Word)
  | busRead (port : Port) (offset : BitVec 12)
deriving DecidableEq, Repr

end Sys2Proof
end

