-- ==== Sys2Proof/WellFormed.lean ====
section
/-! DEFINITION. Which terms of Instr stand for a transaction in their one canonical form: a write to `CMD` of a word
that is a command is that command, never `busWrite` (46_host_commands.md R350, R357). The ranges of the fields are in
their types. -/

namespace Sys2Proof

/-- The three command patterns of spec/opcode_table.json: the word of `NOP`, and the match and mask of `GATE` and
`RENDER` (30_encoding.md R102 to R104). -/
def isCommandWord (w : Word) : Bool :=
  w == 0#32 || w &&& 0xFFFFE0FE#32 == 0x01000000#32 || w &&& 0xFF000000#32 == 0x02000000#32

/-- The canonical instructions: `busWrite` to offset 0x000 only with a word that is no command. -/
def Instr.wellFormed : Instr → Bool
  | .nop _ => true
  | .gate _ _ _ => true
  | .render _ _ => true
  | .busWrite _ off v => !(off == 0#12 && isCommandWord v)
  | .busRead _ _ => true

end Sys2Proof
end

