-- ==== Sys2Proof/Decode.lean ====
section
/-! DEFINITION. From bits to instructions and back: the command decoder (30_encoding.md R111), the transaction decoder
(30_encoding.md R100), both total, and the encoder. The byte layout of a transaction is the model's own (log 7). -/

namespace Sys2Proof

/-- Why bits are no instruction.
* `reservedOpcode`: `OP` is 0x03 to 0xFF (30_encoding.md R105);
* `reservedBits`: `OP` is 0x00, 0x01 or 0x02 with a nonzero reserved bit (30_encoding.md R105);
* `badLength`: a byte string that is neither an address nor an address and a data word (log 7);
* `addressTooWide`: address bytes with a bit above bit 11 (log 7). -/
inductive DecodeError where
  | reservedOpcode (op : BitVec 8)
  | reservedBits (w : Word)
  | badLength (n : Nat)
  | addressTooWide (a : BitVec 16)
deriving DecidableEq, Repr

/-- The command decoder of 30_encoding.md R111; both errors are its `ILLEGAL`. -/
def decodeCmd (w : Word) : Except DecodeError Cmd :=
  if w = 0#32 then .ok .nop
  else if w &&& 0xFFFFE0FE#32 = 0x01000000#32 then .ok (.gate (w.extractLsb' 8 5) (w.getLsbD 0))
  else if w &&& 0xFF000000#32 = 0x02000000#32 then .ok (.render (w.extractLsb' 0 24))
  else if w.extractLsb' 24 8 < 3#8 then .error (.reservedBits w)
  else .error (.reservedOpcode (w.extractLsb' 24 8))

/-- The operation of a decoded command issued on port `p` (46_host_commands.md R350). -/
def Cmd.toInstr (p : Port) : Cmd → Instr
  | .nop => .nop p
  | .gate v d => .gate p v d
  | .render n => .render p n

/-- The operation a bus transaction on port `p` is (30_encoding.md R100; 20_memory.md R71, R72). Total: every
transaction is an operation, and one that is in error says so in `STATUS` when it runs. -/
def decodeTxn (p : Port) (t : BusTxn) : Instr :=
  match t.data with
  | none => .busRead p t.addr
  | some w =>
    if t.addr = 0#12 then
      match decodeCmd w with
      | .ok c => c.toInstr p
      | .error _ => .busWrite p t.addr w
    else .busWrite p t.addr w

/-- The word of a command (30_encoding.md R101 to R104, R112). -/
def encodeCmd : Cmd → Word
  | .nop => 0#32
  | .gate v d => 0x01000000#32 ||| (v.setWidth 32 <<< 8) ||| (BitVec.ofBool d).setWidth 32
  | .render n => 0x02000000#32 ||| n.setWidth 32

/-- The transaction that issues an operation (30_encoding.md R100, R112). -/
def encode : Instr → BusTxn
  | .nop _ => ⟨0#12, some (encodeCmd .nop)⟩
  | .gate _ v d => ⟨0#12, some (encodeCmd (.gate v d))⟩
  | .render _ n => ⟨0#12, some (encodeCmd (.render n))⟩
  | .busWrite _ off v => ⟨off, some v⟩
  | .busRead _ off => ⟨off, none⟩

/-- The port an operation is issued on. -/
def Instr.port : Instr → Port
  | .nop p => p
  | .gate p _ _ => p
  | .render p _ => p
  | .busWrite p _ _ => p
  | .busRead p _ => p

/-- A word as bytes, least significant first (20_memory.md R74). -/
def wordBytes (w : Word) : List Byte :=
  [w.extractLsb' 0 8, w.extractLsb' 8 8, w.extractLsb' 16 8, w.extractLsb' 24 8]

/-- Four bytes as a word, least significant first (20_memory.md R74). -/
def bytesWord (b0 b1 b2 b3 : Byte) : Word := b3 ++ b2 ++ b1 ++ b0

/-- The bytes of a transaction: two address bytes, then for a write the four data bytes (log 7). -/
def encodeBytes (t : BusTxn) : List Byte :=
  let a := t.addr.setWidth 16
  [a.extractLsb' 0 8, a.extractLsb' 8 8] ++
    match t.data with
    | none => []
    | some w => wordBytes w

/-- The transaction two address bytes and the data bytes stand for (log 7). -/
def bytesTxn (a0 a1 : Byte) (data : Option Word) : Except DecodeError BusTxn :=
  let a : BitVec 16 := a1 ++ a0
  if a.extractLsb' 12 4 = 0#4 then .ok ⟨a.extractLsb' 0 12, data⟩ else .error (.addressTooWide a)

/-- Any bytes to a transaction or a named rejection (log 7). -/
def decodeBytes : List Byte → Except DecodeError BusTxn
  | [a0, a1] => bytesTxn a0 a1 none
  | [a0, a1, b0, b1, b2, b3] => bytesTxn a0 a1 (some (bytesWord b0 b1 b2 b3))
  | bs => .error (.badLength bs.length)

/-- The transaction a numbered table word stands for, on the host's numbering of spec/opcode_table.json: 32 bits are a
`CMD32` word, carried by a write to `CMD`; up to 16 bits are a `BUS` address and no data, a read; 48 bits are a `BUS`
address (bits 15:0) and data (bits 47:16), a write (log 7). -/
def tableTxn (nbits w : Nat) : Except DecodeError BusTxn :=
  if nbits = 32 then .ok ⟨0#12, some (BitVec.ofNat 32 w)⟩
  else if nbits ≤ 16 then decodeBytes [BitVec.ofNat 8 w, BitVec.ofNat 8 (w / 256)]
  else if nbits = 48 then
    decodeBytes ([BitVec.ofNat 8 w, BitVec.ofNat 8 (w / 256)] ++ wordBytes (BitVec.ofNat 32 (w / 65536)))
  else .error (.badLength (nbits / 8))

/-- The operation the decoder reads from a numbered table word, on the default port `CTRL` of 30_encoding.md R112;
none where it refuses. A 32-bit word is read as a command word alone, so an illegal one is refused here. -/
def decodeTableWord (nbits w : Nat) : Option Instr :=
  if nbits = 32 then
    match decodeCmd (BitVec.ofNat 32 w) with
    | .ok c => some (c.toInstr .ctrl)
    | .error _ => none
  else
    match tableTxn nbits w with
    | .ok t => some (decodeTxn .ctrl t)
    | .error _ => none

end Sys2Proof
end

