-- ==== Sys2Proof/Config.lean ====
section
/-! DEFINITION. What an implementation of the block fixes and the spec leaves open (00_scope.md R5, R11;
93_implementation_defined.md I1 to I3), and the free values. Nothing here has a body: no proof can see a value. -/

namespace Sys2Proof

/-- The two ladder cores (44_filter.md R267). -/
inductive FilterCore where
  | improved | nonlinear
deriving DecidableEq, Repr, Inhabited

namespace Config

/-- Parameter `FILTER_CORE` (00_scope.md R5): which ladder core is built. -/
opaque filterCore : FilterCore

/-- Parameter `NOISE_SEED0` less 1 (00_scope.md R5: any nonzero u32). -/
opaque noiseSeed0Pred : Fin 4294967295

/-- Sign of the NaN an operator produces: a free value (log 3). -/
opaque nanSign : FpOp → F32 → F32 → Bool

/-- Payload of the NaN an operator produces: a free value (log 3). -/
opaque nanPayload : FpOp → F32 → F32 → Fin 8388607

/-- Sign of `F_sin` at a finite argument other than +0.0 (log 4). -/
opaque sinSign : F32 → Bool

/-- Encoding of the magnitude of `F_sin` at a finite nonzero argument, at most that of 1.0 (0x3F800000), which is
property (d) of 00_scope.md R11 (log 4). -/
opaque sinMagnitude : F32 → Fin 1065353217

/-- `F_sin` at an infinity or a NaN, where 00_scope.md R11 names no property (log 4). -/
opaque sinNonFinite : F32 → F32

/-- `F_exp` where no property of 00_scope.md R11 fixes it (log 4). -/
opaque expFree : F32 → F32

/-- `F_exp2` where no property of 00_scope.md R11 fixes it (log 4). -/
opaque exp2Free : F32 → F32

end Config

/-- Parameter `NOISE_SEED0`: nonzero (10_state.md R35). -/
def noiseSeed0 : Word := BitVec.ofNat 32 (Config.noiseSeed0Pred.val + 1)

end Sys2Proof
end

