-- ==== Sys2Proof/Machine/Float.lean ====
section
/-! DEFINITION. Binary32 arithmetic (00_scope.md R7 to R10) and the three open functions (00_scope.md R11). Every finite
value is a whole number of units of 2^-149, the least subnormal: operators compute exactly on those numbers and round
once, in `F32.round`. -/

namespace Sys2Proof

/-- Magnitude of a finite value in units of 2^-149: a subnormal is its fraction, a normal value has the leading 1
restored and is scaled by its exponent (20_memory.md R74). -/
def F32.magnitude (e : Fin 255) (f : BitVec 23) : Nat :=
  if e.val = 0 then f.toNat else (2 ^ 23 + f.toNat) * 2 ^ (e.val - 1)

/-- A magnitude with a sign; a zero magnitude has none. -/
def F32.signed (s : Bool) : Nat → Int
  | 0 => 0
  | m + 1 => bif s then Int.negSucc m else Int.ofNat (m + 1)

/-- A finite value in units of 2^-149; an infinity or a NaN has none. -/
def F32.units? : F32 → Option Int
  | .nan _ _ => none
  | .inf _ => none
  | .num s e f => some (F32.signed s (F32.magnitude e f))

/-- The binary32 encoding (20_memory.md R74): bit 31 sign, bits 30:23 biased exponent, bits 22:0 fraction. -/
def F32.toBits : F32 → Word
  | .nan s p => BitVec.ofNat 32 (s.toNat * 2 ^ 31 + 255 * 2 ^ 23 + (p.val + 1))
  | .inf s => BitVec.ofNat 32 (s.toNat * 2 ^ 31 + 255 * 2 ^ 23)
  | .num s e f => BitVec.ofNat 32 (s.toNat * 2 ^ 31 + e.val * 2 ^ 23 + f.toNat)

/-- The finite or infinite value of sign `s` whose encoding less the sign bit is `g`; every `g` from 255·2^23 on is the
infinity (00_scope.md R7, "overflowing to a signed infinity"). -/
def F32.ofMagnitudeBits (s : Bool) (g : Nat) : F32 :=
  if h : g / 2 ^ 23 < 255 then .num s ⟨g / 2 ^ 23, h⟩ (BitVec.ofNat 23 g) else .inf s

/-- The value an encoding stands for (20_memory.md R74). Every bit pattern is accepted (30_encoding.md R110). -/
def F32.ofBits (w : Word) : F32 :=
  let s := decide (2 ^ 31 ≤ w.toNat)
  let g := w.toNat % 2 ^ 31
  if 255 * 2 ^ 23 < g then .nan s (Fin.ofNat 8388607 (g - 255 * 2 ^ 23 - 1)) else F32.ofMagnitudeBits s g

/-- Rounds `±(n/d)` units of 2^-149 to binary32, to nearest, ties to even, overflowing to a signed infinity and
keeping subnormals (00_scope.md R7, `f32`). `t` counts the units' binary places below the last place kept; the encoding
less its sign is `t·2^23` plus the rounded quotient, since a quotient in `[2^23, 2^24]` carries into the exponent. -/
def F32.round (s : Bool) (n d : Nat) : F32 :=
  let t := Nat.log2 (n / d) - 23
  let den := d * 2 ^ t
  let q := n / den
  let r := n % den
  let up := den < 2 * r || (2 * r == den && q % 2 == 1)
  F32.ofMagnitudeBits s (t * 2 ^ 23 + (bif up then q + 1 else q))

/-- Rounds a whole number of units of 2^-149; zero has the sign given. -/
def F32.roundInt (zeroSign : Bool) (x : Int) : F32 :=
  match x with
  | .ofNat 0 => .num zeroSign 0 0#23
  | .ofNat (m + 1) => F32.round false (m + 1) 1
  | .negSucc m => F32.round true (m + 1) 1

/-- The NaN that an operator produces: sign and payload are free values (log 3). -/
def F32.freeNan (op : FpOp) (a b : F32) : F32 := .nan (Config.nanSign op a b) (Config.nanPayload op a b)

/-- `-a`: flips the sign bit (00_scope.md R8). -/
def F32.neg : F32 → F32
  | .nan s p => .nan (!s) p
  | .inf s => .inf (!s)
  | .num s e f => .num (!s) e f

/-- `|a|`: clears the sign bit (00_scope.md R8). -/
def F32.abs : F32 → F32
  | .nan _ p => .nan false p
  | .inf _ => .inf false
  | .num _ e f => .num false e f

/-- The exact sum of two finite values, rounded once; an exact zero is negative only if both operands are (log 6). -/
def F32.addFinite (s : Bool) (e : Fin 255) (f : BitVec 23) (s' : Bool) (e' : Fin 255) (f' : BitVec 23) : F32 :=
  F32.roundInt (s && s') (F32.signed s (F32.magnitude e f) + F32.signed s' (F32.magnitude e' f'))

/-- `a + b` (00_scope.md R8). -/
def F32.add (a b : F32) : F32 :=
  match a, b with
  | .num s e f, .num s' e' f' => F32.addFinite s e f s' e' f'
  | .num _ _ _, .inf s => .inf s
  | .inf s, .num _ _ _ => .inf s
  | .inf s, .inf s' => if s = s' then .inf s else F32.freeNan .add a b
  | .nan _ _, _ => F32.freeNan .add a b
  | _, .nan _ _ => F32.freeNan .add a b

/-- `a - b` (00_scope.md R8): the sum with `-b`, but for the NaN it may produce. -/
def F32.sub (a b : F32) : F32 :=
  match a, b with
  | .num s e f, .num s' e' f' => F32.addFinite s e f (!s') e' f'
  | .num _ _ _, .inf s => .inf (!s)
  | .inf s, .num _ _ _ => .inf s
  | .inf s, .inf s' => if s = !s' then .inf s else F32.freeNan .sub a b
  | .nan _ _, _ => F32.freeNan .sub a b
  | _, .nan _ _ => F32.freeNan .sub a b

/-- `a * b` (00_scope.md R8). The product of magnitudes is in units of 2^-298, so it is rounded over 2^149. -/
def F32.mul (a b : F32) : F32 :=
  match a, b with
  | .num s e f, .num s' e' f' =>
    if F32.magnitude e f == 0 || F32.magnitude e' f' == 0 then .num (s ^^ s') 0 0#23
    else F32.round (s ^^ s') (F32.magnitude e f * F32.magnitude e' f') (2 ^ 149)
  | .num s e f, .inf s' => if F32.magnitude e f = 0 then F32.freeNan .mul a b else .inf (s ^^ s')
  | .inf s, .num s' e' f' => if F32.magnitude e' f' = 0 then F32.freeNan .mul a b else .inf (s ^^ s')
  | .inf s, .inf s' => .inf (s ^^ s')
  | .nan _ _, _ => F32.freeNan .mul a b
  | _, .nan _ _ => F32.freeNan .mul a b

/-- `a / b` (00_scope.md R8). The quotient of magnitudes, in units of 2^-149, has the dividend scaled by 2^149. -/
def F32.div (a b : F32) : F32 :=
  match a, b with
  | .num s e f, .num s' e' f' =>
    if F32.magnitude e' f' = 0 then
      if F32.magnitude e f = 0 then F32.freeNan .div a b else .inf (s ^^ s')
    else F32.round (s ^^ s') (F32.magnitude e f * 2 ^ 149) (F32.magnitude e' f')
  | .num s _ _, .inf s' => .num (s ^^ s') 0 0#23
  | .inf s, .num s' _ _ => .inf (s ^^ s')
  | .inf _, .inf _ => F32.freeNan .div a b
  | .nan _ _, _ => F32.freeNan .div a b
  | _, .nan _ _ => F32.freeNan .div a b

/-- `a < b`: false with a NaN operand (00_scope.md R9). -/
def F32.lt (a b : F32) : Bool :=
  match a, b with
  | .num s e f, .num s' e' f' => decide (F32.signed s (F32.magnitude e f) < F32.signed s' (F32.magnitude e' f'))
  | .num _ _ _, .inf s => !s
  | .inf s, .num _ _ _ => s
  | .inf s, .inf s' => s && !s'
  | .nan _ _, _ => false
  | _, .nan _ _ => false

/-- `a == b`: `-0 == +0`, false with a NaN operand (00_scope.md R9). -/
def F32.eq (a b : F32) : Bool :=
  match a, b with
  | .num s e f, .num s' e' f' => decide (F32.signed s (F32.magnitude e f) = F32.signed s' (F32.magnitude e' f'))
  | .num _ _ _, .inf _ => false
  | .inf _, .num _ _ _ => false
  | .inf s, .inf s' => s == s'
  | .nan _ _, _ => false
  | _, .nan _ _ => false

/-- `a <= b`: false with a NaN operand (00_scope.md R9). -/
def F32.le (a b : F32) : Bool := F32.lt a b || F32.eq a b

/-- `min(a, b)` is `(b < a) ? b : a` (00_scope.md R9). -/
def F32.min (a b : F32) : F32 := bif F32.lt b a then b else a

/-- Is the value a NaN? -/
def F32.isNan : F32 → Bool
  | .nan _ _ => true
  | _ => false

/-- Is the value finite? -/
def F32.isFinite : F32 → Bool
  | .num _ _ _ => true
  | _ => false

/-- `floor(x)` of a finite value, an exact integer (00_scope.md R6, R10); an infinity or a NaN has none. -/
def F32.floor? (a : F32) : Option Int := (F32.units? a).map fun u => u / 2 ^ 149

/-- The least integer not below a finite value. -/
def F32.ceil? (a : F32) : Option Int := (F32.units? a).map fun u => -((-u) / 2 ^ 149)

/-- `f32(n)` for an integer (00_scope.md R10). -/
def F32.ofInt (n : Int) : F32 := F32.roundInt false (n * 2 ^ 149)

/-- `f32(n)` for a u32 (00_scope.md R10). -/
def F32.ofWord (w : Word) : F32 := F32.ofInt w.toNat

/-- `f32(w * 2^-32)` (00_scope.md R10): the exact product rounded once. -/
def F32.ofWordFraction (w : Word) : F32 := F32.roundInt false (w.toNat * 2 ^ 117)

/-- `F_sin` (00_scope.md R11): 0 at 0 by (b), in `[-1, 1]` at every finite argument by (d), else free (log 4). -/
def fSin (x : F32) : F32 :=
  match x with
  | .num s e f =>
    if F32.magnitude e f = 0 then .num (bif s then Config.sinSign x else false) 0 0#23
    else .num (Config.sinSign x) ⟨(Config.sinMagnitude x).val / 2 ^ 23, by have := (Config.sinMagnitude x).isLt; omega⟩
      (BitVec.ofNat 23 (Config.sinMagnitude x).val)
  | .inf _ => Config.sinNonFinite x
  | .nan _ _ => Config.sinNonFinite x

/-- `F_exp` (00_scope.md R11): 1 at 0 by (b), else free (log 4). -/
def fExp (x : F32) : F32 :=
  match x with
  | .num _ e f => if F32.magnitude e f = 0 then F32.ofInt 1 else Config.expFree x
  | .inf _ => Config.expFree x
  | .nan _ _ => Config.expFree x

/-- `F_exp2` at a finite argument of `u` units (00_scope.md R11): exactly `2^n` at an integer `n` from -149 to 127 by (a)
and (b), `+inf` from 128 on by (c), else free (log 4). -/
def fExp2Finite (x : F32) (u : Int) : F32 :=
  if 128 * 2 ^ 149 ≤ u then .inf false
  else if u % 2 ^ 149 = 0 ∧ -149 * 2 ^ 149 ≤ u then F32.round false (2 ^ (u / 2 ^ 149 + 149).toNat) 1
  else Config.exp2Free x

/-- `F_exp2` (00_scope.md R11): `+inf` at `+inf` and 0 at `-inf` by (c); a NaN argument is free (log 4). -/
def fExp2 (x : F32) : F32 :=
  match x with
  | .num s e f => fExp2Finite x (F32.signed s (F32.magnitude e f))
  | .inf s => bif s then .num false 0 0#23 else .inf false
  | .nan _ _ => Config.exp2Free x

end Sys2Proof
end

