-- ==== Sys2Proof/Machine/State.lean ====
section
/-! DEFINITION. The state of the block (10_state.md R20 to R51), its reset value (R45), and why a step can stop. -/

namespace Sys2Proof.Machine

/-- Wave types (30_encoding.md R106), in the order of their codes. -/
inductive WaveType where
  | sine | pulse | sawtooth | triangle | noise
  | poly4 | poly5 | poly17 | pulsePoly5 | poly4Poly5 | poly17Poly5
deriving DecidableEq, Repr, Inhabited

/-- Filter modes (30_encoding.md R107), in the order of their codes. -/
inductive FilterMode where
  | none | peak
  | lowPass1 | lowPass2 | lowPass3 | lowPass4
  | highPass1 | highPass2 | highPass3 | highPass4
  | bandPass1 | bandPass1LowPass1 | bandPass1LowPass2 | bandPass1HighPass1 | bandPass1HighPass2
  | bandPass2
  | notch | notchLowPass1 | notchLowPass2
  | phaseShift | phaseShiftLowPass1
deriving DecidableEq, Repr, Inhabited

/-- Envelope stages (30_encoding.md R108), in the order of their codes; five-valued (43_envelope.md R239). -/
inductive EnvStage where
  | off | attack | decay | sustain | release
deriving DecidableEq, Repr, Inhabited

/-- An oscillator slot of a voice, o = 0 or 1 (10_state.md R22, R28). -/
inductive Slot where
  | s0 | s1
deriving DecidableEq, Repr, Inhabited

/-- A voice index, 0 to 23 (10_state.md R33). -/
abbrev VoiceIx := Fin 24

/-- The parameters fixed when the block is built (00_scope.md R5), constant in every run: `FILTER_CORE`, which
`HWCFG` reports (10_state.md R38), and `NOISE_SEED0`, which reset copies to `SEED` (10_state.md R35). -/
structure HwConfig where
  filterCore : FilterCore
  noiseSeed0 : Word
deriving DecidableEq, Repr

/-- NoteOscillatorConfig of one slot (10_state.md R22). -/
structure NoteOscCfg where
  waveType  : WaveType
  widthBase : F32
  freqBase  : F32
  ampBase   : F32
  widthLfo  : F32
  freqLfo   : F32
  ampLfo    : F32
deriving DecidableEq, Repr

/-- LFOOscillatorConfig (10_state.md R24). -/
structure LfoCfg where
  waveType  : WaveType
  width     : F32
  freqBase  : F32
  amplitude : F32
deriving DecidableEq, Repr

/-- EnvelopeConfig (10_state.md R25). -/
structure EnvCfg where
  attackRate  : F32
  decayRate   : F32
  sustain     : F32
  releaseRate : F32
deriving DecidableEq, Repr

/-- FilterConfig (10_state.md R26). -/
structure FilterCfg where
  mode       : FilterMode
  cutoffBase : F32
  cutoffLfo  : F32
  cutoffEnv  : F32
  resonance  : F32
deriving DecidableEq, Repr

/-- The configuration register file `CFG` (10_state.md R21 to R26). -/
structure Cfg where
  fs                : Word
  outputScale       : F32
  useAntialias      : Bool
  keyboardTimescale : F32
  osc0              : NoteOscCfg
  osc1              : NoteOscCfg
  lfo               : LfoCfg
  fenv              : EnvCfg
  venv              : EnvCfg
  flt               : FilterCfg
deriving DecidableEq, Repr

/-- Derived oscillator configuration `DER[o]` (10_state.md R23). -/
structure DerOsc where
  width     : F32
  frequency : F32
  amplitude : F32
deriving DecidableEq, Repr

/-- OscillatorState (10_state.md R28). -/
structure OscState where
  phase   : F32
  advance : Int
  index   : Nat
deriving DecidableEq, Repr

/-- EnvelopeState (10_state.md R30); its `gate` is the voice's (90_conflicts.md C13). -/
structure EnvState where
  stage     : EnvStage
  amplitude : F32
deriving DecidableEq, Repr

/-- FilterState (10_state.md R32). -/
structure FilterState where
  y0 : F32
  y1 : F32
  y2 : F32
  y3 : F32
  y4 : F32
  feedback : F32
  a1 : F32
  b0 : F32
  b1 : F32
  tune : F32
  ytan0 : F32
  ytan1 : F32
  ytan2 : F32
  ytan3 : F32
deriving DecidableEq, Repr

/-- A voice bundle `VOICE[k]` (10_state.md R33). -/
structure Voice where
  osc0 : OscState
  osc1 : OscState
  fenv : EnvState
  venv : EnvState
  flt  : FilterState
  gate : Bool
deriving DecidableEq, Repr

/-- The error bits of `STATUS` (10_state.md R37); `BUSY` is read off the sequencer (10_state.md R50). -/
structure Status where
  errCmd   : Bool
  errAddr  : Bool
  errValue : Bool
deriving DecidableEq, Repr

/-- The sequencer position `SEQ` (10_state.md R50): idle, or rendering for the port whose `RENDER` runs, with the
frames still to produce and the active list (its length is the rule's `n`). -/
inductive Seq where
  | idle
  | rendering (port : Port) (remaining : Nat) (active : List VoiceIx)
deriving DecidableEq, Repr

/-- One frame of the PCM output stream (20_memory.md R76). -/
structure Frame where
  l : BitVec 16
  r : BitVec 16
deriving DecidableEq, Repr

/-- One bus port: its part of `PORTQ` (10_state.md R51), head first in issue order; how many transactions at the head
were pending when the running block began and take effect by its end (60_exceptions.md R412 item 4; log 11); and the
words its reads have returned, oldest first (log 12). -/
structure PortState where
  queue     : List BusTxn
  owed      : Nat
  responses : List Word
deriving DecidableEq, Repr

/-- One choice of the environment (60_exceptions.md R412; log 9):
* `issue`: the host issues a transaction on a port;
* `serve`: the transaction at the head of a port takes effect now;
* `sample`: the engine's next sample step happens now;
* `reset`: the reset input is asserted (70_reset_and_hazards.md R430). -/
inductive Event where
  | issue (port : Port) (txn : BusTxn)
  | serve (port : Port)
  | sample
  | reset
deriving DecidableEq, Repr

/-- The state of the block (10_state.md R20), with the PCM stream (20_memory.md R70) and the environment's remaining
choices, oldest first (log 9). -/
structure State where
  hw            : HwConfig
  cfg           : Cfg
  der0          : DerOsc
  der1          : DerOsc
  voices        : Vector Voice 24
  lfoSt         : OscState
  lfoValue      : F32
  seed          : Word
  mostRecentKey : VoiceIx
  status        : Status
  seq           : Seq
  ctrl          : PortState
  audio         : PortState
  pcm           : List Frame
  schedule      : List Event
deriving DecidableEq, Repr

/-- Why a step could stop the block with a fault: it has no constructor. The block takes no trap (60_exceptions.md
R400), every operation completes, and no rule stops the engine, so no meaning raises one. Safe: nothing is cut off. -/
inductive Fault where
deriving DecidableEq, Repr

/-- Why the model could have no meaning for an instruction.
* `notModelled`: raised by an arm of `exec` for a row of the opcode table that has no meaning yet. Safe: it stops the
  run. No arm raises it. -/
inductive Refusal where
  | notModelled (mnemonic : String)
deriving DecidableEq, Repr

/-- The binary32 value +0.0. -/
def zeroF : F32 := .num false 0 0#23

/-- An OscillatorState after reset (10_state.md R45). -/
def OscState.zero : OscState := ⟨zeroF, 0, 0⟩

/-- An EnvelopeState after reset (10_state.md R45). -/
def EnvState.zero : EnvState := ⟨.off, zeroF⟩

/-- A cleared FilterState (10_state.md R32, R45). -/
def FilterState.zero : FilterState :=
  ⟨zeroF, zeroF, zeroF, zeroF, zeroF, zeroF, zeroF, zeroF, zeroF, zeroF, zeroF, zeroF, zeroF, zeroF⟩

/-- A voice after reset (10_state.md R45). -/
def Voice.zero : Voice := ⟨.zero, .zero, .zero, .zero, .zero, false⟩

/-- The configuration register file after reset: `FS` is 44100 (10_state.md R45); the spec leaves every other register
unspecified and the model names zero. DESIGN CHOICE, unsafe (log 1). -/
def Cfg.afterReset : Cfg where
  fs := 44100#32
  outputScale := zeroF
  useAntialias := false
  keyboardTimescale := zeroF
  osc0 := ⟨.sine, zeroF, zeroF, zeroF, zeroF, zeroF, zeroF⟩
  osc1 := ⟨.sine, zeroF, zeroF, zeroF, zeroF, zeroF, zeroF⟩
  lfo := ⟨.sine, zeroF, zeroF, zeroF⟩
  fenv := ⟨zeroF, zeroF, zeroF, zeroF⟩
  venv := ⟨zeroF, zeroF, zeroF, zeroF⟩
  flt := ⟨.none, zeroF, zeroF, zeroF, zeroF⟩

/-- A port with nothing pending (10_state.md R45, R51). -/
def PortState.empty : PortState := ⟨[], 0, []⟩

/-- Reset of a block built with parameters `hw` (10_state.md R45; 70_reset_and_hazards.md R430). `DER` is unspecified
there; the model names +0.0. DESIGN CHOICE, unsafe (log 2). -/
def State.resetWith (hw : HwConfig) : State where
  hw := hw
  cfg := .afterReset
  der0 := ⟨zeroF, zeroF, zeroF⟩
  der1 := ⟨zeroF, zeroF, zeroF⟩
  voices := Vector.replicate 24 .zero
  lfoSt := .zero
  lfoValue := zeroF
  seed := hw.noiseSeed0
  mostRecentKey := 0
  status := ⟨false, false, false⟩
  seq := .idle
  ctrl := .empty
  audio := .empty
  pcm := []
  schedule := []

/-- The machine right after reset, built with the open parameters of Config (00_scope.md R5). -/
def State.reset : State := .resetWith ⟨Config.filterCore, noiseSeed0⟩

end Sys2Proof.Machine
end

