-- ==== Sys2Proof/Machine/Tables.lean ====
section
/-! DEFINITION. The read-only contents of the block: the LFSR tables, the per-wave tables, the key frequencies and the
constants (40_noise_tables.md R140 to R152). Tables are functions of the index; `RomRead` takes a reduced one
(20_memory.md R77). -/

namespace Sys2Proof.Machine

/-- One step of the LFSR recurrence (40_noise_tables.md R140): the new top bit is `x[0] xor x[tap]`. -/
def lfsrStep (size tap x : Nat) : Nat := ((((x >>> tap) ^^^ x) &&& 1) <<< (size - 1)) ||| (x >>> 1)

/-- The LFSR register after `n` steps from the seed. -/
def lfsrState (size tap seed : Nat) : Nat → Nat
  | 0 => seed
  | n + 1 => lfsrStep size tap (lfsrState size tap seed n)

/-- Entry `n` of a table: emit, then step (40_noise_tables.md R140). -/
def lfsrBit (size tap seed : Nat) (invert : Bool) (n : Nat) : Bool :=
  (lfsrState size tap seed n % 2 == 1) ^^ invert

/-- The generator as 40_noise_tables.md R140 writes it: emit, step, until the register is back at the seed, for at most
`fuel` entries. The tables below are its entries. -/
def lfsrList (size tap seed : Nat) (invert : Bool) (x : Nat) : Nat → List Bool
  | 0 => []
  | fuel + 1 =>
    ((x % 2 == 1) ^^ invert) ::
      if lfsrStep size tap x = seed then [] else lfsrList size tap seed invert (lfsrStep size tap x) fuel

/-- `POLY4` (40_noise_tables.md R141). -/
def poly4Bit (i : Nat) : Bool := lfsrBit 4 1 0xF false i

/-- `POLY5` (40_noise_tables.md R142). -/
def poly5Bit (i : Nat) : Bool := lfsrBit 5 2 0x1F true i

/-- `POLY17` (40_noise_tables.md R143). -/
def poly17Bit (i : Nat) : Bool := lfsrBit 17 5 0x1FFFF false i

/-- The value the composite walk holds before entry `n`, sampling the table `second` of length `len`
(40_noise_tables.md R145). -/
def sampleHeld (second : Nat → Bool) (len : Nat) : Nat → Bool
  | 0 => false
  | n + 1 => bif poly5Bit (n % 31) then second (n % len) else sampleHeld second len n

/-- The value the composite walk holds before entry `n`, toggling (40_noise_tables.md R145). -/
def toggleHeld : Nat → Bool
  | 0 => false
  | n + 1 => bif poly5Bit (n % 31) then !toggleHeld n else toggleHeld n

/-- `PULSEPOLY5` (40_noise_tables.md R146): updated on a 1 of `POLY5`, then emitted. -/
def pulsePoly5Bit (i : Nat) : Bool := toggleHeld (i + 1)

/-- `POLY4POLY5` (40_noise_tables.md R147). -/
def poly4Poly5Bit (i : Nat) : Bool := sampleHeld poly4Bit 15 (i + 1)

/-- `POLY17POLY5` (40_noise_tables.md R148). -/
def poly17Poly5Bit (i : Nat) : Bool := sampleHeld poly17Bit 131071 (i + 1)

/-- `RomRead` of the LFSR table of a table-driven wave (40_noise_tables.md R149); the other waves have no table. -/
def romBit (w : WaveType) (i : Nat) : Bool :=
  match w with
  | .poly4 => poly4Bit i
  | .poly5 => poly5Bit i
  | .poly17 => poly17Bit i
  | .pulsePoly5 => pulsePoly5Bit i
  | .poly4Poly5 => poly4Poly5Bit i
  | .poly17Poly5 => poly17Poly5Bit i
  | .sine => false
  | .pulse => false
  | .sawtooth => false
  | .triangle => false
  | .noise => false

/-- `CYCLE[w]` (40_noise_tables.md R149): the table length, 1 for other waves. -/
def waveCycle : WaveType → Nat
  | .sine => 1
  | .pulse => 1
  | .sawtooth => 1
  | .triangle => 1
  | .noise => 1
  | .poly4 => 15
  | .poly5 => 31
  | .poly17 => 131071
  | .pulsePoly5 => 62
  | .poly4Poly5 => 465
  | .poly17Poly5 => 4063201

/-- `WAVE_ADJUST[w]` (40_noise_tables.md R149). -/
def waveAdjust : WaveType → F32
  | .sine => F32.ofBits 0x3F800000#32
  | .pulse => F32.ofBits 0x3F800000#32
  | .sawtooth => F32.ofBits 0x3F800000#32
  | .triangle => F32.ofBits 0x3F800000#32
  | .noise => F32.ofBits 0x3F800000#32
  | .poly4 => F32.ofBits 0x3FF00000#32
  | .poly5 => F32.ofBits 0x3FF80000#32
  | .poly17 => F32.ofBits 0x40000000#32
  | .pulsePoly5 => F32.ofBits 0x3FF80000#32
  | .poly4Poly5 => F32.ofBits 0x3FE88000#32
  | .poly17Poly5 => F32.ofBits 0x40000000#32

/-- The encodings of `KEYFREQ[0..23]` (40_noise_tables.md R151). -/
def keyFreqBits : List Word :=
  [0x4382D013#32, 0x438A9760#32, 0x4392D517#32, 0x439B9041#32, 0x43A4D054#32, 0x43AE9D37#32, 0x43B8FF49#32,
    0x43C3FF6A#32, 0x43CFA700#32, 0x43DC0000#32, 0x43E914F6#32, 0x43F6F110#32] ++
  [0x4402D013#32, 0x440A9760#32, 0x4412D517#32, 0x441B9041#32, 0x4424D054#32, 0x442E9D37#32, 0x4438FF49#32,
    0x4443FF6A#32, 0x444FA700#32, 0x445C0000#32, 0x446914F6#32, 0x4476F110#32]

/-- `KEYFREQ[k]` in Hz (40_noise_tables.md R151). -/
def keyFreq (k : VoiceIx) : F32 := F32.ofBits (keyFreqBits.getD k.val 0#32)

namespace Const

/-- `TWO_PI` (40_noise_tables.md R150). -/
def twoPi : F32 := F32.ofBits 0x40C90FDB#32
/-- `NEG_PI` (40_noise_tables.md R150). -/
def negPi : F32 := F32.ofBits 0xC0490FDB#32
/-- `ONE_THIRD` (40_noise_tables.md R150). -/
def oneThird : F32 := F32.ofBits 0x3EAAAAAB#32
/-- `ATTACK_BIAS` (40_noise_tables.md R150). -/
def attackBias : F32 := F32.ofBits 0x3F14FC6D#32
/-- `DECAY_BIAS` (40_noise_tables.md R150). -/
def decayBias : F32 := F32.ofBits 0xBD569CDF#32
/-- `K_B0` (40_noise_tables.md R150). -/
def kB0 : F32 := F32.ofBits 0x3F44EC53#32
/-- `K_B1` (40_noise_tables.md R150). -/
def kB1 : F32 := F32.ofBits 0x3E99999A#32
/-- `K_TUNE` (40_noise_tables.md R150). -/
def kTune : F32 := F32.ofBits 0x3F9C4000#32
/-- `K_THERMAL` (40_noise_tables.md R150). -/
def kThermal : F32 := F32.ofBits 0x3F51B717#32
/-- `K_FCR3` (40_noise_tables.md R150). -/
def kFcr3 : F32 := F32.ofBits 0x3FEFBE77#32
/-- `K_FCR2` (40_noise_tables.md R150). -/
def kFcr2 : F32 := F32.ofBits 0x3EFDB22D#32
/-- `K_FCR1` (40_noise_tables.md R150). -/
def kFcr1 : F32 := F32.ofBits 0x3F2624DD#32
/-- `K_FCR0` (40_noise_tables.md R150). -/
def kFcr0 : F32 := F32.ofBits 0x3F7FB15B#32
/-- `K_ACR2` (40_noise_tables.md R150). -/
def kAcr2 : F32 := F32.ofBits 0xC07BEDFA#32
/-- `K_ACR1` (40_noise_tables.md R150). -/
def kAcr1 : F32 := F32.ofBits 0x3FEBA29C#32
/-- `K_ACR0` (40_noise_tables.md R150). -/
def kAcr0 : F32 := F32.ofBits 0x3F7F2E49#32
/-- `POLYBLEP_WIDTH` (40_noise_tables.md R150). -/
def polyblepWidth : F32 := F32.ofBits 0x3FC00000#32

-- The small integers and dyadic values of R150, exact.
/-- 0.25 -/
def quarter : F32 := F32.ofBits 0x3E800000#32
/-- 0.5 -/
def half : F32 := F32.ofBits 0x3F000000#32
/-- 0.75 -/
def threeQuarters : F32 := F32.ofBits 0x3F400000#32
/-- 1 -/
def one : F32 := F32.ofBits 0x3F800000#32
/-- -1 -/
def negOne : F32 := F32.ofBits 0xBF800000#32
/-- 1.25 -/
def fiveQuarters : F32 := F32.ofBits 0x3FA00000#32
/-- 2 -/
def two : F32 := F32.ofBits 0x40000000#32
/-- -2 -/
def negTwo : F32 := F32.ofBits 0xC0000000#32
/-- 3 -/
def three : F32 := F32.ofBits 0x40400000#32
/-- -3 -/
def negThree : F32 := F32.ofBits 0xC0400000#32
/-- 4 -/
def four : F32 := F32.ofBits 0x40800000#32
/-- 6 -/
def six : F32 := F32.ofBits 0x40C00000#32
/-- 8 -/
def eight : F32 := F32.ofBits 0x41000000#32
/-- 9 -/
def nine : F32 := F32.ofBits 0x41100000#32
/-- 27 -/
def twentySeven : F32 := F32.ofBits 0x41D80000#32
/-- 32768 -/
def pcmScale : F32 := F32.ofBits 0x47000000#32

end Const

end Sys2Proof.Machine
end

