-- ==== Sys2Proof/Machine/Envelope.lean ====
section
/-! DEFINITION. The ADSR envelope (43_envelope.md R230 to R236). -/

namespace Sys2Proof.Machine

/-- One exponential-approach step: `a + (((target - a) * rate) * dt)` (43_envelope.md R232, R233, R235). -/
def approach (a target rate dt : F32) : F32 := a.add (((target.sub a).mul rate).mul dt)

/-- The attack target `1 + ATTACK_BIAS` (43_envelope.md R231). -/
def attackTarget : F32 := Const.one.add Const.attackBias

/-- `ATTACK` (43_envelope.md R232). -/
def envAttack (c : EnvCfg) (dt a : F32) : EnvState :=
  let a' := approach a attackTarget c.attackRate dt
  if Const.one.le a' then ⟨if c.sustain.lt Const.one then .decay else .sustain, Const.one⟩ else ⟨.attack, a'⟩

/-- The decay target (43_envelope.md R233). -/
def decayTarget (sustain : F32) : F32 := sustain.add ((Const.one.sub sustain).mul Const.decayBias)

/-- `DECAY` (43_envelope.md R233). -/
def envDecay (c : EnvCfg) (dt a : F32) : EnvState :=
  let a' := approach a (decayTarget c.sustain) c.decayRate dt
  if a'.le c.sustain then ⟨.sustain, c.sustain⟩ else ⟨.decay, a'⟩

/-- The rate a release uses, chosen from the amplitude before the update (43_envelope.md R235). -/
def releaseRateOf (c : EnvCfg) (a : F32) : F32 :=
  if c.sustain.le a && c.releaseRate.le c.decayRate then c.decayRate else c.releaseRate

/-- `RELEASE` (43_envelope.md R235). -/
def envRelease (c : EnvCfg) (dt a : F32) : EnvState :=
  let a' := approach a Const.decayBias (releaseRateOf c a) dt
  if a'.le zeroF then ⟨.off, zeroF⟩ else ⟨.release, a'⟩

/-- `EnvUpdate(e, c, dt)` (43_envelope.md R230); `SUSTAIN` (R234) and `OFF` (R236) write nothing. -/
def envUpdate (c : EnvCfg) (dt : F32) (e : EnvState) : EnvState :=
  match e.stage with
  | .attack => envAttack c dt e.amplitude
  | .decay => envDecay c dt e.amplitude
  | .sustain => e
  | .release => envRelease c dt e.amplitude
  | .off => e

end Sys2Proof.Machine
end

