-- ==== Sys2Proof/Machine/Filter.lean ====
section
/-! DEFINITION. The ladder filter: setup, saturator, both cores and the output taps (44_filter.md R260 to R289). -/

namespace Sys2Proof.Machine

/-- `ftanh(x)`, the saturator (44_filter.md R262). -/
def ftanh (x : F32) : F32 :=
  if Const.three.lt x then Const.one
  else if x.lt Const.negThree then Const.negOne
  else
    let x2 := x.mul x
    (x.mul (Const.twentySeven.add x2)).div (Const.twentySeven.add (Const.nine.mul x2))

/-- `Setup(cutoff, dt)` with `FILTER_OVERSAMPLE` = 2 (44_filter.md R261). -/
def filterSetup (cutoff dt : F32) : F32 := (((cutoff.mul dt).mul Const.two).div Const.two).min Const.one

/-- Improved core coefficient setup (44_filter.md R263). -/
def improvedSetup (res fc : F32) (f : FilterState) : FilterState :=
  let g := Const.one.sub (fExp (Const.negPi.mul fc))
  let b0 := g.mul Const.kB0
  { f with feedback := Const.four.mul res, a1 := g.sub Const.one, b0 := b0, b1 := Const.kB1.mul b0 }

/-- A stage of the improved core: `((b0 * yPrev) + (b1 * tPrev)) - (a1 * y)` (44_filter.md R264). -/
def improvedStage (f : FilterState) (yPrev tPrev y : F32) : F32 :=
  ((f.b0.mul yPrev).add (f.b1.mul tPrev)).sub (f.a1.mul y)

/-- Improved core iteration with input `x` (44_filter.md R264). -/
def improvedIter (x : F32) (f : FilterState) : FilterState :=
  let y0 := x.sub (f.feedback.mul ((ftanh f.y4).sub (Const.half.mul x)))
  let y1 := improvedStage f y0 f.y0 f.y1
  let y2 := improvedStage f y1 f.y1 f.y2
  let y3 := improvedStage f y2 f.y2 f.y3
  let y4 := improvedStage f y3 f.y3 f.y4
  { f with y0 := y0, y1 := y1, y2 := y2, y3 := y3, y4 := y4 }

/-- Nonlinear core setup (44_filter.md R265). -/
def nonlinearSetup (res fc : F32) (f : FilterState) : FilterState :=
  let fcr := ((((((Const.kFcr3.mul fc).add Const.kFcr2).mul fc).sub Const.kFcr1).mul fc).add Const.kFcr0)
  let acr := ((((Const.kAcr2.mul fc).add Const.kAcr1).mul fc).add Const.kAcr0)
  { f with
    feedback := (Const.four.mul res).mul acr
    tune := (Const.one.sub (fExp ((Const.negPi.mul fc).mul fcr))).mul Const.kTune }

/-- A stage of the nonlinear core: `y + (tune * (ytanPrev - ytanOwn))` (44_filter.md R266). -/
def nonlinearStage (tune y ytanPrev ytanOwn : F32) : F32 := y.add (tune.mul (ytanPrev.sub ytanOwn))

/-- The stage saturation `ftanh(K_THERMAL * y)` (44_filter.md R266). -/
def thermalTanh (y : F32) : F32 := ftanh (Const.kThermal.mul y)

/-- Nonlinear core iteration with input `x` (44_filter.md R266). -/
def nonlinearIter (x : F32) (f : FilterState) : FilterState :=
  let y0 := x.sub (f.feedback.mul f.y4)
  let ytan0 := thermalTanh y0
  let y1 := nonlinearStage f.tune f.y1 ytan0 f.ytan1
  let ytan1 := thermalTanh y1
  let y2 := nonlinearStage f.tune f.y2 ytan1 f.ytan2
  let ytan2 := thermalTanh y2
  let y3 := nonlinearStage f.tune f.y3 ytan2 f.ytan3
  let ytan3 := thermalTanh y3
  let y4 := nonlinearStage f.tune f.y4 ytan3 (thermalTanh f.y4)
  { f with
    y0 := y0, y1 := y1, y2 := y2, y3 := y3, y4 := y4
    ytan0 := ytan0, ytan1 := ytan1, ytan2 := ytan2, ytan3 := ytan3 }

/-- The averaged output of a nonlinear iteration from `prev` to `f` (44_filter.md R266). -/
def nonlinearOut (prev f : FilterState) : F32 := Const.half.mul (f.y4.add prev.y4)

/-- The tap vector `ybar` (44_filter.md R260). -/
structure Taps where
  y0 : F32
  y1 : F32
  y2 : F32
  y3 : F32
  y4 : F32
deriving DecidableEq, Repr

/-- The output tap of a mode (44_filter.md R269 to R288). `None` has no tap: it returns the filter's input `x` (R268). -/
def filterTap (mode : FilterMode) (x : F32) (y : Taps) : F32 :=
  match mode with
  | .none => x
  | .peak => y.y0
  | .lowPass1 => y.y1
  | .lowPass2 => y.y2
  | .lowPass3 => y.y3
  | .lowPass4 => y.y4
  | .highPass1 => y.y1.sub y.y0
  | .highPass2 => (y.y2.neg.add (Const.two.mul y.y1)).sub y.y0
  | .highPass3 => ((y.y3.sub (Const.three.mul y.y2)).add (Const.three.mul y.y1)).sub y.y0
  | .highPass4 =>
    (((y.y4.neg.add (Const.four.mul y.y3)).sub (Const.six.mul y.y2)).add (Const.four.mul y.y1)).sub y.y0
  | .bandPass1 => y.y2.sub y.y1
  | .bandPass1LowPass1 => y.y3.sub y.y2
  | .bandPass1LowPass2 => y.y4.sub y.y3
  | .bandPass1HighPass1 => (y.y3.neg.add (Const.two.mul y.y2)).sub y.y1
  | .bandPass1HighPass2 => ((y.y4.sub (Const.three.mul y.y3)).add (Const.three.mul y.y2)).sub y.y1
  | .bandPass2 => (y.y4.sub (Const.two.mul y.y3)).add y.y2
  | .notch => ((Const.negTwo.mul y.y2).add (Const.two.mul y.y1)).sub y.y0
  | .notchLowPass1 => ((Const.negTwo.mul y.y3).add (Const.two.mul y.y2)).sub y.y1
  | .notchLowPass2 => ((Const.negTwo.mul y.y4).add (Const.two.mul y.y3)).sub y.y2
  | .phaseShift => (((Const.four.mul y.y3).sub (Const.six.mul y.y2)).add (Const.three.mul y.y1)).sub y.y0
  | .phaseShiftLowPass1 => (((Const.four.mul y.y4).sub (Const.six.mul y.y3)).add (Const.three.mul y.y2)).sub y.y1

/-- Setup and the two iterations of the improved core: the new state and its tap vector (44_filter.md R260, R263, R264). -/
def improvedUpdate (res fc x : F32) (f : FilterState) : FilterState × Taps :=
  let f2 := improvedIter x (improvedIter x (improvedSetup res fc f))
  (f2, ⟨f2.y0, f2.y1, f2.y2, f2.y3, f2.y4⟩)

/-- Setup and the two iterations of the nonlinear core (44_filter.md R260, R265, R266): the last iteration's average
stands for `y[4]` in the tap vector (90_conflicts.md C14). -/
def nonlinearUpdate (res fc x : F32) (f : FilterState) : FilterState × Taps :=
  let f1 := nonlinearIter x (nonlinearSetup res fc f)
  let f2 := nonlinearIter x f1
  (f2, ⟨f2.y0, f2.y1, f2.y2, f2.y3, nonlinearOut f1 f2⟩)

/-- One update of the built core (44_filter.md R260, R267). -/
def coreUpdate (core : FilterCore) (res fc x : F32) (f : FilterState) : FilterState × Taps :=
  match core with
  | .improved => improvedUpdate res fc x f
  | .nonlinear => nonlinearUpdate res fc x f

/-- `FilterUpdate(f, cutoff, x, dt)` (44_filter.md R260): the new filter state and the output. -/
def filterUpdate (core : FilterCore) (c : FilterCfg) (f : FilterState) (cutoff x dt : F32) : FilterState × F32 :=
  match c.mode with
  | .none => (f, x)
  | m =>
    let u := coreUpdate core c.resonance (filterSetup cutoff dt) x f
    (u.1, filterTap m x u.2)

/-- `FilterClear(f)` (44_filter.md R289). -/
def filterClear (_ : FilterState) : FilterState :=
  ⟨zeroF, zeroF, zeroF, zeroF, zeroF, zeroF, zeroF, zeroF, zeroF, zeroF, zeroF, zeroF, zeroF, zeroF⟩

end Sys2Proof.Machine
end

