-- ==== Sys2Proof/Machine/Codes.lean ====
section
/-! DEFINITION. The numeric codes of the enumerations (30_encoding.md R106 to R109). -/

namespace Sys2Proof.Machine

/-- The code of a wave type (30_encoding.md R106). -/
def WaveType.code : WaveType → Nat
  | .sine => 0
  | .pulse => 1
  | .sawtooth => 2
  | .triangle => 3
  | .noise => 4
  | .poly4 => 5
  | .poly5 => 6
  | .poly17 => 7
  | .pulsePoly5 => 8
  | .poly4Poly5 => 9
  | .poly17Poly5 => 10

/-- The wave type of a code; none from 11 on, which a register refuses (30_encoding.md R106). -/
def waveTypeOfCode (w : Word) : Option WaveType :=
  match w.toNat with
  | 0 => some .sine
  | 1 => some .pulse
  | 2 => some .sawtooth
  | 3 => some .triangle
  | 4 => some .noise
  | 5 => some .poly4
  | 6 => some .poly5
  | 7 => some .poly17
  | 8 => some .pulsePoly5
  | 9 => some .poly4Poly5
  | 10 => some .poly17Poly5
  | _ => none

/-- The code of a filter mode (30_encoding.md R107). -/
def FilterMode.code : FilterMode → Nat
  | .none => 0
  | .peak => 1
  | .lowPass1 => 2
  | .lowPass2 => 3
  | .lowPass3 => 4
  | .lowPass4 => 5
  | .highPass1 => 6
  | .highPass2 => 7
  | .highPass3 => 8
  | .highPass4 => 9
  | .bandPass1 => 10
  | .bandPass1LowPass1 => 11
  | .bandPass1LowPass2 => 12
  | .bandPass1HighPass1 => 13
  | .bandPass1HighPass2 => 14
  | .bandPass2 => 15
  | .notch => 16
  | .notchLowPass1 => 17
  | .notchLowPass2 => 18
  | .phaseShift => 19
  | .phaseShiftLowPass1 => 20

/-- The filter mode of a code; none from 21 on, which the register refuses (30_encoding.md R107). -/
def filterModeOfCode (w : Word) : Option FilterMode :=
  match w.toNat with
  | 0 => some .none
  | 1 => some .peak
  | 2 => some .lowPass1
  | 3 => some .lowPass2
  | 4 => some .lowPass3
  | 5 => some .lowPass4
  | 6 => some .highPass1
  | 7 => some .highPass2
  | 8 => some .highPass3
  | 9 => some .highPass4
  | 10 => some .bandPass1
  | 11 => some .bandPass1LowPass1
  | 12 => some .bandPass1LowPass2
  | 13 => some .bandPass1HighPass1
  | 14 => some .bandPass1HighPass2
  | 15 => some .bandPass2
  | 16 => some .notch
  | 17 => some .notchLowPass1
  | 18 => some .notchLowPass2
  | 19 => some .phaseShift
  | 20 => some .phaseShiftLowPass1
  | _ => none

/-- The code of an envelope stage (30_encoding.md R108). -/
def EnvStage.code : EnvStage → Nat
  | .off => 0
  | .attack => 1
  | .decay => 2
  | .sustain => 3
  | .release => 4

/-- The code of a filter core (30_encoding.md R109). -/
def filterCoreCode : FilterCore → Nat
  | .improved => 0
  | .nonlinear => 1

end Sys2Proof.Machine
end

