-- ==== Sys2Proof/Machine/Flags.lean ====
section
/-! DEFINITION. `STATUS`: the sticky error bits, `BUSY`, and the register word (10_state.md R37, R50;
60_exceptions.md R400 to R407). The block has no condition flags. -/

namespace Sys2Proof.Machine

/-- The three errors and their `STATUS` bits (60_exceptions.md R402 to R404). -/
inductive ErrorBit where
  | cmd | addr | value
deriving DecidableEq, Repr

/-- Sets an error bit; the others stay (60_exceptions.md R401). -/
def Status.set (e : ErrorBit) (st : Status) : Status :=
  match e with
  | .cmd => { st with errCmd := true }
  | .addr => { st with errAddr := true }
  | .value => { st with errValue := true }

/-- Writing `m` to `STATUS`: each error bit whose bit of `m` is 1 is cleared; bits 31:3 of `m` are ignored
(20_memory.md R72; 46_host_commands.md R356). -/
def Status.clear (m : Word) (st : Status) : Status where
  errCmd := st.errCmd && !m.getLsbD 0
  errAddr := st.errAddr && !m.getLsbD 1
  errValue := st.errValue && !m.getLsbD 2

/-- `BUSY`: 1 exactly when `SEQ` is rendering (10_state.md R50). -/
def State.busy (s : State) : Bool :=
  match s.seq with
  | .idle => false
  | .rendering _ _ _ => true

/-- The word a read of `STATUS` returns (10_state.md R37). -/
def statusWord (s : State) : Word :=
  BitVec.ofNat 32 (s.status.errCmd.toNat + 2 * s.status.errAddr.toNat + 4 * s.status.errValue.toNat
    + 256 * s.busy.toNat)

end Sys2Proof.Machine
end

