-- ==== Sys2Proof/Machine/Operands.lean ====
section
/-! DEFINITION. The register space: which register an offset names, what a read of it returns and what a write of it
stores (20_memory.md R70 to R74, R78; 10_state.md R21 to R26, R33, R34, R36 to R39). -/

namespace Sys2Proof.Machine

/-- The registers of an oscillator slot (10_state.md R22). -/
inductive OscField where
  | waveType | widthBase | freqBase | ampBase | widthLfo | freqLfo | ampLfo
deriving DecidableEq, Repr

/-- The LFO registers (10_state.md R24). -/
inductive LfoField where
  | waveType | width | freqBase | amplitude
deriving DecidableEq, Repr

/-- The two envelopes (10_state.md R25). -/
inductive EnvSel where
  | filter | volume
deriving DecidableEq, Repr

/-- The registers of an envelope (10_state.md R25). -/
inductive EnvField where
  | attackRate | decayRate | sustain | releaseRate
deriving DecidableEq, Repr

/-- The filter registers (10_state.md R26). -/
inductive FltField where
  | mode | cutoffBase | cutoffLfo | cutoffEnv | resonance
deriving DecidableEq, Repr

/-- The derived registers of a slot (10_state.md R23). -/
inductive DerField where
  | width | frequency | amplitude
deriving DecidableEq, Repr

/-- Every register of the map (20_memory.md R78). -/
inductive Reg where
  | cmd | status | hwcfg
  | fs | outputScale | useAntialias | keyboardTimescale
  | osc (o : Slot) (f : OscField)
  | lfo (f : LfoField)
  | env (e : EnvSel) (f : EnvField)
  | flt (f : FltField)
  | lfoValue | mostRecentKey
  | der (o : Slot) (f : DerField)
  | voiceStatus (k : VoiceIx)
  | venvAmp (k : VoiceIx)
  | fenvAmp (k : VoiceIx)
deriving DecidableEq, Repr

/-- A per-voice register at 4-aligned offset `base + 4k`, k = 0 to 23 (20_memory.md R78). -/
def voiceReg (n base : Nat) (r : VoiceIx → Reg) : Option Reg :=
  if h : (n - base) / 4 < 24 then
    if base ≤ n ∧ n % 4 = 0 then some (r ⟨(n - base) / 4, h⟩) else none
  else none

/-- The register at a byte offset; none where the map has none (20_memory.md R78). -/
def regAtNat (n : Nat) : Option Reg :=
  match n with
  | 0x000 => some .cmd
  | 0x004 => some .status
  | 0x008 => some .hwcfg
  | 0x00C => some .fs
  | 0x010 => some .outputScale
  | 0x014 => some .useAntialias
  | 0x018 => some .keyboardTimescale
  | 0x020 => some (.osc .s0 .waveType)
  | 0x024 => some (.osc .s0 .widthBase)
  | 0x028 => some (.osc .s0 .freqBase)
  | 0x02C => some (.osc .s0 .ampBase)
  | 0x030 => some (.osc .s0 .widthLfo)
  | 0x034 => some (.osc .s0 .freqLfo)
  | 0x038 => some (.osc .s0 .ampLfo)
  | 0x040 => some (.osc .s1 .waveType)
  | 0x044 => some (.osc .s1 .widthBase)
  | 0x048 => some (.osc .s1 .freqBase)
  | 0x04C => some (.osc .s1 .ampBase)
  | 0x050 => some (.osc .s1 .widthLfo)
  | 0x054 => some (.osc .s1 .freqLfo)
  | 0x058 => some (.osc .s1 .ampLfo)
  | 0x060 => some (.lfo .waveType)
  | 0x064 => some (.lfo .width)
  | 0x068 => some (.lfo .freqBase)
  | 0x06C => some (.lfo .amplitude)
  | 0x070 => some (.env .filter .attackRate)
  | 0x074 => some (.env .filter .decayRate)
  | 0x078 => some (.env .filter .sustain)
  | 0x07C => some (.env .filter .releaseRate)
  | 0x080 => some (.env .volume .attackRate)
  | 0x084 => some (.env .volume .decayRate)
  | 0x088 => some (.env .volume .sustain)
  | 0x08C => some (.env .volume .releaseRate)
  | 0x090 => some (.flt .mode)
  | 0x094 => some (.flt .cutoffBase)
  | 0x098 => some (.flt .cutoffLfo)
  | 0x09C => some (.flt .cutoffEnv)
  | 0x0A0 => some (.flt .resonance)
  | 0x100 => some .lfoValue
  | 0x104 => some .mostRecentKey
  | 0x110 => some (.der .s0 .width)
  | 0x114 => some (.der .s0 .frequency)
  | 0x118 => some (.der .s0 .amplitude)
  | 0x120 => some (.der .s1 .width)
  | 0x124 => some (.der .s1 .frequency)
  | 0x128 => some (.der .s1 .amplitude)
  | m =>
    if m < 0x300 then voiceReg m 0x200 .voiceStatus
    else if m < 0x380 then voiceReg m 0x300 .venvAmp
    else voiceReg m 0x380 .fenvAmp

/-- The register at a bus offset (20_memory.md R78). -/
def regAt (off : BitVec 12) : Option Reg := regAtNat off.toNat

/-- The read-only registers (20_memory.md R78; 60_exceptions.md R403). -/
def Reg.readOnly : Reg → Bool
  | .cmd => false
  | .status => false
  | .hwcfg => true
  | .fs => false
  | .outputScale => false
  | .useAntialias => false
  | .keyboardTimescale => false
  | .osc _ _ => false
  | .lfo _ => false
  | .env _ _ => false
  | .flt _ => false
  | .lfoValue => true
  | .mostRecentKey => true
  | .der _ _ => true
  | .voiceStatus _ => true
  | .venvAmp _ => true
  | .fenvAmp _ => true

/-- `VOICE[k]` (10_state.md R33). -/
def State.voice (s : State) (k : VoiceIx) : Voice := s.voices[k.val]

/-- The configuration of slot `o` (10_state.md R22). -/
def Cfg.osc (c : Cfg) : Slot → NoteOscCfg
  | .s0 => c.osc0
  | .s1 => c.osc1

/-- The configuration of an envelope (10_state.md R25). -/
def Cfg.env (c : Cfg) : EnvSel → EnvCfg
  | .filter => c.fenv
  | .volume => c.venv

/-- `DER[o]` (10_state.md R23). -/
def State.der (s : State) : Slot → DerOsc
  | .s0 => s.der0
  | .s1 => s.der1

/-- The word of an oscillator slot register (10_state.md R22). -/
def NoteOscCfg.word (c : NoteOscCfg) : OscField → Word
  | .waveType => BitVec.ofNat 32 c.waveType.code
  | .widthBase => c.widthBase.toBits
  | .freqBase => c.freqBase.toBits
  | .ampBase => c.ampBase.toBits
  | .widthLfo => c.widthLfo.toBits
  | .freqLfo => c.freqLfo.toBits
  | .ampLfo => c.ampLfo.toBits

/-- The word of an LFO register (10_state.md R24). -/
def LfoCfg.word (c : LfoCfg) : LfoField → Word
  | .waveType => BitVec.ofNat 32 c.waveType.code
  | .width => c.width.toBits
  | .freqBase => c.freqBase.toBits
  | .amplitude => c.amplitude.toBits

/-- The word of an envelope register (10_state.md R25). -/
def EnvCfg.word (c : EnvCfg) : EnvField → Word
  | .attackRate => c.attackRate.toBits
  | .decayRate => c.decayRate.toBits
  | .sustain => c.sustain.toBits
  | .releaseRate => c.releaseRate.toBits

/-- The word of a filter register (10_state.md R26). -/
def FilterCfg.word (c : FilterCfg) : FltField → Word
  | .mode => BitVec.ofNat 32 c.mode.code
  | .cutoffBase => c.cutoffBase.toBits
  | .cutoffLfo => c.cutoffLfo.toBits
  | .cutoffEnv => c.cutoffEnv.toBits
  | .resonance => c.resonance.toBits

/-- The word of a derived register (10_state.md R23). -/
def DerOsc.word (d : DerOsc) : DerField → Word
  | .width => d.width.toBits
  | .frequency => d.frequency.toBits
  | .amplitude => d.amplitude.toBits

/-- `HWCFG` (10_state.md R38): `NUM_VOICES` 24, `FILTER_CORE` in bit 8, `OVERSAMPLE` 2 in bits 19:16. -/
def hwcfgWord (hw : HwConfig) : Word := BitVec.ofNat 32 (24 + filterCoreCode hw.filterCore * 2 ^ 8 + 2 * 2 ^ 16)

/-- `VOICE_STATUS[k]` (10_state.md R33): `VENV.state` in bits 2:0, `FENV.state` in 6:4, `GATE` in 8. -/
def voiceStatusWord (v : Voice) : Word :=
  BitVec.ofNat 32 (v.venv.stage.code + v.fenv.stage.code * 2 ^ 4 + v.gate.toNat * 2 ^ 8)

/-- The current value of a register, reserved bits 0 (20_memory.md R71); `CMD` reads 0 (10_state.md R39). -/
def readReg (s : State) : Reg → Word
  | .cmd => 0#32
  | .status => statusWord s
  | .hwcfg => hwcfgWord s.hw
  | .fs => s.cfg.fs
  | .outputScale => s.cfg.outputScale.toBits
  | .useAntialias => BitVec.ofNat 32 s.cfg.useAntialias.toNat
  | .keyboardTimescale => s.cfg.keyboardTimescale.toBits
  | .osc o f => (s.cfg.osc o).word f
  | .lfo f => s.cfg.lfo.word f
  | .env e f => (s.cfg.env e).word f
  | .flt f => s.cfg.flt.word f
  | .lfoValue => s.lfoValue.toBits
  | .mostRecentKey => BitVec.ofNat 32 s.mostRecentKey.val
  | .der o f => (s.der o).word f
  | .voiceStatus k => voiceStatusWord (s.voice k)
  | .venvAmp k => (s.voice k).venv.amplitude.toBits
  | .fenvAmp k => (s.voice k).fenv.amplitude.toBits

/-- Is `v` a value the register can hold? Only enumerations and `FS` refuse one (20_memory.md R72; 60_exceptions.md
R404; 10_state.md R27). -/
def Reg.accepts (r : Reg) (v : Word) : Bool :=
  match r with
  | .fs => v != 0#32
  | .osc _ .waveType => (waveTypeOfCode v).isSome
  | .lfo .waveType => (waveTypeOfCode v).isSome
  | .flt .mode => (filterModeOfCode v).isSome
  | _ => true

/-- An oscillator slot with one register written (10_state.md R22). -/
def NoteOscCfg.store (c : NoteOscCfg) (v : Word) : OscField → NoteOscCfg
  | .waveType => { c with waveType := (waveTypeOfCode v).getD c.waveType }
  | .widthBase => { c with widthBase := F32.ofBits v }
  | .freqBase => { c with freqBase := F32.ofBits v }
  | .ampBase => { c with ampBase := F32.ofBits v }
  | .widthLfo => { c with widthLfo := F32.ofBits v }
  | .freqLfo => { c with freqLfo := F32.ofBits v }
  | .ampLfo => { c with ampLfo := F32.ofBits v }

/-- The LFO configuration with one register written (10_state.md R24). -/
def LfoCfg.store (c : LfoCfg) (v : Word) : LfoField → LfoCfg
  | .waveType => { c with waveType := (waveTypeOfCode v).getD c.waveType }
  | .width => { c with width := F32.ofBits v }
  | .freqBase => { c with freqBase := F32.ofBits v }
  | .amplitude => { c with amplitude := F32.ofBits v }

/-- An envelope configuration with one register written (10_state.md R25). -/
def EnvCfg.store (c : EnvCfg) (v : Word) : EnvField → EnvCfg
  | .attackRate => { c with attackRate := F32.ofBits v }
  | .decayRate => { c with decayRate := F32.ofBits v }
  | .sustain => { c with sustain := F32.ofBits v }
  | .releaseRate => { c with releaseRate := F32.ofBits v }

/-- The filter configuration with one register written (10_state.md R26). -/
def FilterCfg.store (c : FilterCfg) (v : Word) : FltField → FilterCfg
  | .mode => { c with mode := (filterModeOfCode v).getD c.mode }
  | .cutoffBase => { c with cutoffBase := F32.ofBits v }
  | .cutoffLfo => { c with cutoffLfo := F32.ofBits v }
  | .cutoffEnv => { c with cutoffEnv := F32.ofBits v }
  | .resonance => { c with resonance := F32.ofBits v }

/-- The configuration file with slot `o` replaced. -/
def Cfg.setOsc (c : Cfg) (o : Slot) (x : NoteOscCfg) : Cfg :=
  match o with
  | .s0 => { c with osc0 := x }
  | .s1 => { c with osc1 := x }

/-- The configuration file with an envelope replaced. -/
def Cfg.setEnv (c : Cfg) (e : EnvSel) (x : EnvCfg) : Cfg :=
  match e with
  | .filter => { c with fenv := x }
  | .volume => { c with venv := x }

/-- The configuration file with one register written by an accepted value (10_state.md R21 to R26); a register outside
`CFG` stores nothing here. -/
def Cfg.store (c : Cfg) (r : Reg) (v : Word) : Cfg :=
  match r with
  | .fs => { c with fs := v }
  | .outputScale => { c with outputScale := F32.ofBits v }
  | .useAntialias => { c with useAntialias := v.getLsbD 0 }
  | .keyboardTimescale => { c with keyboardTimescale := F32.ofBits v }
  | .osc o f => c.setOsc o ((c.osc o).store v f)
  | .lfo f => { c with lfo := c.lfo.store v f }
  | .env e f => c.setEnv e ((c.env e).store v f)
  | .flt f => { c with flt := c.flt.store v f }
  | .cmd => c
  | .status => c
  | .hwcfg => c
  | .lfoValue => c
  | .mostRecentKey => c
  | .der _ _ => c
  | .voiceStatus _ => c
  | .venvAmp _ => c
  | .fenvAmp _ => c

end Sys2Proof.Machine
end

