-- ==== Sys2Proof/Machine/Ops.lean ====
section
/-! DEFINITION. The named operations over the state that every meaning shares: raising an error, replacing a voice,
emitting PCM frames, the ports' queues and responses, and reset. -/

namespace Sys2Proof.Machine

/-- `raise ERR_x` (60_exceptions.md R401): sets the sticky bit; the operation is abandoned, so nothing else changes. It
is the block's one form of taking an exception (60_exceptions.md R400): no pc, no mode, no saved register. -/
def raiseError (e : ErrorBit) (s : State) : State := { s with status := s.status.set e }

/-- A write of `m` to `STATUS`, the block's one way back from an error (60_exceptions.md R407; 46_host_commands.md
R356). -/
def clearErrors (m : Word) (s : State) : State := { s with status := s.status.clear m }

/-- Stores an accepted value in a configuration register (20_memory.md R72). -/
def storeReg (r : Reg) (v : Word) (s : State) : State := { s with cfg := s.cfg.store r v }

/-- Replaces `VOICE[k]`. -/
def State.setVoice (s : State) (k : VoiceIx) (v : Voice) : State := { s with voices := s.voices.set k.val v }

/-- `PcmEmit(l, r)` (20_memory.md R76). -/
def pcmEmit (l r : BitVec 16) (s : State) : State := { s with pcm := s.pcm ++ [⟨l, r⟩] }

/-- `repeat n times: PcmEmit(0, 0)` (45_voice_mixer.md R321). -/
def pcmEmitZeros (n : Nat) (s : State) : State := { s with pcm := s.pcm ++ List.replicate n ⟨0#16, 0#16⟩ }

/-- The four bytes of a frame (20_memory.md R76). -/
def Frame.bytes (f : Frame) : List Byte :=
  [f.l.extractLsb' 0 8, f.l.extractLsb' 8 8, f.r.extractLsb' 0 8, f.r.extractLsb' 8 8]

/-- The PCM stream as the bytes the host reads (20_memory.md R76). -/
def State.pcmBytes (s : State) : List Byte := s.pcm.flatMap Frame.bytes

/-- A port's state. -/
def State.port (s : State) : Port → PortState
  | .ctrl => s.ctrl
  | .audio => s.audio

/-- Replaces a port's state. -/
def State.setPort (s : State) (p : Port) (x : PortState) : State :=
  match p with
  | .ctrl => { s with ctrl := x }
  | .audio => { s with audio := x }

/-- A bus read returns `v` to the agent on port `p` (20_memory.md R71; log 12). -/
def respond (p : Port) (v : Word) (s : State) : State :=
  s.setPort p { s.port p with responses := (s.port p).responses ++ [v] }

/-- The host issues a transaction on port `p` (10_state.md R51), whether or not a `RENDER` of that port runs (log 19). -/
def issueTxn (p : Port) (t : BusTxn) (s : State) : State :=
  s.setPort p { s.port p with queue := (s.port p).queue ++ [t] }

/-- The transaction at the head of port `p` completes (10_state.md R51). -/
def completeTxn (p : Port) (s : State) : State :=
  s.setPort p { s.port p with queue := (s.port p).queue.tail, owed := (s.port p).owed - 1 }

/-- Is the transaction a write of a `RENDER` command to `CMD`? -/
def isRenderTxn (t : BusTxn) : Bool :=
  match t.data with
  | none => false
  | some w => t.addr == 0#12 && (w &&& 0xFF000000#32 == 0x02000000#32)

/-- A block begins on port `p`: the other port's pending transactions, up to its first `RENDER`, must take effect by
the block's end (60_exceptions.md R412 items 3 and 4; log 11). What is issued there during the block is not owed: R412 item 4
bounds what is pending when the block begins, 93_implementation_defined.md I16 what is pending during it, and no ruling
settles the two. DESIGN CHOICE, safe (log 11). -/
def markOwed (p : Port) (s : State) : State :=
  let q := s.port p.other
  s.setPort p.other { q with owed := (q.queue.takeWhile fun t => !isRenderTxn t).length }

/-- The reset input (70_reset_and_hazards.md R430): every piece of state as after power-on, the emitted frames kept.
The block's parameters, the words already returned to the host and the environment's remaining choices are no state
that reset sets (log 15). -/
def applyReset (s : State) : State :=
  { State.resetWith s.hw with
    pcm := s.pcm
    schedule := s.schedule
    ctrl := ⟨[], 0, s.ctrl.responses⟩
    audio := ⟨[], 0, s.audio.responses⟩ }

end Sys2Proof.Machine
end

