-- ==== Sys2Proof/Machine/Waveform.lean ====
section
/-! DEFINITION. The waveform generators and their band-limiting corrections (41_waveforms.md R160 to R179). -/

namespace Sys2Proof.Machine

/-- `PB(t, w)`, the PolyBLEP residual (41_waveforms.md R162). -/
def polyBlep (t w : F32) : F32 :=
  if !(t.abs.lt w) then zeroF
  else if t.eq zeroF then zeroF
  else
    let tau := t.div w
    if zeroF.lt t then ((Const.two.mul tau).sub (tau.mul tau)).sub Const.one
    else ((tau.mul tau).add (Const.two.mul tau)).add Const.one

/-- `PBE(t, w)`, the edge residual (41_waveforms.md R179). -/
def polyBlepEdge (t w : F32) : F32 :=
  if !(t.abs.lt w) then zeroF
  else if t.eq zeroF then Const.negOne
  else polyBlep t w

/-- `IPB(t, w)`, the integrated PolyBLEP (41_waveforms.md R163). -/
def integratedPolyBlep (t w : F32) : F32 :=
  if !(t.abs.lt w) then zeroF
  else
    let tau := t.div w
    let t2 := tau.mul tau
    let t3 := t2.mul tau
    let w4 := Const.four.mul w
    if zeroF.lt t then (((Const.oneThird.sub tau).add t2).sub (t3.div Const.three)).mul w4
    else (((Const.oneThird.add tau).add t2).add (t3.div Const.three)).mul w4

/-- The correction width of `Pulse`, `Sawtooth` and `Triangle` (41_waveforms.md R178). -/
def correctionWidth (step : F32) : F32 := (step.mul Const.polyblepWidth).min Const.one

/-- The correction width of the table waves (41_waveforms.md R169, R178). -/
def tableCorrectionWidth (step : F32) : F32 := (step.mul Const.polyblepWidth).min Const.eight

/-- What a generator returns: the sample, the oscillator state it may have written, and `SEED` (41_waveforms.md R160). -/
structure WaveOut where
  value : F32
  st    : OscState
  seed  : Word
deriving DecidableEq, Repr

/-- `Sine` below the Nyquist limit (41_waveforms.md R164). -/
def sineWave (p : F32) : F32 := fSin (Const.twoPi.mul p)

/-- `Pulse` below the Nyquist limit, with its five correction sites (41_waveforms.md R165). -/
def pulseWave (aa : Bool) (width p step : F32) : F32 :=
  let pw := p.sub width
  let v := if p.lt width then Const.one else Const.negOne
  if aa then
    let w := correctionWidth step
    ((((v.add (polyBlepEdge p w)).add (polyBlepEdge (p.sub Const.one) w)).sub (polyBlepEdge pw w)).sub
      (polyBlepEdge (pw.sub Const.one) w)).sub (polyBlepEdge (pw.add Const.one) w)
  else v

/-- `Sawtooth` below the Nyquist limit (41_waveforms.md R166). -/
def sawtoothWave (aa : Bool) (p step : F32) : F32 :=
  let v := Const.one.sub (Const.two.mul p)
  if aa then
    let w := correctionWidth step
    (v.add (polyBlepEdge p w)).add (polyBlepEdge (p.sub Const.one) w)
  else v

/-- `Triangle` below the Nyquist limit, with its four correction sites (41_waveforms.md R167). -/
def triangleWave (aa : Bool) (p step : F32) : F32 :=
  let v := (Const.two.sub ((Const.four.mul p).sub Const.one).abs).abs.sub Const.one
  if aa then
    let w := correctionWidth step
    (((v.sub (integratedPolyBlep (p.sub Const.quarter) w)).add (integratedPolyBlep (p.sub Const.threeQuarters) w)).sub
      (integratedPolyBlep (p.sub Const.fiveQuarters) w)).add (integratedPolyBlep (p.add Const.quarter) w)
  else v

/-- `+1` for a table bit of 1 and `-1` for 0 (41_waveforms.md R168). -/
def bitLevel (b : Bool) : F32 := if b then Const.one else Const.negOne

/-- A table bit as an integer (41_waveforms.md R169). -/
def bitInt (b : Bool) : Int := if b then 1 else 0

/-- `RomRead(T, j mod cycle)` for an integer `j` (41_waveforms.md R168, R169; 00_scope.md R6). -/
def romBitAt (w : WaveType) (j : Int) : Bool := romBit w (j % (waveCycle w : Int)).toNat

/-- The term of boundary `m` in the table-wave correction (41_waveforms.md R169). -/
def polyCorrTerm (wt : WaveType) (p : F32) (i : Nat) (w : F32) (m : Int) (c : F32) : F32 :=
  let t := p.sub (F32.ofInt m)
  if t.abs.lt w then
    let bNew := romBitAt wt (i + m)
    let bOld := romBitAt wt (i + m - 1)
    if bNew != bOld then c.add ((F32.ofInt (bitInt bNew - bitInt bOld)).mul (polyBlepEdge t w)) else c
  else c

/-- The correction summed over `n` boundaries from `m` on, ascending (41_waveforms.md R169). -/
def polyCorrFrom (wt : WaveType) (p : F32) (i : Nat) (w : F32) : Nat → Int → F32 → F32
  | 0, _, c => c
  | n + 1, m, c => polyCorrFrom wt p i w n (m + 1) (polyCorrTerm wt p i w m c)

/-- `POLYCORR` (41_waveforms.md R169): the boundaries `m` with `ceil(p - w) <= m <= floor(p + w)`. Where a bound is no
number no boundary has `|t| < w` and the correction is +0.0 (log 17). -/
def polyCorr (wt : WaveType) (st : OscState) (step : F32) : F32 :=
  let p := st.phase
  let w := tableCorrectionWidth step
  match (p.sub w).ceil?, (p.add w).floor? with
  | some lo, some hi => polyCorrFrom wt p st.index w (hi - lo + 1).toNat lo zeroF
  | none, _ => zeroF
  | some _, none => zeroF

/-- The shared table-wave step below the Nyquist limit (41_waveforms.md R168, R170 to R175). -/
def tableWave (aa : Bool) (wt : WaveType) (st : OscState) (seed : Word) (step : F32) : WaveOut :=
  let idx := ((st.index + st.advance) % (waveCycle wt : Int)).toNat
  let st' : OscState := ⟨st.phase, 0, idx⟩
  let v := bitLevel (romBit wt idx)
  ⟨if aa then v.add (polyCorr wt st' step) else v, st', seed⟩

/-- One step of the noise generator's XorShift32 (41_waveforms.md R176). -/
def xorshift32 (x : Word) : Word :=
  let x1 := x ^^^ (x <<< 13)
  let x2 := x1 ^^^ (x1 >>> 17)
  x2 ^^^ (x2 <<< 5)

/-- The sample of a noise state (41_waveforms.md R176). -/
def noiseSample (seed : Word) : F32 := (Const.two.mul (F32.ofWordFraction seed)).sub Const.one

/-- `wave[wt](cfg, st, step)` (41_waveforms.md R160), the Nyquist rule first (R161). `aa` is `USE_ANTIALIAS`. -/
def waveGen (aa : Bool) (wt : WaveType) (width : F32) (st : OscState) (seed : Word) (step : F32) : WaveOut :=
  if Const.half.lt step then ⟨zeroF, st, seed⟩
  else
    match wt with
    | .sine => ⟨sineWave st.phase, st, seed⟩
    | .pulse => ⟨pulseWave aa width st.phase step, st, seed⟩
    | .sawtooth => ⟨sawtoothWave aa st.phase step, st, seed⟩
    | .triangle => ⟨triangleWave aa st.phase step, st, seed⟩
    | .noise => ⟨noiseSample (xorshift32 seed), st, xorshift32 seed⟩
    | .poly4 => tableWave aa .poly4 st seed step
    | .poly5 => tableWave aa .poly5 st seed step
    | .poly17 => tableWave aa .poly17 st seed step
    | .pulsePoly5 => tableWave aa .pulsePoly5 st seed step
    | .poly4Poly5 => tableWave aa .poly4Poly5 st seed step
    | .poly17Poly5 => tableWave aa .poly17Poly5 st seed step

end Sys2Proof.Machine
end

