-- ==== Sys2Proof/Machine/Oscillator.lean ====
section
/-! DEFINITION. The oscillator update, the LFO and the derived configuration (42_oscillator_lfo.md R200 to R208). -/

namespace Sys2Proof.Machine

/-- An oscillator configuration, the operand `cfg` of `OscUpdate` (42_oscillator_lfo.md R200). -/
structure OscCfg where
  waveType  : WaveType
  width     : F32
  frequency : F32
  amplitude : F32
deriving DecidableEq, Repr

/-- Steps 3 and 4 of `OscUpdate` from the sum `s` of the old phase and the step (42_oscillator_lfo.md R200): normalises
the phase with the fix-up of R201, or resets phase and advance where R202 says. -/
def wrapPhase (st : OscState) (s : F32) : OscState :=
  match s.floor? with
  | none => { st with phase := zeroF, advance := 0 }
  | some a =>
    if 2 ^ 31 ≤ a.natAbs then { st with phase := zeroF, advance := 0 }
    else
      let p := s.sub (F32.ofInt a)
      if Const.one.le p then { st with phase := zeroF, advance := a + 1 } else { st with phase := p, advance := a }

/-- The phase step `d` of an update (42_oscillator_lfo.md R200 step 1). -/
def phaseStep (frequency scale dt : F32) : F32 := (frequency.mul scale).mul dt

/-- `OscUpdate(cfg, st, scale, dt)` (42_oscillator_lfo.md R200): the value, the new oscillator state and `SEED`. -/
def oscUpdate (aa : Bool) (cfg : OscCfg) (st : OscState) (seed : Word) (scale dt : F32) : WaveOut :=
  let d := phaseStep cfg.frequency scale dt
  let g := waveGen aa cfg.waveType cfg.width st seed d
  ⟨cfg.amplitude.mul g.value, wrapPhase g.st (st.phase.add d), g.seed⟩

/-- `OscReset(st)` (42_oscillator_lfo.md R207). -/
def oscReset (_ : OscState) : OscState := ⟨zeroF, 0, 0⟩

/-- The LFO's configuration at an update (42_oscillator_lfo.md R203), its frequency `F_exp2(LFO_FREQ_BASE)` (R204). -/
def lfoOscCfg (c : LfoCfg) : OscCfg := ⟨c.waveType, c.width, fExp2 c.freqBase, c.amplitude⟩

/-- `LfoUpdate(dt)` (42_oscillator_lfo.md R203). Its generator reads `USE_ANTIALIAS` (41_waveforms.md R160) in an empty block
too, where 70_reset_and_hazards.md R433 does not list it and no ruling settles the two. DESIGN CHOICE, unsafe (log 18). -/
def lfoUpdate (dt : F32) (s : State) : State :=
  let g := oscUpdate s.cfg.useAntialias (lfoOscCfg s.cfg.lfo) s.lfoSt s.seed Const.one dt
  { s with lfoSt := g.st, lfoValue := g.value, seed := g.seed }

/-- `DER[o]` from slot configuration `c` and the LFO value (42_oscillator_lfo.md R205). -/
def deriveOsc (c : NoteOscCfg) (lfo : F32) : DerOsc where
  width := c.widthBase.add (c.widthLfo.mul lfo)
  frequency := (fExp2 (c.freqBase.add (c.freqLfo.mul lfo))).mul (waveAdjust c.waveType)
  amplitude := c.ampBase.add (c.ampLfo.mul lfo)

/-- `Recompute(LFO_VALUE)` (42_oscillator_lfo.md R205, R206). -/
def recompute (s : State) : State :=
  { s with der0 := deriveOsc s.cfg.osc0 s.lfoValue, der1 := deriveOsc s.cfg.osc1 s.lfoValue }

/-- The configuration of slot 0 or 1 in a slot update (42_oscillator_lfo.md R208). -/
def slotOscCfg (c : NoteOscCfg) (d : DerOsc) : OscCfg := ⟨c.waveType, d.width, d.frequency, d.amplitude⟩

end Sys2Proof.Machine
end

