-- ==== Sys2Proof/Machine/Voice.lean ====
section
/-! DEFINITION. Voice lifecycle, the sample step, blocks and the output saturator (45_voice_mixer.md R310 to R331). -/

namespace Sys2Proof.Machine

/-- `VoiceStart(k)` (45_voice_mixer.md R311). -/
def voiceStart (k : VoiceIx) (s : State) : State :=
  let v := s.voice k
  { s.setVoice k { v with osc0 := oscReset v.osc0, osc1 := oscReset v.osc1, flt := filterClear v.flt } with
    mostRecentKey := k }

/-- Is the voice active (45_voice_mixer.md R312)? -/
def Voice.active (v : Voice) : Bool := v.venv.stage != .off

/-- The active list at the start of a block, ascending (45_voice_mixer.md R312). -/
def activeList (s : State) : List VoiceIx := (List.finRange 24).filter fun k => (s.voice k).active

/-- `kf = KEYFREQ[k] * KEYBOARD_TIMESCALE` (45_voice_mixer.md R325). -/
def voiceFreq (s : State) (k : VoiceIx) : F32 := (keyFreq k).mul s.cfg.keyboardTimescale

/-- `Cutoff(k, kf)` from the LFO value and the filter envelope's amplitude (45_voice_mixer.md R326). -/
def cutoffOf (c : FilterCfg) (lfo kf fenvAmp : F32) : F32 :=
  kf.mul (fExp2 ((c.cutoffBase.add (c.cutoffLfo.mul lfo)).add (c.cutoffEnv.mul fenvAmp)))

/-- `VOICE[k]` with both envelopes updated by `dt`, the filter envelope first (45_voice_mixer.md R325). -/
def voiceEnvelopes (c : Cfg) (dt : F32) (v : Voice) : Voice :=
  { v with fenv := envUpdate c.fenv dt v.fenv, venv := envUpdate c.venv dt v.venv }

/-- The sounding part of `VoiceStep(k, dt)` for voice `v`, its envelopes already updated: slot 0, slot 1, filter, volume
envelope (45_voice_mixer.md R325, R327; 42_oscillator_lfo.md R208). In mode `None` `filterUpdate` is the bypass
(44_filter.md R268). -/
def voiceSound (k : VoiceIx) (dt : F32) (v : Voice) (s : State) : State × F32 :=
  let kf := voiceFreq s k
  let g0 := oscUpdate s.cfg.useAntialias (slotOscCfg s.cfg.osc0 s.der0) v.osc0 s.seed kf dt
  let g1 := oscUpdate s.cfg.useAntialias (slotOscCfg s.cfg.osc1 s.der1) v.osc1 g0.seed kf dt
  let flt := filterUpdate s.hw.filterCore s.cfg.flt v.flt (cutoffOf s.cfg.flt s.lfoValue kf v.fenv.amplitude)
    (g0.value.add g1.value) dt
  ({ s.setVoice k { v with osc0 := g0.st, osc1 := g1.st, flt := flt.1 } with seed := g1.seed },
    flt.2.mul v.venv.amplitude)

/-- `VoiceStep(k, dt)` (45_voice_mixer.md R325): the new state, and the voice's contribution or none where its volume
envelope is now `OFF`. -/
def voiceStep (k : VoiceIx) (dt : F32) (s : State) : State × Option F32 :=
  let v := voiceEnvelopes s.cfg dt (s.voice k)
  if v.venv.stage = .off then (s.setVoice k v, none)
  else
    let r := voiceSound k dt v s
    (r.1, some r.2)

/-- Swap-remove: the last entry moves into place `i` and the list shrinks by one (45_voice_mixer.md R313). -/
def swapRemove (l : List VoiceIx) (i : Nat) : List VoiceIx :=
  match l.getLast? with
  | none => []
  | some x => (l.set i x).dropLast

/-- Where the voice loop of a sample step stands: the state, the active list and the sum (45_voice_mixer.md R324). -/
structure MixState where
  s      : State
  active : List VoiceIx
  sample : F32
deriving DecidableEq, Repr

/-- Step d of the sample step from position `i` (45_voice_mixer.md R324). Every round removes an entry or moves past
one, so the list's length is fuel enough. -/
def mixVoices (dt : F32) : Nat → Nat → MixState → MixState
  | 0, _, m => m
  | fuel + 1, i, m =>
    match m.active[i]? with
    | none => m
    | some k =>
      match voiceStep k dt m.s with
      | (s', none) => mixVoices dt fuel i ⟨s', swapRemove m.active i, m.sample⟩
      | (s', some c) => mixVoices dt fuel (i + 1) ⟨s', m.active, m.sample.add c⟩

/-- `PcmQuantize(sample)` before the NaN test is settled: the saturated value to an int16 (45_voice_mixer.md R330). -/
def quantizeSaturated (y : F32) : Int :=
  match (y.mul Const.pcmScale).floor? with
  | none => 0
  | some q => min (max q (-32768)) 32767

/-- `PcmQuantize(sample)` with `OUTPUT_SCALE` = `scale` (45_voice_mixer.md R330). -/
def pcmQuantize (scale sample : F32) : BitVec 16 :=
  let y := ftanh (sample.mul scale)
  if y.isNan then 0#16 else BitVec.ofInt 16 (quantizeSaturated y)

/-- `dt <- 1 / f32(FS)` (45_voice_mixer.md R323). -/
def sampleInterval (c : Cfg) : F32 := Const.one.div (F32.ofWord c.fs)

/-- Steps a to e of the sample step over an active list: the state with its frame emitted, and the list left
(45_voice_mixer.md R324, R331). -/
def renderFrame (active : List VoiceIx) (s : State) : State × List VoiceIx :=
  let dt := sampleInterval s.cfg
  let m := mixVoices dt active.length 0 ⟨recompute (lfoUpdate dt s), active, zeroF⟩
  let q := pcmQuantize m.s.cfg.outputScale m.sample
  (pcmEmit q q m.s, m.active)

/-- `SampleStep()` (45_voice_mixer.md R324) and the end of the block: when `remaining` reaches 0 the sequencer is idle
and the `RENDER` completes on its port (10_state.md R50; 46_host_commands.md R350). -/
def sampleStep (s : State) : State :=
  match s.seq with
  | .idle => s
  | .rendering p remaining active =>
    let r := renderFrame active s
    if remaining ≤ 1 then completeTxn p { r.1 with seq := .idle }
    else { r.1 with seq := .rendering p (remaining - 1) r.2 }

/-- `EmptyBlock(count)` (45_voice_mixer.md R321). That its LFO update reads `USE_ANTIALIAS` is the model's choice between
41_waveforms.md R160 and 70_reset_and_hazards.md R433. DESIGN CHOICE, unsafe (log 18). -/
def emptyBlock (count : Nat) (s : State) : State :=
  let dt := (F32.ofInt count).div (F32.ofWord s.cfg.fs)
  recompute (lfoUpdate dt (pcmEmitZeros count s))

/-- The start of `Block(count)` on port `p` (45_voice_mixer.md R320): the empty block runs whole; otherwise the sequencer
starts, and its sample steps are transitions of their own (60_exceptions.md R412; log 10). -/
def startBlock (p : Port) (count : Nat) (s : State) : State :=
  match activeList s with
  | [] => emptyBlock count s
  | k :: ks => if count = 0 then s else { s with seq := .rendering p count (k :: ks) }

end Sys2Proof.Machine
end

