-- ==== Sys2Proof/Machine/Command.lean ====
section
/-! DEFINITION. The commands `NOP`, `GATE`, `RENDER` and the illegal command (46_host_commands.md R350 to R353, R357). -/

namespace Sys2Proof.Machine

/-- Rising gate edge of voice `k` (43_envelope.md R237). -/
def risingEdge (k : VoiceIx) (s : State) : State :=
  let s1 := s.setVoice k { s.voice k with gate := true }
  let s2 := if (s.voice k).venv.stage = .off then voiceStart k s1 else s1
  let v := s2.voice k
  s2.setVoice k { v with fenv := { v.fenv with stage := .attack }, venv := { v.venv with stage := .attack } }

/-- Falling gate edge of voice `k` (43_envelope.md R238). -/
def fallingEdge (k : VoiceIx) (s : State) : State :=
  let v := s.voice k
  s.setVoice k
    { v with gate := false, fenv := { v.fenv with stage := .release }, venv := { v.venv with stage := .release } }

/-- A gate value for voice `k`, an edge or nothing (46_host_commands.md R352). -/
def gateVoice (k : VoiceIx) (down : Bool) (s : State) : State :=
  if down = (s.voice k).gate then s
  else if down then risingEdge k s
  else fallingEdge k s

/-- `GATE VOICE, D` (46_host_commands.md R352). -/
def gateCommand (voice : BitVec 5) (down : Bool) (s : State) : State :=
  if h : voice.toNat < 24 then gateVoice ⟨voice.toNat, h⟩ down s else raiseError .value s

/-- `RENDER COUNT` on port `p` (46_host_commands.md R353). While a block runs it waits: nothing happens, and the
transaction stays at the head of its port (log 16). -/
def renderCommand (p : Port) (count : BitVec 24) (s : State) : State :=
  match s.seq with
  | .idle => startBlock p count.toNat (markOwed p s)
  | .rendering _ _ _ => s

/-- Executes a word written to `CMD` (46_host_commands.md R350, R357). -/
def commandWord (p : Port) (w : Word) (s : State) : State :=
  match decodeCmd w with
  | .ok .nop => s
  | .ok (.gate v d) => gateCommand v d s
  | .ok (.render n) => renderCommand p n s
  | .error _ => raiseError .cmd s

/-- `NOP` (46_host_commands.md R351): skip. -/
def execNop (_ : Port) (s : State) : Host.Outcome State Fault Refusal := .next s

/-- `GATE` (46_host_commands.md R352), the same on either port (60_exceptions.md R409). -/
def execGate (_ : Port) (voice : BitVec 5) (down : Bool) (s : State) : Host.Outcome State Fault Refusal :=
  .next (gateCommand voice down s)

/-- `RENDER` (46_host_commands.md R353). -/
def execRender (p : Port) (count : BitVec 24) (s : State) : Host.Outcome State Fault Refusal :=
  .next (renderCommand p count s)

end Sys2Proof.Machine
end

