-- ==== Sys2Proof/Machine/Bus.lean ====
section
/-! DEFINITION. The bus operations `BUS_WRITE` and `BUS_READ` (46_host_commands.md R354 to R356; 20_memory.md R71, R72). -/

namespace Sys2Proof.Machine

/-- A write of `v` to a mapped register (20_memory.md R72, from its third line on). -/
def writeMapped (p : Port) (r : Reg) (v : Word) (s : State) : State :=
  if r.readOnly then raiseError .addr s
  else if r = .cmd then commandWord p v s
  else if r = .status then clearErrors v s
  else if r.accepts v then storeReg r v s
  else raiseError .value s

/-- `MemWrite(addr, 4, v)` on port `p` (20_memory.md R72), its checks in the order written (60_exceptions.md R406). -/
def memWrite (p : Port) (off : BitVec 12) (v : Word) (s : State) : State :=
  if off.toNat % 4 ≠ 0 then raiseError .addr s
  else
    match regAt off with
    | none => raiseError .addr s
    | some r => writeMapped p r v s

/-- `MemRead(addr, 4)` (20_memory.md R71): the word returned and the state after. -/
def memRead (off : BitVec 12) (s : State) : Word × State :=
  if off.toNat % 4 ≠ 0 then (0#32, raiseError .addr s)
  else
    match regAt off with
    | none => (0#32, raiseError .addr s)
    | some r => (readReg s r, s)

/-- `BUS_WRITE` (46_host_commands.md R354). -/
def execBusWrite (p : Port) (off : BitVec 12) (v : Word) (s : State) : Host.Outcome State Fault Refusal :=
  .next (memWrite p off v s)

/-- `BUS_READ` (46_host_commands.md R355): the word goes back to the agent on port `p`. -/
def execBusRead (p : Port) (off : BitVec 12) (s : State) : Host.Outcome State Fault Refusal :=
  let r := memRead off s
  .next (respond p r.1 r.2)

end Sys2Proof.Machine
end

