-- ==== Sys2Proof/Machine/Dispatch.lean ====
section
/-! DEFINITION. The one arm per operation of spec/opcode_table.json. -/

namespace Sys2Proof.Machine

/-- What an operation does to the state (46_host_commands.md R350 to R357). -/
def exec (i : Instr) (s : State) : Host.Outcome State Fault Refusal :=
  match i with
  | .nop p => Sys2Proof.Machine.execNop p s
  | .gate p v d => Sys2Proof.Machine.execGate p v d s
  | .render p n => Sys2Proof.Machine.execRender p n s
  | .busWrite p off v => Sys2Proof.Machine.execBusWrite p off v s
  | .busRead p off => Sys2Proof.Machine.execBusRead p off s

end Sys2Proof.Machine
end

