-- ==== Sys2Proof/Machine/Schedule.lean ====
section
/-! DEFINITION. Which transition happens next: the constraints of 60_exceptions.md R412 on the environment's choices, and
what the model does where the environment has made none (log 9). -/

namespace Sys2Proof.Machine

/-- The transition a step performs: none, a transaction issued, the transaction at the head of a port, a sample step, or
the reset input. -/
inductive Turn where
  | nothing
  | issue (p : Port) (t : BusTxn)
  | serve (p : Port) (t : BusTxn)
  | sample
  | reset
deriving DecidableEq, Repr

/-- May a transaction of port `p` take effect now (60_exceptions.md R412)? When the sequencer is idle, unless the other
port is still owed the transactions that were pending when the last block began (item 4); during a block only on the
port that did not start it (item 2), and no `RENDER` (item 3). -/
def mayServe (s : State) (p : Port) (t : BusTxn) : Bool :=
  match s.seq with
  | .idle => (s.port p.other).owed == 0
  | .rendering q _ _ => p != q && !isRenderTxn t

/-- The transaction of port `p` that may take effect now, if any. -/
def servable (s : State) (p : Port) : Option BusTxn :=
  match (s.port p).queue with
  | [] => none
  | t :: _ => if mayServe s p t then some t else none

/-- The transition where the environment has made no choice (log 9): a sample step while a block runs, else the head of
`CTRL`, else the head of `AUDIO`, else nothing: the block is idle and all state survives (60_exceptions.md R417). -/
def defaultTurn (s : State) : Turn :=
  match s.seq with
  | .rendering _ _ _ => .sample
  | .idle =>
    match servable s .ctrl with
    | some t => .serve .ctrl t
    | none =>
      match servable s .audio with
      | some t => .serve .audio t
      | none => .nothing

/-- The transition of the environment's next choice; a `serve` or `sample` that 60_exceptions.md R412 does not allow is
dropped (log 9). An `issue` is always taken and queued, also on the port whose own `RENDER` runs: R412 item 2 and
70_reset_and_hazards.md R443 say that this port issues nothing, 46_host_commands.md R350 that it starts nothing. DESIGN
CHOICE (log 19). -/
def nextTurn (s : State) : Turn :=
  match s.schedule with
  | [] => defaultTurn s
  | .issue p t :: _ => .issue p t
  | .serve p :: _ =>
    match servable s p with
    | some t => .serve p t
    | none => .nothing
  | .sample :: _ => if s.busy then .sample else .nothing
  | .reset :: _ => .reset

/-- After an operation of port `p`: its transaction completes, unless it is the `RENDER` whose block now runs, which
completes when the block ends (46_host_commands.md R350; 10_state.md R51; log 10). -/
def completeUnlessRendering (p : Port) (s : State) : State :=
  match s.seq with
  | .idle => completeTxn p s
  | .rendering q _ _ => if q = p then s else completeTxn p s

/-- The state after an operation of port `p`, whatever its outcome. -/
def afterTxn (p : Port) (o : Host.Outcome State Fault Refusal) : Host.Outcome State Fault Refusal :=
  match o with
  | .next s => .next (completeUnlessRendering p s)
  | .fault f => .fault f
  | .refused r => .refused r

/-- Puts a transaction at the head of port `CTRL` and makes it the environment's next choice, on a block whose sequencer
is idle and which owes no port a transaction (log 14). -/
def placeTxn (t : BusTxn) (s : State) : State :=
  { s with
    seq := .idle
    ctrl := { s.ctrl with queue := t :: s.ctrl.queue, owed := 0 }
    audio := { s.audio with owed := 0 }
    schedule := .serve .ctrl :: s.schedule }

end Sys2Proof.Machine
end

