-- ==== Sys2Proof/Machine/Step.lean ====
section
/-! DEFINITION. One step of the block: one transition of 60_exceptions.md R412, or one choice of the environment. -/

namespace Sys2Proof.Machine

/-- One step: takes the environment's next choice off the schedule and performs the transition it names. -/
def step (s : State) : Host.Outcome State Fault Refusal :=
  let s0 := { s with schedule := s.schedule.tail }
  match nextTurn s with
  | .nothing => .next s0
  | .issue p t => .next (issueTxn p t s0)
  | .serve p t => afterTxn p (exec (decodeTxn p t) s0)
  | .sample => .next (sampleStep s0)
  | .reset => .next (applyReset s0)

/-- The state with the transaction of a numbered table word pending on `CTRL` as the very next transition; unchanged
where the decoder refuses the word (log 7, 14). -/
def State.withFetchWord (s : State) (nbits w : Nat) : State :=
  match tableTxn nbits w with
  | .ok t => placeTxn t s
  | .error _ => s

end Sys2Proof.Machine
end

