-- ==== Sys2Proof/Safety.lean ====
section
/-! DEFINITION. What a sound state of the block is, in the terms claims use: the invariants of the spec (10_state.md R27,
R29, R31, R35, R37; 43_envelope.md R238; 45_voice_mixer.md R312, R313; 60_exceptions.md R412). -/

namespace Sys2Proof.Machine

/-- The byte offset of each register, as the map lists them (20_memory.md R78; 10_state.md R21 to R26, R33, R34, R36 to
R39). -/
def Reg.offset : Reg → Nat
  | .cmd => 0x000
  | .status => 0x004
  | .hwcfg => 0x008
  | .fs => 0x00C
  | .outputScale => 0x010
  | .useAntialias => 0x014
  | .keyboardTimescale => 0x018
  | .osc .s0 .waveType => 0x020
  | .osc .s0 .widthBase => 0x024
  | .osc .s0 .freqBase => 0x028
  | .osc .s0 .ampBase => 0x02C
  | .osc .s0 .widthLfo => 0x030
  | .osc .s0 .freqLfo => 0x034
  | .osc .s0 .ampLfo => 0x038
  | .osc .s1 .waveType => 0x040
  | .osc .s1 .widthBase => 0x044
  | .osc .s1 .freqBase => 0x048
  | .osc .s1 .ampBase => 0x04C
  | .osc .s1 .widthLfo => 0x050
  | .osc .s1 .freqLfo => 0x054
  | .osc .s1 .ampLfo => 0x058
  | .lfo .waveType => 0x060
  | .lfo .width => 0x064
  | .lfo .freqBase => 0x068
  | .lfo .amplitude => 0x06C
  | .env .filter .attackRate => 0x070
  | .env .filter .decayRate => 0x074
  | .env .filter .sustain => 0x078
  | .env .filter .releaseRate => 0x07C
  | .env .volume .attackRate => 0x080
  | .env .volume .decayRate => 0x084
  | .env .volume .sustain => 0x088
  | .env .volume .releaseRate => 0x08C
  | .flt .mode => 0x090
  | .flt .cutoffBase => 0x094
  | .flt .cutoffLfo => 0x098
  | .flt .cutoffEnv => 0x09C
  | .flt .resonance => 0x0A0
  | .lfoValue => 0x100
  | .mostRecentKey => 0x104
  | .der .s0 .width => 0x110
  | .der .s0 .frequency => 0x114
  | .der .s0 .amplitude => 0x118
  | .der .s1 .width => 0x120
  | .der .s1 .frequency => 0x124
  | .der .s1 .amplitude => 0x128
  | .voiceStatus k => 0x200 + 4 * k.val
  | .venvAmp k => 0x300 + 4 * k.val
  | .fenvAmp k => 0x380 + 4 * k.val

/-- Is the wave table-driven (30_encoding.md R106)? -/
def WaveType.tableDriven : WaveType → Bool
  | .poly4 => true
  | .poly5 => true
  | .poly17 => true
  | .pulsePoly5 => true
  | .poly4Poly5 => true
  | .poly17Poly5 => true
  | .sine => false
  | .pulse => false
  | .sawtooth => false
  | .triangle => false
  | .noise => false

/-- `0 <= p < 1` (10_state.md R29). -/
def phaseOk (p : F32) : Bool := zeroF.le p && p.lt Const.one

/-- `0 <= a <= 1` (10_state.md R31). -/
def unitRange (a : F32) : Bool := zeroF.le a && a.le Const.one

/-- An oscillator state in its ranges (10_state.md R28, R29; 42_oscillator_lfo.md R202). -/
structure OscState.Ok (o : OscState) : Prop where
  phase     : phaseOk o.phase = true
  advanceLo : -(2 ^ 31) ≤ o.advance
  advanceHi : o.advance < 2 ^ 31
  index     : o.index < 4063201

/-- The stages an envelope can be in while its key is held: only a falling edge leads to `RELEASE`, and only `RELEASE`
leads to `OFF` (43_envelope.md R238). -/
def EnvStage.held : EnvStage → Bool
  | .off => false
  | .attack => true
  | .decay => true
  | .sustain => true
  | .release => false

/-- `state == OFF` implies `amplitude == 0` (10_state.md R31). -/
def EnvState.Ok (e : EnvState) : Prop := e.stage = .off → e.amplitude = zeroF

/-- A voice whose parts are in their ranges and whose envelopes' stages agree with its gate (43_envelope.md R238). -/
structure Voice.Ok (v : Voice) : Prop where
  osc0     : v.osc0.Ok
  osc1     : v.osc1.Ok
  fenv     : v.fenv.Ok
  venv     : v.venv.Ok
  fenvGate : v.fenv.stage.held = v.gate
  venvGate : v.venv.stage.held = v.gate

/-- A running block: from 1 to 2^24 - 1 frames to go, a list of distinct active voices, and its `RENDER` at the head of
its port (10_state.md R50; 45_voice_mixer.md R312, R313; 46_host_commands.md R350). -/
structure State.Rendering (s : State) (p : Port) (remaining : Nat) (active : List VoiceIx) : Prop where
  some_left : 1 ≤ remaining
  count     : remaining < 2 ^ 24
  distinct  : active.Nodup
  sounding  : ∀ k ∈ active, (s.voice k).active = true
  head      : ∃ t q, (s.port p).queue = t :: q ∧ isRenderTxn t = true

/-- The sequencer is idle or a block runs soundly (10_state.md R50). -/
def State.SeqOk (s : State) : Prop :=
  ∀ p remaining active, s.seq = .rendering p remaining active → s.Rendering p remaining active

/-- The transactions a port is owed are pending, and none is a `RENDER` (60_exceptions.md R412; log 11). -/
structure PortState.Ok (x : PortState) : Prop where
  pending  : x.owed ≤ x.queue.length
  noRender : ∀ t ∈ x.queue.take x.owed, isRenderTxn t = false

/-- The invariant of the block: it holds at reset and every step keeps it. -/
structure State.Inv (s : State) : Prop where
  fs       : s.cfg.fs ≠ 0#32
  seed     : s.seed ≠ 0#32
  seed0    : s.hw.noiseSeed0 ≠ 0#32
  lfo      : s.lfoSt.Ok
  voices   : ∀ k, (s.voice k).Ok
  seq      : s.SeqOk
  ctrl     : s.ctrl.Ok
  audio    : s.audio.Ok
  oneOwed  : s.ctrl.owed = 0 ∨ s.audio.owed = 0

/-- The voices of an active list that sound in a sample step, in the order they do: the list's order, but where `off` holds of
a voice the list's last entry takes its place (45_voice_mixer.md R313, R324). Every round takes one entry away, so the list's
length is fuel enough. -/
def soundingOrder (off : VoiceIx → Bool) : Nat → List VoiceIx → List VoiceIx
  | 0, _ => []
  | _ + 1, [] => []
  | fuel + 1, k :: rest =>
    if off k then
      match rest.getLast? with
      | none => []
      | some x => soundingOrder off fuel (x :: rest.dropLast)
    else k :: soundingOrder off fuel rest

/-- An envelope configuration in its legal ranges: rates finite and at least 0, sustain in `[0, 1]`
(10_state.md R27). -/
structure EnvCfg.Legal (c : EnvCfg) : Prop where
  attack  : c.attackRate.isFinite = true ∧ zeroF.le c.attackRate = true
  decay   : c.decayRate.isFinite = true ∧ zeroF.le c.decayRate = true
  release : c.releaseRate.isFinite = true ∧ zeroF.le c.releaseRate = true
  sustain : unitRange c.sustain = true

/-- The range of an envelope's amplitude with its configuration held: in `[0, 1]`, and not below the sustain level while
it decays (10_state.md R31; 43_envelope.md R240). -/
structure EnvState.InRange (c : EnvCfg) (e : EnvState) : Prop where
  amplitude : unitRange e.amplitude = true
  decaying  : e.stage = .decay → c.sustain.le e.amplitude = true

end Sys2Proof.Machine
end

