-- ==== Sys2Proof/Certificates/Slice0/Obligations.lean ====
section
/-! DEFINITION. The claims about the block, for the provers. Each docstring names the rules of spec/ it formalises, and says
where a clause rests on the model's own choice. -/

open Sys2Proof Sys2Proof.Machine

/-! Encoding. -/

/-- Decoding the transaction an operation is encoded as gives the operation back, for every well-formed operation, and so
does the trip through bytes (30_encoding.md R100 to R104, R111, R112). The byte layout is the model's choice (log 7). -/
def Obligations.DecodeEncodeRoundTrip : Prop :=
  ∀ i : Instr, i.wellFormed = true →
    decodeTxn i.port (encode i) = i ∧ decodeBytes (encodeBytes (encode i)) = .ok (encode i)

/-- Every bus transaction is one well-formed operation, and no bit of it is dropped (30_encoding.md R100, R111). -/
def Obligations.EveryTransactionIsOneOperation : Prop :=
  ∀ (p : Port) (t : BusTxn),
    (decodeTxn p t).wellFormed = true ∧ (decodeTxn p t).port = p ∧ encode (decodeTxn p t) = t

/-- The command decoder of 30_encoding.md R111, each outcome on its own: the three patterns do not overlap and every other
word is illegal. -/
def Obligations.CommandDecoder : Prop :=
  (∀ w : Word, decodeCmd w = .ok .nop ↔ w = 0x00000000#32) ∧
  (∀ (w : Word) (v : BitVec 5) (d : Bool), decodeCmd w = .ok (.gate v d) ↔
    w &&& 0xFFFFE0FE#32 = 0x01000000#32 ∧ v = w.extractLsb' 8 5 ∧ d = w.getLsbD 0) ∧
  (∀ (w : Word) (n : BitVec 24), decodeCmd w = .ok (.render n) ↔
    w &&& 0xFF000000#32 = 0x02000000#32 ∧ n = w.extractLsb' 0 24) ∧
  (∀ w : Word, (∃ e, decodeCmd w = .error e) ↔
    w ≠ 0x00000000#32 ∧ w &&& 0xFFFFE0FE#32 ≠ 0x01000000#32 ∧ w &&& 0xFF000000#32 ≠ 0x02000000#32)

/-- Words written out from the encodings decode to the operations they stand for (the examples of 46_host_commands.md R352
to R355, R357). That a numbered word of 16 bits, a bare `BUS` address, is read as a `BUS_READ`, and one of 48 bits as an
address with its data, is the model's own choice (log 7, DESIGN CHOICE), not the spec's. -/
def Obligations.SpecimenWords : Prop :=
  decodeTableWord 32 0x00000000 = some (.nop .ctrl) ∧
  decodeTableWord 32 0x01000901 = some (.gate .ctrl 9#5 true) ∧
  decodeTableWord 32 0x01001700 = some (.gate .ctrl 23#5 false) ∧
  decodeTableWord 32 0x01001E01 = some (.gate .ctrl 30#5 true) ∧
  decodeTableWord 32 0x02000004 = some (.render .ctrl 4#24) ∧
  decodeTableWord 32 0x01000903 = none ∧
  decodeTableWord 48 0x000000000020 = some (.busWrite .ctrl 0x020#12 0#32) ∧
  decodeTableWord 48 0x000000020020 = some (.busWrite .ctrl 0x020#12 2#32) ∧
  decodeTableWord 16 0x0008 = some (.busRead .ctrl 0x008#12)

/-- Which command words are illegal, and what one does: `ERR_CMD` is set and nothing else changes (30_encoding.md R105;
46_host_commands.md R357). -/
def Obligations.IllegalCommandWords : Prop :=
  ∀ (p : Port) (w : Word) (s : State),
    ((∃ e, decodeCmd w = .error e) ↔
      3 ≤ w.toNat / 2 ^ 24 ∨ (w.toNat / 2 ^ 24 = 0 ∧ w.extractLsb' 0 24 ≠ 0#24) ∨
        (w.toNat / 2 ^ 24 = 1 ∧ (w.extractLsb' 13 11 ≠ 0#11 ∨ w.extractLsb' 1 7 ≠ 0#7))) ∧
    ((∃ e, decodeCmd w = .error e) →
      exec (decodeTxn p ⟨0x000#12, some w⟩) s = .next { s with status := { s.status with errCmd := true } })

/-! Steps. -/

/-- A step runs the operation decoded from the transaction whose turn it is, and that transaction then completes, unless it
is a `RENDER` whose block now runs (30_encoding.md R111; 46_host_commands.md R350; 60_exceptions.md R412). Whose turn it is
comes from the environment's schedule (log 9). -/
def Obligations.StepRunsDecodedOperation : Prop :=
  (∀ (s : State) (i : Instr), i.wellFormed = true → nextTurn s = .serve i.port (encode i) →
    ∃ t, exec i { s with schedule := s.schedule.tail } = .next t ∧
      step s = .next
        (match t.seq with
          | .idle => completeTxn i.port t
          | .rendering r _ _ => if r = i.port then t else completeTxn i.port t)) ∧
  (∀ (s : State) (p : Port) (x : BusTxn) (q : List BusTxn) (rest : List Event),
    s.schedule = .serve p :: rest → (s.port p).queue = x :: q → mayServe s p x = true → nextTurn s = .serve p x)

/-- The operation that `decodeTableWord` reads is the one the very next step runs from `withFetchWord` (30_encoding.md R111;
the byte layout and the placing are the model's choices, log 7, 14). -/
def Obligations.PlacedWordRunsNext : Prop :=
  ∀ (s : State) (nbits w : Nat) (i : Instr), decodeTableWord nbits w = some i →
    ∃ t, exec i
        { s with
          seq := .idle
          ctrl := { s.ctrl with queue := encode i :: s.ctrl.queue, owed := 0 }
          audio := { s.audio with owed := 0 } } = .next t ∧
      step (s.withFetchWord nbits w) = .next
        (match t.seq with
          | .idle => completeTxn .ctrl t
          | .rendering r _ _ => if r = .ctrl then t else completeTxn .ctrl t)

/-- Every operation completes and every step answers a next state: the block takes no trap (60_exceptions.md R400, R401). -/
def Obligations.EveryOperationCompletes : Prop :=
  (∀ (i : Instr) (s : State), ∃ t, exec i s = .next t) ∧ ∀ s : State, ∃ t, step s = .next t

/-! Commands. -/

/-- `NOP` is the word 0 and changes nothing; any other word with `OP` 0 is illegal (46_host_commands.md R351). -/
def Obligations.NopChangesNothing : Prop :=
  ∀ (p : Port) (s : State),
    decodeTxn p ⟨0x000#12, some 0x00000000#32⟩ = .nop p ∧ exec (.nop p) s = .next s ∧
    ∀ w : Word, w.toNat / 2 ^ 24 = 0 → w ≠ 0x00000000#32 →
      exec (decodeTxn p ⟨0x000#12, some w⟩) s = .next { s with status := { s.status with errCmd := true } }

/-- A rising gate edge (43_envelope.md R237) and the voice start it makes where the volume envelope is `OFF`
(45_voice_mixer.md R311): both envelopes attack from the amplitudes they have, and nothing else changes. -/
def Obligations.RisingGateEdge : Prop :=
  ∀ (p : Port) (v : BitVec 5) (s : State) (hv : v.toNat < 24),
    let k : VoiceIx := ⟨v.toNat, hv⟩
    (s.voice k).gate = false →
    ∃ t, exec (.gate p v true) s = .next t ∧
      t = { s with voices := t.voices, mostRecentKey := t.mostRecentKey } ∧
      (∀ j, j ≠ k → t.voice j = s.voice j) ∧
      (t.voice k).gate = true ∧
      (t.voice k).fenv = ⟨.attack, (s.voice k).fenv.amplitude⟩ ∧
      (t.voice k).venv = ⟨.attack, (s.voice k).venv.amplitude⟩ ∧
      readReg t (.voiceStatus k) = 0x00000111#32 ∧
      if (s.voice k).venv.stage = .off then
        (t.voice k).osc0 = ⟨zeroF, 0, 0⟩ ∧ (t.voice k).osc1 = ⟨zeroF, 0, 0⟩ ∧
        (t.voice k).flt =
          ⟨zeroF, zeroF, zeroF, zeroF, zeroF, zeroF, zeroF, zeroF, zeroF, zeroF, zeroF, zeroF, zeroF, zeroF⟩ ∧
        t.mostRecentKey = k
      else
        (t.voice k).osc0 = (s.voice k).osc0 ∧ (t.voice k).osc1 = (s.voice k).osc1 ∧
        (t.voice k).flt = (s.voice k).flt ∧ t.mostRecentKey = s.mostRecentKey

/-- A falling gate edge (43_envelope.md R238): both envelopes release from the amplitudes they have, nothing else changes,
and in a sound state neither envelope was `OFF`. -/
def Obligations.FallingGateEdge : Prop :=
  ∀ (p : Port) (v : BitVec 5) (s : State) (hv : v.toNat < 24),
    let k : VoiceIx := ⟨v.toNat, hv⟩
    (s.voice k).gate = true →
    (∃ t, exec (.gate p v false) s = .next t ∧
      t = { s with voices := t.voices } ∧
      (∀ j, j ≠ k → t.voice j = s.voice j) ∧
      t.voice k =
        { s.voice k with
          gate := false
          fenv := ⟨.release, (s.voice k).fenv.amplitude⟩
          venv := ⟨.release, (s.voice k).venv.amplitude⟩ } ∧
      readReg t (.voiceStatus k) = 0x00000044#32) ∧
    (s.Inv → (s.voice k).fenv.stage ≠ .off ∧ (s.voice k).venv.stage ≠ .off)

/-- A `GATE` with no edge changes nothing, and one that names no voice raises `ERR_VALUE` (46_host_commands.md R352). -/
def Obligations.GateWithoutEdge : Prop :=
  ∀ (p : Port) (v : BitVec 5) (d : Bool) (s : State),
    (∀ hv : v.toNat < 24, (s.voice ⟨v.toNat, hv⟩).gate = d → exec (.gate p v d) s = .next s) ∧
    (24 ≤ v.toNat → exec (.gate p v d) s = .next { s with status := { s.status with errValue := true } })

/-- A `RENDER` on an idle block with active voices starts a block over exactly those voices, in ascending order, or with
count 0 changes nothing (45_voice_mixer.md R312, R320; 46_host_commands.md R353). That the start is a transition of its own,
with no sample step run in it, is the model's choice (log 10, DEDUCED): 60_exceptions.md R412 lists no such transition. What
the block owes the other port is the model's bookkeeping (log 11, DEDUCED). -/
def Obligations.RenderStartsBlock : Prop :=
  ∀ (p : Port) (n : BitVec 24) (s : State), s.seq = .idle → (∃ k, (s.voice k).venv.stage ≠ .off) →
    ∃ t, exec (.render p n) s = .next t ∧
      t = { s with seq := t.seq, ctrl := t.ctrl, audio := t.audio } ∧
      t.port p = s.port p ∧
      t.port p.other = { s.port p.other with owed := (t.port p.other).owed } ∧
      (n = 0#24 → t.seq = .idle) ∧
      (n ≠ 0#24 → t.busy = true ∧ ∃ active, t.seq = .rendering p n.toNat active ∧ active.Pairwise (· < ·) ∧
        ∀ k, k ∈ active ↔ (s.voice k).venv.stage ≠ .off)

/-- A `RENDER` on an idle block with no active voice is the empty block: `count` frames of zeros, one LFO update by
`count / fs`, the derived registers recomputed from the new LFO value, and nothing else (45_voice_mixer.md R321;
42_oscillator_lfo.md R203 to R205). That the LFO's generator reads `USE_ANTIALIAS` here, as 41_waveforms.md R160 has every
generator do and the list of registers in 70_reset_and_hazards.md R433 does not, is the model's choice (log 18, DESIGN
CHOICE). What the block owes the other port is the model's bookkeeping (log 11, DEDUCED). -/
def Obligations.RenderOfSilence : Prop :=
  ∀ (p : Port) (n : BitVec 24) (s : State), s.seq = .idle → (∀ k, (s.voice k).venv.stage = .off) →
    let dt := (F32.ofInt n.toNat).div (F32.ofWord s.cfg.fs)
    let g := oscUpdate s.cfg.useAntialias
      ⟨s.cfg.lfo.waveType, s.cfg.lfo.width, fExp2 s.cfg.lfo.freqBase, s.cfg.lfo.amplitude⟩ s.lfoSt s.seed Const.one dt
    let der := fun c : NoteOscCfg =>
      (⟨c.widthBase.add (c.widthLfo.mul g.value),
        (fExp2 (c.freqBase.add (c.freqLfo.mul g.value))).mul (waveAdjust c.waveType),
        c.ampBase.add (c.ampLfo.mul g.value)⟩ : DerOsc)
    ∃ t, exec (.render p n) s = .next t ∧
      t = { s with
        pcm := s.pcm ++ List.replicate n.toNat ⟨0#16, 0#16⟩
        lfoSt := g.st, lfoValue := g.value, seed := g.seed
        der0 := der s.cfg.osc0, der1 := der s.cfg.osc1
        ctrl := t.ctrl, audio := t.audio } ∧
      t.port p = s.port p ∧
      t.port p.other = { s.port p.other with owed := (t.port p.other).owed }

/-- A `RENDER` issued while a block runs waits and changes nothing (46_host_commands.md R353). That the waiting shows as an
operation without effect is the model's choice (log 16). -/
def Obligations.RenderWaitsForRunningBlock : Prop :=
  ∀ (p r : Port) (n : BitVec 24) (m : Nat) (active : List VoiceIx) (s : State),
    s.seq = .rendering r m active → exec (.render p n) s = .next s

/-! Bus reads and writes. -/

/-- The register map (20_memory.md R78): which offsets are mapped, that each register has one offset and each mapped offset
one register, and which registers are read-only. -/
def Obligations.RegisterMap : Prop :=
  (∀ off : BitVec 12, (regAt off).isSome = true ↔
    off.toNat % 4 = 0 ∧
      (off.toNat ≤ 0x018 ∨ (0x020 ≤ off.toNat ∧ off.toNat ≤ 0x038) ∨ (0x040 ≤ off.toNat ∧ off.toNat ≤ 0x058) ∨
        (0x060 ≤ off.toNat ∧ off.toNat ≤ 0x0A0) ∨ (0x100 ≤ off.toNat ∧ off.toNat ≤ 0x104) ∨
        (0x110 ≤ off.toNat ∧ off.toNat ≤ 0x118) ∨ (0x120 ≤ off.toNat ∧ off.toNat ≤ 0x128) ∨
        (0x200 ≤ off.toNat ∧ off.toNat ≤ 0x25C) ∨ (0x300 ≤ off.toNat ∧ off.toNat ≤ 0x35C) ∨
        (0x380 ≤ off.toNat ∧ off.toNat ≤ 0x3DC))) ∧
  (∀ (off : BitVec 12) (r : Reg), regAt off = some r ↔ off.toNat = r.offset) ∧
  (∀ r : Reg, r.readOnly = true ↔ r = .hwcfg ∨ 0x100 ≤ r.offset)

/-- A read of a mapped register returns its value to the port it came from and changes nothing else; a read of `CMD`
returns 0 (20_memory.md R71, R75; 10_state.md R39). The list of returned words is the model's own (log 12). -/
def Obligations.BusReadOfMapped : Prop :=
  ∀ (p : Port) (r : Reg) (s : State),
    readReg s .cmd = 0#32 ∧
    ∃ t, exec (.busRead p (BitVec.ofNat 12 r.offset)) s = .next t ∧
      t = { s with ctrl := t.ctrl, audio := t.audio } ∧
      t.port p = { s.port p with responses := (s.port p).responses ++ [readReg s r] } ∧
      t.port p.other = s.port p.other

/-- The words of the read-only and status registers, field by field, unused bits 0: the voices' displays, the LFO value, the
most recent key, `STATUS` (10_state.md R33, R34, R36, R37; 30_encoding.md R108) and the derived registers of both slots, each
at its offset (10_state.md R23). -/
def Obligations.DisplayAndStatusWords : Prop :=
  ∀ s : State,
    (∀ k : VoiceIx,
      let w := readReg s (.voiceStatus k)
      w.extractLsb' 0 3 = BitVec.ofNat 3 (s.voice k).venv.stage.code ∧ w.extractLsb' 3 1 = 0#1 ∧
      w.extractLsb' 4 3 = BitVec.ofNat 3 (s.voice k).fenv.stage.code ∧ w.extractLsb' 7 1 = 0#1 ∧
      w.getLsbD 8 = (s.voice k).gate ∧ w.extractLsb' 9 23 = 0#23) ∧
    (∀ k : VoiceIx, F32.ofBits (readReg s (.venvAmp k)) = (s.voice k).venv.amplitude ∧
      F32.ofBits (readReg s (.fenvAmp k)) = (s.voice k).fenv.amplitude) ∧
    F32.ofBits (readReg s .lfoValue) = s.lfoValue ∧
    (let w := readReg s .mostRecentKey
     (w.extractLsb' 0 5).toNat = s.mostRecentKey.val ∧ w.extractLsb' 5 27 = 0#27) ∧
    (let w := readReg s .status
     w.getLsbD 0 = s.status.errCmd ∧ w.getLsbD 1 = s.status.errAddr ∧ w.getLsbD 2 = s.status.errValue ∧
     w.extractLsb' 3 5 = 0#5 ∧ w.extractLsb' 9 23 = 0#23 ∧
     (w.getLsbD 8 = true ↔ ∃ p n active, s.seq = .rendering p n active)) ∧
    ∀ e ∈ [(0x110#12, s.der0.width), (0x114#12, s.der0.frequency), (0x118#12, s.der0.amplitude),
        (0x120#12, s.der1.width), (0x124#12, s.der1.frequency), (0x128#12, s.der1.amplitude)],
      ∃ r, regAt e.1 = some r ∧ F32.ofBits (readReg s r) = e.2

/-- `HWCFG` is a read-only constant with the fields of 10_state.md R38, whatever the state. -/
def Obligations.HwcfgIsConstant : Prop :=
  ∀ (p : Port) (v : Word) (s : State),
    let w := readReg s .hwcfg
    w.extractLsb' 0 5 = 0x18#5 ∧ w.extractLsb' 5 3 = 0#3 ∧
    (w.getLsbD 8 = true ↔ s.hw.filterCore = .nonlinear) ∧
    w.extractLsb' 9 7 = 0#7 ∧ w.extractLsb' 16 4 = 2#4 ∧ w.extractLsb' 20 12 = 0#12 ∧
    regAt 0x008#12 = some .hwcfg ∧
    exec (.busWrite p 0x008#12 v) s = .next { s with status := { s.status with errAddr := true } } ∧
    ∀ t, step s = .next t → readReg t .hwcfg = w

/-- A write of a value the register can hold stores it and changes nothing else: read back, the register gives the value
(its bit 0 for `USE_ANTIALIAS`) and every other register what it gave before (20_memory.md R72; 30_encoding.md R110). What a
register reads as says what the engine uses: the number it encodes (10_state.md R21, R22, R24, R25, R26), and for the enumerations the wave
type and the filter mode of the code (30_encoding.md R106, R107). -/
def Obligations.BusWriteStores : Prop :=
  ∀ (p : Port) (r : Reg) (v : Word) (s : State),
    r.readOnly = false → r ≠ .cmd → r ≠ .status →
    (r = .osc .s0 .waveType ∨ r = .osc .s1 .waveType ∨ r = .lfo .waveType → v.toNat ≤ 10) →
    (r = .flt .mode → v.toNat ≤ 20) → (r = .fs → v ≠ 0#32) →
    ∃ t, exec (.busWrite p (BitVec.ofNat 12 r.offset) v) s = .next t ∧
      t = { s with cfg := t.cfg } ∧
      readReg t r = (if r = .useAntialias then v &&& 1#32 else v) ∧
      (∀ r', r' ≠ r → readReg t r' = readReg s r') ∧
      t.cfg.fs = readReg t .fs ∧ t.cfg.useAntialias = (readReg t .useAntialias).getLsbD 0 ∧
      (∀ e ∈ [(Reg.outputScale, t.cfg.outputScale), (.keyboardTimescale, t.cfg.keyboardTimescale),
          (.osc .s0 .widthBase, t.cfg.osc0.widthBase), (.osc .s0 .freqBase, t.cfg.osc0.freqBase),
          (.osc .s0 .ampBase, t.cfg.osc0.ampBase), (.osc .s0 .widthLfo, t.cfg.osc0.widthLfo),
          (.osc .s0 .freqLfo, t.cfg.osc0.freqLfo), (.osc .s0 .ampLfo, t.cfg.osc0.ampLfo),
          (.osc .s1 .widthBase, t.cfg.osc1.widthBase), (.osc .s1 .freqBase, t.cfg.osc1.freqBase),
          (.osc .s1 .ampBase, t.cfg.osc1.ampBase), (.osc .s1 .widthLfo, t.cfg.osc1.widthLfo),
          (.osc .s1 .freqLfo, t.cfg.osc1.freqLfo), (.osc .s1 .ampLfo, t.cfg.osc1.ampLfo),
          (.lfo .width, t.cfg.lfo.width), (.lfo .freqBase, t.cfg.lfo.freqBase), (.lfo .amplitude, t.cfg.lfo.amplitude)] ++
          [(.env .filter .attackRate, t.cfg.fenv.attackRate), (.env .filter .decayRate, t.cfg.fenv.decayRate),
          (.env .filter .sustain, t.cfg.fenv.sustain), (.env .filter .releaseRate, t.cfg.fenv.releaseRate),
          (.env .volume .attackRate, t.cfg.venv.attackRate), (.env .volume .decayRate, t.cfg.venv.decayRate),
          (.env .volume .sustain, t.cfg.venv.sustain), (.env .volume .releaseRate, t.cfg.venv.releaseRate),
          (.flt .cutoffBase, t.cfg.flt.cutoffBase), (.flt .cutoffLfo, t.cfg.flt.cutoffLfo),
          (.flt .cutoffEnv, t.cfg.flt.cutoffEnv), (.flt .resonance, t.cfg.flt.resonance)],
        e.2 = F32.ofBits (readReg t e.1)) ∧
      (∀ e ∈ [(0#32, WaveType.sine), (1#32, .pulse), (2#32, .sawtooth), (3#32, .triangle), (4#32, .noise), (5#32, .poly4),
          (6#32, .poly5), (7#32, .poly17), (8#32, .pulsePoly5), (9#32, .poly4Poly5), (10#32, .poly17Poly5)],
        (t.cfg.osc0.waveType = e.2 ↔ readReg t (.osc .s0 .waveType) = e.1) ∧
        (t.cfg.osc1.waveType = e.2 ↔ readReg t (.osc .s1 .waveType) = e.1) ∧
        (t.cfg.lfo.waveType = e.2 ↔ readReg t (.lfo .waveType) = e.1)) ∧
      ∀ e ∈ [(0#32, FilterMode.none), (1#32, .peak), (2#32, .lowPass1), (3#32, .lowPass2), (4#32, .lowPass3),
          (5#32, .lowPass4), (6#32, .highPass1), (7#32, .highPass2), (8#32, .highPass3), (9#32, .highPass4),
          (10#32, .bandPass1), (11#32, .bandPass1LowPass1), (12#32, .bandPass1LowPass2), (13#32, .bandPass1HighPass1),
          (14#32, .bandPass1HighPass2), (15#32, .bandPass2), (16#32, .notch), (17#32, .notchLowPass1),
          (18#32, .notchLowPass2), (19#32, .phaseShift), (20#32, .phaseShiftLowPass1)],
        (t.cfg.flt.mode = e.2 ↔ readReg t (.flt .mode) = e.1)

/-- A write to `STATUS` clears each error bit whose bit of the word is 1, ignores bits 31:3, `BUSY` included, and changes
nothing else (46_host_commands.md R356). -/
def Obligations.StatusWriteClears : Prop :=
  ∀ (p : Port) (m : Word) (s : State),
    (∃ t, exec (.busWrite p 0x004#12 m) s = .next t ∧ t = { s with status := t.status } ∧
      t.status.errCmd = (s.status.errCmd && !m.getLsbD 0) ∧
      t.status.errAddr = (s.status.errAddr && !m.getLsbD 1) ∧
      t.status.errValue = (s.status.errValue && !m.getLsbD 2) ∧
      t.busy = s.busy ∧
      (m = 7#32 → t.status = ⟨false, false, false⟩)) ∧
    (readReg s .status = 0x00000005#32 →
      ∃ t, exec (.busWrite p 0x004#12 0x00000004#32) s = .next t ∧ readReg t .status = 0x00000001#32)

/-- A write to `CMD` executes the command the decoder reads from the word (20_memory.md R72; 46_host_commands.md R350). -/
def Obligations.CommandRegisterExecutes : Prop :=
  ∀ (p : Port) (w : Word) (s : State), exec (.busWrite p 0x000#12 w) s = exec (decodeTxn p ⟨0x000#12, some w⟩) s

/-- The `ERR_ADDR` causes (60_exceptions.md R403; 20_memory.md R71, R72): a misaligned or unmapped offset on a read, which
returns 0, or a write; a write to a read-only register. Nothing else changes, and the bit is bit 1 of `STATUS`
(10_state.md R37). That a returned word goes to the end of a list kept per port is the model's choice (log 12, DESIGN
CHOICE). -/
def Obligations.AddressErrors : Prop :=
  ∀ (p : Port) (off : BitVec 12) (v : Word) (s : State),
    (off.toNat % 4 ≠ 0 ∨ regAt off = none →
      exec (.busWrite p off v) s = .next { s with status := { s.status with errAddr := true } } ∧
      ∃ t, exec (.busRead p off) s = .next t ∧
        t = { s with status := { s.status with errAddr := true }, ctrl := t.ctrl, audio := t.audio } ∧
        t.port p = { s.port p with responses := (s.port p).responses ++ [0#32] } ∧
        t.port p.other = s.port p.other) ∧
    (off.toNat = 0x008 ∨ off.toNat = 0x100 ∨ off.toNat = 0x104 ∨
        (off.toNat % 4 = 0 ∧
          ((0x110 ≤ off.toNat ∧ off.toNat ≤ 0x118) ∨ (0x120 ≤ off.toNat ∧ off.toNat ≤ 0x128) ∨
            (0x200 ≤ off.toNat ∧ off.toNat ≤ 0x25C) ∨ (0x300 ≤ off.toNat ∧ off.toNat ≤ 0x35C) ∨
            (0x380 ≤ off.toNat ∧ off.toNat ≤ 0x3DC))) →
      exec (.busWrite p off v) s = .next { s with status := { s.status with errAddr := true } }) ∧
    (readReg { s with status := { s.status with errAddr := true } } .status).getLsbD 1 = true

/-- The `ERR_VALUE` causes (60_exceptions.md R404): the register keeps its old value and the command has no effect;
the bit is bit 2 of `STATUS`. -/
def Obligations.ValueErrors : Prop :=
  ∀ (p : Port) (v : Word) (g : BitVec 5) (d : Bool) (s : State),
    (10 < v.toNat → ∀ off ∈ [0x020#12, 0x040#12, 0x060#12],
      exec (.busWrite p off v) s = .next { s with status := { s.status with errValue := true } }) ∧
    (20 < v.toNat →
      exec (.busWrite p 0x090#12 v) s = .next { s with status := { s.status with errValue := true } }) ∧
    exec (.busWrite p 0x00C#12 0#32) s = .next { s with status := { s.status with errValue := true } } ∧
    (24 ≤ g.toNat → exec (.gate p g d) s = .next { s with status := { s.status with errValue := true } }) ∧
    (readReg { s with status := { s.status with errValue := true } } .status).getLsbD 2 = true

/-- Errors are precise (60_exceptions.md R400, R401, R406): an operation that changes `STATUS`, a write to `STATUS` itself
apart, sets one error bit and changes nothing else, but that a read returns 0. Of an operation in error whose bit is set
already it says nothing. The list of returned words is the model's choice (log 12, DESIGN CHOICE). -/
def Obligations.ErrorsArePrecise : Prop :=
  ∀ (i : Instr) (s t : State), exec i s = .next t → (∀ p v, i ≠ .busWrite p 0x004#12 v) →
    t.status = s.status ∨
    ∃ e : ErrorBit,
      t = { s with status := s.status.set e, ctrl := t.ctrl, audio := t.audio } ∧
      ∀ q, t.port q = s.port q ∨
        ((∃ off, i = .busRead q off) ∧ t.port q = { s.port q with responses := (s.port q).responses ++ [0#32] })

/-- The error bits are sticky (10_state.md R37): only a write to `STATUS` with the bit set, or reset, clears one. -/
def Obligations.ErrorBitsAreSticky : Prop :=
  ∀ s t : State, step s = .next t →
    ∀ (b : Nat) (get : Status → Bool),
      (b = 0 ∧ get = Status.errCmd) ∨ (b = 1 ∧ get = Status.errAddr) ∨ (b = 2 ∧ get = Status.errValue) →
      get s.status = true → get t.status = false →
      nextTurn s = .reset ∨ ∃ p m, nextTurn s = .serve p ⟨0x004#12, some m⟩ ∧ m.getLsbD b = true

/-! Reset and the invariant. -/

/-- The values 10_state.md R45 gives for reset. The registers it leaves unspecified are not mentioned (log 1, 2). -/
def Obligations.ResetValues : Prop :=
  let s := State.reset
  s.cfg.fs = 44100#32 ∧
  (∀ k, (s.voice k).osc0 = ⟨zeroF, 0, 0⟩ ∧ (s.voice k).osc1 = ⟨zeroF, 0, 0⟩ ∧ (s.voice k).fenv = ⟨.off, zeroF⟩ ∧
    (s.voice k).venv = ⟨.off, zeroF⟩ ∧ (s.voice k).gate = false ∧
    (s.voice k).flt =
      ⟨zeroF, zeroF, zeroF, zeroF, zeroF, zeroF, zeroF, zeroF, zeroF, zeroF, zeroF, zeroF, zeroF, zeroF⟩) ∧
  s.lfoSt = ⟨zeroF, 0, 0⟩ ∧ s.lfoValue = zeroF ∧ s.seed = noiseSeed0 ∧ s.mostRecentKey = 0 ∧
  readReg s .status = 0x00000000#32 ∧ s.seq = .idle ∧ s.ctrl.queue = [] ∧ s.audio.queue = [] ∧
  s.hw.filterCore = Config.filterCore ∧ zeroF.toBits = 0x00000000#32

/-- The reset input sets every piece of state as 10_state.md R45 says, whatever it was, abandons a running block and keeps
the emitted frames (70_reset_and_hazards.md R430). -/
def Obligations.ResetInput : Prop :=
  ∀ (s : State) (rest : List Event), s.schedule = .reset :: rest →
    ∃ t, step s = .next t ∧
      t.cfg.fs = 44100#32 ∧
      (∀ k, (t.voice k).osc0 = ⟨zeroF, 0, 0⟩ ∧ (t.voice k).osc1 = ⟨zeroF, 0, 0⟩ ∧ (t.voice k).fenv = ⟨.off, zeroF⟩ ∧
        (t.voice k).venv = ⟨.off, zeroF⟩ ∧ (t.voice k).gate = false ∧
        (t.voice k).flt =
          ⟨zeroF, zeroF, zeroF, zeroF, zeroF, zeroF, zeroF, zeroF, zeroF, zeroF, zeroF, zeroF, zeroF, zeroF⟩) ∧
      t.lfoSt = ⟨zeroF, 0, 0⟩ ∧ t.lfoValue = zeroF ∧ t.seed = s.hw.noiseSeed0 ∧ t.mostRecentKey = 0 ∧
      readReg t .status = 0x00000000#32 ∧ t.seq = .idle ∧ t.ctrl.queue = [] ∧ t.audio.queue = [] ∧
      t.hw = s.hw ∧ t.pcm = s.pcm

/-- Every step keeps the invariant of Safety.lean: phases in `[0, 1)` (10_state.md R29), advances in 32 bits (R202), an `OFF`
envelope silent (R31), stages and gates in agreement (43_envelope.md R238), the noise seed and `FS` nonzero (10_state.md R21,
R35), a running block's list of distinct active voices (45_voice_mixer.md R312, R313) and its `RENDER` at the head of its
port (46_host_commands.md R350). The clauses about `owed` are about the model's bookkeeping (log 11). -/
def Obligations.StepKeepsInvariant : Prop := ∀ s t : State, s.Inv → step s = .next t → t.Inv

/-- Reset meets the invariant of Safety.lean (10_state.md R45). -/
def Obligations.ResetMeetsInvariant : Prop := State.reset.Inv

/-! Sample steps and blocks. -/

/-- A sample step emits one frame with equal channels and leaves alone all that 45_voice_mixer.md R324 does not name: the
configuration, the status, the gates, the voices not listed, the ports but for the `RENDER` that completes with the last
frame (10_state.md R50; 45_voice_mixer.md R331). -/
def Obligations.SampleStepFrame : Prop :=
  ∀ (s : State) (p : Port) (n : Nat) (active : List VoiceIx), s.seq = .rendering p n active → nextTurn s = .sample →
    active.Nodup →
    ∃ t q, step s = .next t ∧ t.pcm = s.pcm ++ [⟨q, q⟩] ∧
      t.hw = s.hw ∧ t.cfg = s.cfg ∧ t.status = s.status ∧ t.mostRecentKey = s.mostRecentKey ∧
      (∀ k, k ∉ active → t.voice k = s.voice k) ∧ (∀ k, (t.voice k).gate = (s.voice k).gate) ∧
      t.port p.other = s.port p.other ∧ (t.port p).responses = (s.port p).responses ∧
      if n ≤ 1 then t.seq = .idle ∧ (t.port p).queue = (s.port p).queue.tail
      else (∃ l, t.seq = .rendering p (n - 1) l) ∧ t.port p = s.port p

/-- A sample step over any list of voices (45_voice_mixer.md R313, R324, R325, R327, R330; 42_oscillator_lfo.md R208). It
updates both envelopes of every listed voice exactly once by `1 / fs`, and keeps in the list exactly the voices it leaves not
`OFF`, in the order they sounded in: the list's, but that the last entry takes a reaped voice's place. In that order each
sounding voice steps slot 0, slot 1 and its filter from its own state and the noise seed its predecessor left, and the frame
is the saturated sum, from +0.0, of what they give. A reaped voice moves nothing but its envelopes. -/
def Obligations.SampleStepAdvancesEachVoiceOnce : Prop :=
  ∀ (s : State) (p : Port) (n : Nat) (active : List VoiceIx), s.seq = .rendering p n active → nextTurn s = .sample →
    active.Nodup →
    let dt := Const.one.div (F32.ofWord s.cfg.fs)
    let s1 := recompute (lfoUpdate dt s)
    let fe := fun k : VoiceIx => envUpdate s.cfg.fenv dt (s.voice k).fenv
    let ve := fun k : VoiceIx => envUpdate s.cfg.venv dt (s.voice k).venv
    let kf := fun k : VoiceIx => (keyFreq k).mul s.cfg.keyboardTimescale
    let g0 := fun (k : VoiceIx) (seed : Word) => oscUpdate s.cfg.useAntialias
      ⟨s.cfg.osc0.waveType, s1.der0.width, s1.der0.frequency, s1.der0.amplitude⟩ (s.voice k).osc0 seed (kf k) dt
    let g1 := fun (k : VoiceIx) (seed : Word) => oscUpdate s.cfg.useAntialias
      ⟨s.cfg.osc1.waveType, s1.der1.width, s1.der1.frequency, s1.der1.amplitude⟩ (s.voice k).osc1 (g0 k seed).seed (kf k) dt
    let cutoff := fun k : VoiceIx => (kf k).mul
      (fExp2 ((s.cfg.flt.cutoffBase.add (s.cfg.flt.cutoffLfo.mul s1.lfoValue)).add
        (s.cfg.flt.cutoffEnv.mul (fe k).amplitude)))
    let f := fun (k : VoiceIx) (seed : Word) => filterUpdate s.hw.filterCore s.cfg.flt (s.voice k).flt (cutoff k)
      ((g0 k seed).value.add (g1 k seed).value) dt
    let order := soundingOrder (fun k => (ve k).stage == .off) active.length active
    let mix := fun l : List VoiceIx => l.foldl
      (fun (x : Word × F32) k => ((g1 k x.1).seed, x.2.add ((f k x.1).2.mul (ve k).amplitude))) (s1.seed, zeroF)
    let q := pcmQuantize s.cfg.outputScale (mix order).2
    ∃ t, step s = .next t ∧
      t.pcm = s.pcm ++ [⟨q, q⟩] ∧ t.seed = (mix order).1 ∧
      (∀ a k b, order = a ++ k :: b →
        let seed := (mix a).1
        t.voice k = ⟨(g0 k seed).st, (g1 k seed).st, fe k, ve k, (f k seed).1, (s.voice k).gate⟩) ∧
      (∀ k ∈ active, (t.voice k).fenv = fe k ∧ (t.voice k).venv = ve k ∧
        ((ve k).stage = .off → t.voice k = { s.voice k with fenv := fe k, venv := ve k })) ∧
      (if n ≤ 1 then t.seq = .idle else t.seq = .rendering p (n - 1) order) ∧
      order.Nodup ∧ ∀ k, k ∈ order ↔ k ∈ active ∧ (ve k).stage ≠ .off

/-- A sample step updates the LFO once by `1 / fs` from the state before it, and recomputes the derived registers from the
new LFO value (42_oscillator_lfo.md R203 to R206; 45_voice_mixer.md R323, R324). -/
def Obligations.SampleStepMovesTheLfo : Prop :=
  ∀ (s : State) (p : Port) (n : Nat) (active : List VoiceIx), s.seq = .rendering p n active → nextTurn s = .sample →
    let g := oscUpdate s.cfg.useAntialias
      ⟨s.cfg.lfo.waveType, s.cfg.lfo.width, fExp2 s.cfg.lfo.freqBase, s.cfg.lfo.amplitude⟩ s.lfoSt s.seed Const.one
      (Const.one.div (F32.ofWord s.cfg.fs))
    let der := fun c : NoteOscCfg =>
      (⟨c.widthBase.add (c.widthLfo.mul g.value),
        (fExp2 (c.freqBase.add (c.freqLfo.mul g.value))).mul (waveAdjust c.waveType),
        c.ampBase.add (c.ampLfo.mul g.value)⟩ : DerOsc)
    ∃ t, step s = .next t ∧ t.lfoSt = g.st ∧ t.lfoValue = g.value ∧ t.der0 = der s.cfg.osc0 ∧ t.der1 = der s.cfg.osc1

/-- The frame of a block with one voice: the LFO, the derived registers, slot 0 then slot 1, their sum through the filter at
the voice's cutoff, scaled by the volume envelope, saturated (42_oscillator_lfo.md R208; 45_voice_mixer.md R324 to R327,
R330). A voice whose volume envelope is `OFF` after its update contributes nothing and moves nothing else. -/
def Obligations.SampleOfOneVoice : Prop :=
  ∀ (s : State) (p : Port) (n : Nat) (k : VoiceIx), s.seq = .rendering p n [k] → nextTurn s = .sample →
    let dt := Const.one.div (F32.ofWord s.cfg.fs)
    let s1 := recompute (lfoUpdate dt s)
    let fe := envUpdate s.cfg.fenv dt (s.voice k).fenv
    let ve := envUpdate s.cfg.venv dt (s.voice k).venv
    let kf := (keyFreq k).mul s.cfg.keyboardTimescale
    let g0 := oscUpdate s.cfg.useAntialias
      ⟨s.cfg.osc0.waveType, s1.der0.width, s1.der0.frequency, s1.der0.amplitude⟩ (s.voice k).osc0 s1.seed kf dt
    let g1 := oscUpdate s.cfg.useAntialias
      ⟨s.cfg.osc1.waveType, s1.der1.width, s1.der1.frequency, s1.der1.amplitude⟩ (s.voice k).osc1 g0.seed kf dt
    let cutoff := kf.mul
      (fExp2 ((s.cfg.flt.cutoffBase.add (s.cfg.flt.cutoffLfo.mul s1.lfoValue)).add (s.cfg.flt.cutoffEnv.mul fe.amplitude)))
    let f := filterUpdate s.hw.filterCore s.cfg.flt (s.voice k).flt cutoff (g0.value.add g1.value) dt
    ∃ t, step s = .next t ∧
      if ve.stage = .off then
        t.voice k = { s.voice k with fenv := fe, venv := ve } ∧ t.seed = s1.seed ∧
        t.pcm = s.pcm ++ [⟨pcmQuantize s.cfg.outputScale zeroF, pcmQuantize s.cfg.outputScale zeroF⟩]
      else
        let q := pcmQuantize s.cfg.outputScale (zeroF.add (f.2.mul ve.amplitude))
        t.voice k = ⟨g0.st, g1.st, fe, ve, f.1, (s.voice k).gate⟩ ∧ t.seed = g1.seed ∧ t.pcm = s.pcm ++ [⟨q, q⟩]

/-- A `RENDER` of `n` frames that finds the block idle runs to its end: `4 n` bytes more in the PCM stream, the sequencer idle
and the transaction complete, in one transition for an empty block and in `n` sample steps after the start otherwise
(20_memory.md R76; 45_voice_mixer.md R320 to R322; 46_host_commands.md R353). That the start is a step of its own, which makes
the count `n + 1`, is the model's choice (log 10, DEDUCED), and so is that the sample steps follow one another where the
environment has made no choice (log 9, DESIGN CHOICE). -/
def Obligations.BlockProducesItsFrames : Prop :=
  ∀ (s : State) (p : Port) (n : BitVec 24) (q : List BusTxn),
    s.seq = .idle → s.schedule = [.serve p] → (s.port p).queue = encode (.render p n) :: q → (s.port p.other).owed = 0 →
    ∃ (t : State) (bytes : List Byte),
      Sys2Proof.core.run (if activeList s = [] then 1 else n.toNat + 1) s = .next t ∧
      t.pcmBytes = s.pcmBytes ++ bytes ∧ bytes.length = 4 * n.toNat ∧
      t.seq = .idle ∧ (t.port p).queue = q ∧ t.schedule = []

/-- The PCM stream only grows, by frames with equal channels, in every step (20_memory.md R76; 45_voice_mixer.md R331;
70_reset_and_hazards.md R430). -/
def Obligations.PcmStreamOnlyGrows : Prop :=
  ∀ s t : State, step s = .next t → ∃ f : List Frame, t.pcm = s.pcm ++ f ∧ ∀ x ∈ f, x.l = x.r

/-! Whole-machine rules. -/

/-- The block's parameters never change, and the configuration registers change only by reset or by a bus write that names a
writable register (20_memory.md R70, R75, R83; 70_reset_and_hazards.md R432). -/
def Obligations.ConfigurationChangesOnlyByWrites : Prop :=
  ∀ s t : State, step s = .next t →
    t.hw = s.hw ∧
    (t.cfg = s.cfg ∨ nextTurn s = .reset ∨
      ∃ p off v r, nextTurn s = .serve p ⟨off, some v⟩ ∧ regAt off = some r ∧ r.readOnly = false ∧ r.accepts v = true ∧
        t.cfg = s.cfg.store r v)

/-- A voice's gate changes only by reset or by a `GATE` that names the voice (43_envelope.md R237, R238;
46_host_commands.md R352). -/
def Obligations.GatesChangeOnlyByGate : Prop :=
  ∀ s t : State, step s = .next t → ∀ k : VoiceIx, (t.voice k).gate ≠ (s.voice k).gate →
    nextTurn s = .reset ∨
    ∃ p x, nextTurn s = .serve p x ∧ decodeTxn p x = .gate p (BitVec.ofNat 5 k.val) (t.voice k).gate

/-- Each port is a queue (10_state.md R51; 60_exceptions.md R412 item 1), and each kind of step has one effect on it: an issue
appends, on its own port; serving takes the head of its own port away, unless it is the `RENDER` whose block now runs, which
the block's last sample step takes away (46_host_commands.md R350; log 10, DEDUCED); reset empties both ports; nothing else
touches a queue. An issue in the environment's schedule is the step that happens (log 9); that it is queued also while the
port's own `RENDER` runs is the model's choice (log 19, DESIGN CHOICE). -/
def Obligations.PortsKeepIssueOrder : Prop :=
  (∀ s t : State, step s = .next t → ∀ p : Port,
    match nextTurn s with
    | .nothing => (t.port p).queue = (s.port p).queue
    | .issue r x => (t.port p).queue = if p = r then (s.port p).queue ++ [x] else (s.port p).queue
    | .serve r x =>
      (s.port r).queue.head? = some x ∧
      (p ≠ r ∨ (∃ n active, t.seq = .rendering r n active) → (t.port p).queue = (s.port p).queue) ∧
      (p = r → (∀ n active, t.seq ≠ .rendering r n active) → (t.port p).queue = (s.port p).queue.tail)
    | .sample =>
      ∃ r n active, s.seq = .rendering r n active ∧
        (t.port p).queue = if p = r ∧ n ≤ 1 then (s.port p).queue.tail else (s.port p).queue
    | .reset => (t.port p).queue = []) ∧
  ∀ (s : State) (p : Port) (x : BusTxn) (rest : List Event), s.schedule = .issue p x :: rest → nextTurn s = .issue p x

/-- What the environment may choose (60_exceptions.md R412): the transaction served is the head of its port; during a block
it is not on the block's own port and is no `RENDER`. The clauses about `owed` are not the rule's words but the model's
bookkeeping for its item 4 (log 11, DEDUCED): with the block idle no transaction is ahead of what is owed the other port, and
a `RENDER`, of an empty block or of no frame too, marks as owed what is pending there up to the first `RENDER`. That nothing issued during the block is owed is the model's
choice between R412 item 4 and 93_implementation_defined.md I16 (log 11, DESIGN CHOICE). -/
def Obligations.InterleavingConstraints : Prop :=
  (∀ (s : State) (p : Port) (x : BusTxn), nextTurn s = .serve p x →
    (s.port p).queue.head? = some x ∧
    (∀ r n active, s.seq = .rendering r n active → p ≠ r ∧ ∀ m, decodeTxn p x ≠ .render p m) ∧
    (s.seq = .idle → (s.port p.other).owed = 0)) ∧
  (∀ (s t : State) (p : Port) (n : BitVec 24), s.seq = .idle → exec (.render p n) s = .next t →
    (t.port p.other).owed = ((s.port p.other).queue.takeWhile fun x => !isRenderTxn x).length)

/-- No deadlock (60_exceptions.md R412, R413): in a sound state with no choice made, a running block takes its next sample
step, and an idle block with something pending serves it. What is chosen then is the model's (log 9). -/
def Obligations.PendingWorkProceeds : Prop :=
  ∀ s : State, s.Inv → s.schedule = [] →
    (∀ p n active, s.seq = .rendering p n active → nextTurn s = .sample) ∧
    (s.seq = .idle → (s.ctrl.queue ≠ [] ∨ s.audio.queue ≠ []) → ∃ p x, nextTurn s = .serve p x)

/-! Oscillators, generators, tables. -/

/-- The range rule of the oscillator update (42_oscillator_lfo.md R202): where the phase sum is no number or its floor is
2^31 or more in magnitude, phase and advance are 0 and the value is still the generator's; the advance always fits a 32-bit
signed integer. -/
def Obligations.OscillatorSumOutOfRange : Prop :=
  ∀ (aa : Bool) (cfg : OscCfg) (st : OscState) (seed : Word) (scale dt : F32),
    let d := (cfg.frequency.mul scale).mul dt
    let s := st.phase.add d
    let r := oscUpdate aa cfg st seed scale dt
    ((s.isFinite = false ∨ ∃ a, s.floor? = some a ∧ 2 ^ 31 ≤ a.natAbs) → r.st.phase = zeroF ∧ r.st.advance = 0) ∧
    r.value = cfg.amplitude.mul (waveGen aa cfg.waveType cfg.width st seed d).value ∧
    -(2 ^ 31) ≤ r.st.advance ∧ r.st.advance < 2 ^ 31

/-- Every oscillator update leaves `0 <= phase < 1`, whatever the operands; in range, the phase is the sum less its floor and
the advance that floor, or where the difference rounds to 1 the phase is 0 and the advance one more (10_state.md R29;
42_oscillator_lfo.md R200, R201). -/
def Obligations.PhaseStaysInUnitInterval : Prop :=
  ∀ (aa : Bool) (cfg : OscCfg) (st : OscState) (seed : Word) (scale dt : F32),
    let s := st.phase.add ((cfg.frequency.mul scale).mul dt)
    let r := oscUpdate aa cfg st seed scale dt
    zeroF.le r.st.phase = true ∧ r.st.phase.lt Const.one = true ∧
    (∀ a, s.floor? = some a → a.natAbs < 2 ^ 31 →
      let p := s.sub (F32.ofInt a)
      if Const.one.le p then r.st.phase = zeroF ∧ r.st.advance = a + 1 else r.st.phase = p ∧ r.st.advance = a) ∧
    (st.index < 4063201 → r.st.index < 4063201)

/-- The Nyquist rule (41_waveforms.md R161): above a step of 0.5 every generator returns +0.0 and writes nothing. -/
def Obligations.NyquistRule : Prop :=
  ∀ (aa : Bool) (wt : WaveType) (width : F32) (st : OscState) (seed : Word) (step : F32),
    (Const.half.lt step = true →
      (waveGen aa wt width st seed step).value = zeroF ∧ (waveGen aa wt width st seed step).st = st ∧
      (waveGen aa wt width st seed step).seed = seed) ∧
    (step.isNan = true ∨ step.lt zeroF = true →
      Const.half.lt step = false ∧ (wt = .noise → (waveGen aa wt width st seed step).seed = xorshift32 seed) ∧
      (wt.tableDriven = true → (waveGen aa wt width st seed step).st.advance = 0))

/-- What a generator at or below the Nyquist limit writes and returns (41_waveforms.md R160, R164 to R169, R176, R178). It
never writes the phase; a table wave writes its index, stepped by the advance in its cycle, and a zero advance; noise the
seed; the others nothing. The samples are those of the rules, with anti-aliasing on and off; the table waves' correction is
summed over the whole numbers between its bounds, where both are finite. Then the corrections themselves: `PB` with its branches, its zeros, its
oddness up to the sign of a zero and its range on either side, which R162 derives for exact arithmetic and rounding keeps,
`PBE` and `IPB` (R162, R163, R179). -/
def Obligations.GeneratorsWriteOnlyTheirState : Prop :=
  (∀ (aa : Bool) (wt : WaveType) (width : F32) (st : OscState) (seed : Word) (step : F32),
    Const.half.lt step = false →
    let g := waveGen aa wt width st seed step
    let p := st.phase
    let w := (step.mul Const.polyblepWidth).min Const.one
    let wT := (step.mul Const.polyblepWidth).min Const.eight
    let bit := fun j : Int => romBit wt (j % (waveCycle wt : Int)).toNat
    let num := fun b : Bool => if b then (1 : Int) else 0
    g.st.phase = st.phase ∧
    (wt.tableDriven = true → g.st.advance = 0 ∧ g.st.index < waveCycle wt ∧ g.seed = seed ∧
      ∃ c : Int, (g.st.index : Int) = st.index + st.advance + c * waveCycle wt) ∧
    (wt.tableDriven = false → g.st = st) ∧
    g.seed = (if wt = .noise then xorshift32 seed else seed) ∧
    (wt = .sine → g.value = fSin (Const.twoPi.mul p)) ∧
    (wt = .pulse →
      let pw := p.sub width
      let v := if p.lt width then Const.one else Const.negOne
      g.value =
        if aa then
          ((((v.add (polyBlepEdge p w)).add (polyBlepEdge (p.sub Const.one) w)).sub (polyBlepEdge pw w)).sub
            (polyBlepEdge (pw.sub Const.one) w)).sub (polyBlepEdge (pw.add Const.one) w)
        else v) ∧
    (wt = .sawtooth →
      let v := Const.one.sub (Const.two.mul p)
      g.value = if aa then (v.add (polyBlepEdge p w)).add (polyBlepEdge (p.sub Const.one) w) else v) ∧
    (wt = .triangle →
      let v := (Const.two.sub ((Const.four.mul p).sub Const.one).abs).abs.sub Const.one
      g.value =
        if aa then
          (((v.sub (integratedPolyBlep (p.sub Const.quarter) w)).add
            (integratedPolyBlep (p.sub Const.threeQuarters) w)).sub (integratedPolyBlep (p.sub Const.fiveQuarters) w)).add
              (integratedPolyBlep (p.add Const.quarter) w)
        else v) ∧
    (wt = .noise → g.value = (Const.two.mul (F32.ofWordFraction g.seed)).sub Const.one) ∧
    (wt.tableDriven = true →
      let v := if bit g.st.index then Const.one else Const.negOne
      (aa = false → g.value = v) ∧
      ∀ lo hi : Int, (p.sub wT).ceil? = some lo → (p.add wT).floor? = some hi → aa = true →
        g.value = v.add (((List.range (hi - lo + 1).toNat).map fun j : Nat => lo + (j : Int)).foldl
          (fun c m =>
            let t := p.sub (F32.ofInt m)
            let bNew := bit (g.st.index + m)
            let bOld := bit (g.st.index + m - 1)
            if t.abs.lt wT = true ∧ bNew ≠ bOld then c.add ((F32.ofInt (num bNew - num bOld)).mul (polyBlepEdge t wT))
            else c)
          zeroF))) ∧
  (∀ t w : F32,
    let tau := t.div w
    let t2 := tau.mul tau
    let t3 := t2.mul tau
    let w4 := Const.four.mul w
    (t.abs.lt w = false → polyBlep t w = zeroF ∧ polyBlepEdge t w = zeroF ∧ integratedPolyBlep t w = zeroF) ∧
    (t.eq zeroF = true → polyBlep t w = zeroF ∧ (t.abs.lt w = true → polyBlepEdge t w = Const.negOne)) ∧
    (t.abs.lt w = true → zeroF.lt t = true →
      polyBlep t w = ((Const.two.mul tau).sub (tau.mul tau)).sub Const.one ∧ polyBlepEdge t w = polyBlep t w ∧
      integratedPolyBlep t w = (((Const.oneThird.sub tau).add t2).sub (t3.div Const.three)).mul w4) ∧
    (t.abs.lt w = true → t.lt zeroF = true →
      polyBlep t w = ((tau.mul tau).add (Const.two.mul tau)).add Const.one ∧ polyBlepEdge t w = polyBlep t w) ∧
    (t.abs.lt w = true → zeroF.lt t = false →
      integratedPolyBlep t w = (((Const.oneThird.add tau).add t2).add (t3.div Const.three)).mul w4) ∧
    (polyBlep t.neg w).eq (polyBlep t w).neg = true ∧
    (zeroF.lt t = true → Const.negOne.le (polyBlep t w) = true ∧ (polyBlep t w).le zeroF = true) ∧
    (t.lt zeroF = true → zeroF.le (polyBlep t w) = true ∧ (polyBlep t w).le Const.one = true))

/-- The noise recurrence is one-to-one and only 0 leads to 0, so a nonzero seed never dies; its example
(10_state.md R35; 41_waveforms.md R176). -/
def Obligations.NoiseSeedNeverDies : Prop :=
  (∀ x y : Word, xorshift32 x = xorshift32 y → x = y) ∧ (∀ x : Word, xorshift32 x = 0#32 ↔ x = 0#32) ∧
  xorshift32 0x00000001#32 = 0x00042021#32 ∧ xorshift32 0x00042021#32 = 0x04080601#32

/-- A noise sample is in `[-1, 1]` (41_waveforms.md R176, R180). -/
def Obligations.NoiseSampleRange : Prop :=
  ∀ seed : Word, Const.negOne.le (noiseSample seed) = true ∧ (noiseSample seed).le Const.one = true

/-- The properties (a) to (d) of the open functions (00_scope.md R11). A value is given in units of 2^-149. -/
def Obligations.OpenFunctionProperties : Prop :=
  (∀ n : Int, -149 ≤ n → n ≤ 127 → (fExp2 (F32.ofInt n)).units? = some (2 ^ (n + 149).toNat)) ∧
  (∀ z : F32, z.eq zeroF = true → (fSin z).eq zeroF = true ∧ fExp z = Const.one ∧ fExp2 z = Const.one) ∧
  (∀ x : F32, (F32.ofInt 128).le x = true → fExp2 x = .inf false) ∧ fExp2 (.inf true) = zeroF ∧
  (∀ x : F32, x.isFinite = true → Const.negOne.le (fSin x) = true ∧ (fSin x).le Const.one = true)

/-- The contents of the small tables, entry 0 first (40_noise_tables.md R141, R142, R146). -/
def Obligations.TableContents : Prop :=
  (List.range 15).map poly4Bit = "111100010011010".toList.map (· == '1') ∧
  (List.range 31).map poly5Bit = "0000011100100010101111011010011".toList.map (· == '1') ∧
  (List.range 62).map pulsePoly5Bit =
    "00000101110000110010100100111011111101000111100110101101100010".toList.map (· == '1') ∧
  lfsrList 4 1 0xF false 0xF 100 = (List.range 15).map poly4Bit ∧
  lfsrList 5 2 0x1F true 0x1F 100 = (List.range 31).map poly5Bit

/-- Each LFSR table repeats after `2^n - 1` entries and has no shorter cyclic period (40_noise_tables.md R144). -/
def Obligations.LfsrPeriods : Prop :=
  ∀ e ∈ [(poly4Bit, 4), (poly5Bit, 5), (poly17Bit, 17)],
    (∀ i, e.1 (i + (2 ^ e.2 - 1)) = e.1 i) ∧
    ∀ d, 0 < d → d < 2 ^ e.2 - 1 → ∃ i, i < 2 ^ e.2 - 1 ∧ e.1 i ≠ e.1 ((i + d) % (2 ^ e.2 - 1))

/-- Continuing the composite walk past the table's end reproduces the table (40_noise_tables.md R145). -/
def Obligations.CompositeTablesRepeat : Prop :=
  (∀ i, pulsePoly5Bit (i + 62) = pulsePoly5Bit i) ∧ (∀ i, poly4Poly5Bit (i + 465) = poly4Poly5Bit i) ∧
  ∀ i, poly17Poly5Bit (i + 4063201) = poly17Poly5Bit i

/-- Each key frequency is `2^((k + 3) / 12) * 220` rounded once to binary32: the exact value lies within half a unit in the
last place of it, compared by twelfth powers (40_noise_tables.md R151). -/
def Obligations.KeyFrequencies : Prop :=
  ∀ k : VoiceIx, ∃ (e : Fin 255) (f : BitVec 23),
    keyFreq k = .num false e f ∧ 0 < e.val ∧
    (2 * F32.magnitude e f - 2 ^ (e.val - 1)) ^ 12 < 2 ^ (k.val + 3) * (2 * 220 * 2 ^ 149) ^ 12 ∧
    2 ^ (k.val + 3) * (2 * 220 * 2 ^ 149) ^ 12 < (2 * F32.magnitude e f + 2 ^ (e.val - 1)) ^ 12 ∧
    (k.val = 9 → keyFreq k = F32.ofInt 440)

/-! Envelopes. -/

/-- The amplitude an update moves to and the stage it leads to (43_envelope.md R230 to R236). An attack approaches
`1 + ATTACK_BIAS` and ends at 1; a decay approaches the biased sustain level and ends at the sustain level; a release
approaches `DECAY_BIAS`, at the decay rate where the amplitude before the update is not below the sustain level and that rate
is not below the release rate, and ends at +0.0. A stage that does not end stays at the amplitude approached; `SUSTAIN` and
`OFF` write nothing. -/
def Obligations.EnvelopeStages : Prop :=
  ∀ (c : EnvCfg) (dt a : F32),
    (let a' := a.add ((((Const.one.add Const.attackBias).sub a).mul c.attackRate).mul dt)
     envUpdate c dt ⟨.attack, a⟩ =
      if Const.one.le a' then (if c.sustain.lt Const.one then ⟨.decay, Const.one⟩ else ⟨.sustain, Const.one⟩)
      else ⟨.attack, a'⟩) ∧
    (let target := c.sustain.add ((Const.one.sub c.sustain).mul Const.decayBias)
     let a' := a.add (((target.sub a).mul c.decayRate).mul dt)
     envUpdate c dt ⟨.decay, a⟩ = if a'.le c.sustain then ⟨.sustain, c.sustain⟩ else ⟨.decay, a'⟩) ∧
    (let rate := if c.sustain.le a = true ∧ c.releaseRate.le c.decayRate = true then c.decayRate else c.releaseRate
     let a' := a.add (((Const.decayBias.sub a).mul rate).mul dt)
     envUpdate c dt ⟨.release, a⟩ = if a'.le zeroF then ⟨.off, zeroF⟩ else ⟨.release, a'⟩) ∧
    envUpdate c dt ⟨.sustain, a⟩ = ⟨.sustain, a⟩ ∧ envUpdate c dt ⟨.off, a⟩ = ⟨.off, a⟩ ∧
    Const.attackBias.toBits = 0x3F14FC6D#32 ∧ (Const.one.add Const.attackBias).toBits = 0x3FCA7E36#32 ∧
    Const.decayBias.toBits = 0xBD569CDF#32

/-- With the configuration held in its legal ranges and `FS` nonzero, an update keeps the amplitude in `[0, 1]`
(10_state.md R31; 43_envelope.md R240). The spec's rule says no more; that a decaying amplitude is not below the sustain
level is the premise that makes it hold for one update, and it is kept too. -/
def Obligations.EnvelopeAmplitudeStaysInRange : Prop :=
  ∀ (g : Cfg) (c : EnvCfg) (e : EnvState), g.fs ≠ 0#32 → c.Legal → e.InRange c →
    (envUpdate c (sampleInterval g) e).InRange c

/-! Filter and output. -/

/-- Mode `None` bypasses the filter: the input is returned and the state untouched (44_filter.md R268). -/
def Obligations.FilterBypass : Prop :=
  ∀ (core : FilterCore) (c : FilterCfg) (f : FilterState) (cutoff x dt : F32),
    c.mode = .none → filterUpdate core c f cutoff x dt = (f, x)

/-- `Setup` is `min(cutoff * dt, 1)` and at most 1 (44_filter.md R261), for every product above -2^127. Below it the doubled
product overflows to minus infinity, which the rule's "in every case" does not consider. -/
def Obligations.FilterSetupClamps : Prop :=
  ∀ cutoff dt : F32,
    let x := cutoff.mul dt
    (x.isNan = true → (filterSetup cutoff dt).isNan = true) ∧
    (x.isNan = false → (filterSetup cutoff dt).le Const.one = true) ∧
    ((F32.ofBits 0xFF000000#32).lt x = true → filterSetup cutoff dt = x.min Const.one)

/-- The examples of the twenty-one output taps on `y = (1, 0.5, 0.25, 0.125, 0.0625)` (44_filter.md R268 to R288). -/
def Obligations.FilterTapExamples : Prop :=
  let y : Taps := ⟨Const.one, Const.half, Const.quarter, F32.ofBits 0x3E000000#32, F32.ofBits 0x3D800000#32⟩
  let x := F32.ofBits 0xBF400000#32
  [FilterMode.none, .peak, .lowPass1, .lowPass2, .lowPass3, .lowPass4, .highPass1, .highPass2, .highPass3, .highPass4,
      .bandPass1, .bandPass1LowPass1, .bandPass1LowPass2, .bandPass1HighPass1, .bandPass1HighPass2, .bandPass2,
      .notch, .notchLowPass1, .notchLowPass2, .phaseShift, .phaseShiftLowPass1].map (fun m => (filterTap m x y).toBits) =
    [0xBF400000#32, 0x3F800000#32, 0x3F000000#32, 0x3E800000#32, 0x3E000000#32, 0x3D800000#32, 0xBF000000#32,
      0xBE800000#32, 0xBE000000#32, 0xBD800000#32, 0xBE800000#32, 0xBE000000#32, 0xBD800000#32, 0xBE000000#32,
      0xBD800000#32, 0x3D800000#32, 0xBF000000#32, 0xBE800000#32, 0xBE000000#32, 0xBF000000#32, 0xBE800000#32]

/-- What a filter update computes, and what carries from one to the next (44_filter.md R260, R263 to R267; 10_state.md R32).
Each core sets its coefficients up from `Setup`'s value, runs two iterations on the same input and returns the mode's tap, the
nonlinear core with the average of the last two `y[4]` in place of `y[4]`. It writes nothing else of the state; and of the old
state only `y[0..4]` and `ytan[1..3]` matter, to the output and to all that it writes. -/
def Obligations.FilterStateThatCarries : Prop :=
  ∀ (core : FilterCore) (c : FilterCfg) (f : FilterState) (cutoff x dt : F32), c.mode ≠ .none →
    let u := filterUpdate core c f cutoff x dt
    let fc := filterSetup cutoff dt
    (core = .improved →
      let g := Const.one.sub (fExp (Const.negPi.mul fc))
      let fb := Const.four.mul c.resonance
      let a1 := g.sub Const.one
      let b0 := g.mul Const.kB0
      let b1 := Const.kB1.mul b0
      let stage := fun yPrev tPrev y : F32 => ((b0.mul yPrev).add (b1.mul tPrev)).sub (a1.mul y)
      let iter := fun h : FilterState =>
        let y0 := x.sub (fb.mul ((ftanh h.y4).sub (Const.half.mul x)))
        let y1 := stage y0 h.y0 h.y1
        let y2 := stage y1 h.y1 h.y2
        let y3 := stage y2 h.y2 h.y3
        let y4 := stage y3 h.y3 h.y4
        { h with y0 := y0, y1 := y1, y2 := y2, y3 := y3, y4 := y4 }
      u.1 = iter (iter { f with feedback := fb, a1 := a1, b0 := b0, b1 := b1 }) ∧
      u.2 = filterTap c.mode x ⟨u.1.y0, u.1.y1, u.1.y2, u.1.y3, u.1.y4⟩) ∧
    (core = .nonlinear →
      let fcr := (((((Const.kFcr3.mul fc).add Const.kFcr2).mul fc).sub Const.kFcr1).mul fc).add Const.kFcr0
      let acr := (((Const.kAcr2.mul fc).add Const.kAcr1).mul fc).add Const.kAcr0
      let fb := (Const.four.mul c.resonance).mul acr
      let tune := (Const.one.sub (fExp ((Const.negPi.mul fc).mul fcr))).mul Const.kTune
      let sat := fun y : F32 => ftanh (Const.kThermal.mul y)
      let iter := fun h : FilterState =>
        let y0 := x.sub (fb.mul h.y4)
        let y1 := h.y1.add (tune.mul ((sat y0).sub h.ytan1))
        let y2 := h.y2.add (tune.mul ((sat y1).sub h.ytan2))
        let y3 := h.y3.add (tune.mul ((sat y2).sub h.ytan3))
        let y4 := h.y4.add (tune.mul ((sat y3).sub (sat h.y4)))
        { h with
          y0 := y0, y1 := y1, y2 := y2, y3 := y3, y4 := y4
          ytan0 := sat y0, ytan1 := sat y1, ytan2 := sat y2, ytan3 := sat y3 }
      let h1 := iter { f with feedback := fb, tune := tune }
      u.1 = iter h1 ∧
      u.2 = filterTap c.mode x ⟨u.1.y0, u.1.y1, u.1.y2, u.1.y3, Const.half.mul (u.1.y4.add h1.y4)⟩) ∧
    ∀ g : FilterState,
      f.y0 = g.y0 → f.y1 = g.y1 → f.y2 = g.y2 → f.y3 = g.y3 → f.y4 = g.y4 →
      f.ytan1 = g.ytan1 → f.ytan2 = g.ytan2 → f.ytan3 = g.ytan3 →
      let w := filterUpdate core c g cutoff x dt
      u.2 = w.2 ∧ u.1.y0 = w.1.y0 ∧ u.1.y1 = w.1.y1 ∧ u.1.y2 = w.1.y2 ∧ u.1.y3 = w.1.y3 ∧ u.1.y4 = w.1.y4 ∧
      u.1.feedback = w.1.feedback ∧ u.1.ytan1 = w.1.ytan1 ∧ u.1.ytan2 = w.1.ytan2 ∧ u.1.ytan3 = w.1.ytan3 ∧
      (core = .improved → u.1.a1 = w.1.a1 ∧ u.1.b0 = w.1.b0 ∧ u.1.b1 = w.1.b1 ∧ u.1.tune = f.tune ∧
        u.1.ytan0 = f.ytan0 ∧ u.1.ytan1 = f.ytan1 ∧ u.1.ytan2 = f.ytan2 ∧ u.1.ytan3 = f.ytan3) ∧
      (core = .nonlinear → u.1.tune = w.1.tune ∧ u.1.ytan0 = w.1.ytan0 ∧ u.1.a1 = f.a1 ∧ u.1.b0 = f.b0 ∧ u.1.b1 = f.b1)

/-- The saturator (44_filter.md R262): its formula and clamps, its value at the clamp, at the infinities and at a NaN, its
oddness, and its examples. -/
def Obligations.SaturatorRules : Prop :=
  (∀ x : F32,
    (Const.three.lt x = true → ftanh x = Const.one) ∧
    (x.lt Const.negThree = true → ftanh x = Const.negOne) ∧
    (Const.three.lt x = false → x.lt Const.negThree = false →
      ftanh x = (x.mul (Const.twentySeven.add (x.mul x))).div (Const.twentySeven.add (Const.nine.mul (x.mul x)))) ∧
    (x.isNan = true → (ftanh x).isNan = true) ∧
    (x.isNan = false → ftanh x.neg = (ftanh x).neg)) ∧
  ftanh Const.three = Const.one ∧ ftanh Const.negThree = Const.negOne ∧
  ftanh (.inf false) = Const.one ∧ ftanh (.inf true) = Const.negOne ∧
  (ftanh Const.half).toBits = 0x3EEE7EE8#32 ∧ (ftanh Const.one).toBits = 0x3F471C72#32 ∧
  (ftanh Const.two).toBits = 0x3F7BEFBF#32

/-- The output saturator (45_voice_mixer.md R330): 0 for a NaN, and for everything else the floor of the saturated value times
32768, limited to an int16; the ends of its range and the zeros. -/
def Obligations.OutputQuantizer : Prop :=
  ∀ scale sample : F32,
    let x := sample.mul scale
    (x.isNan = true → pcmQuantize scale sample = 0#16) ∧
    (x.isNan = false → ∃ u : Int, (ftanh x).units? = some u ∧
      (pcmQuantize scale sample).toInt = min (max (u * 32768 / 2 ^ 149) (-32768)) 32767) ∧
    (Const.three.lt x = true → pcmQuantize scale sample = 32767#16) ∧
    (x.lt Const.negThree = true → (pcmQuantize scale sample).toInt = -32768) ∧
    (x.eq zeroF = true → pcmQuantize scale sample = 0#16)
end

