-- ==== Sys2Proof/Laws/Decode.lean ====
section
/-! SUPPORT. The command decoder and the encoder, one lemma per outcome. -/

namespace Sys2Proof

/-- The fields of a `GATE` word (30_encoding.md R103). -/
theorem encodeCmd_gate_fields (v : BitVec 5) (d : Bool) :
   encodeCmd (.gate v d) &&& 0xFFFFE0FE#32 = 0x01000000#32 ∧ (encodeCmd (.gate v d)).extractLsb' 8 5 = v ∧ (encodeCmd (.gate v d)).getLsbD 0 = d := by
  revert v d; decide

/-- The fields of a `RENDER` word (30_encoding.md R104). -/
theorem encodeCmd_render_fields (n : BitVec 24) : encodeCmd (.render n) &&& 0xFF000000#32 = 0x02000000#32 ∧ (encodeCmd (.render n)).extractLsb' 0 24 = n := by
  constructor
  · unfold encodeCmd
    apply BitVec.eq_of_getLsbD_eq
    intro i hi
    simp only [BitVec.getLsbD_and, BitVec.getLsbD_or, BitVec.getLsbD_setWidth]
    by_cases h : i < 24
    · have h1 : ∀ j < 24, (0xFF000000#32).getLsbD j = false ∧ (0x02000000#32).getLsbD j = false := by decide
      simp [(h1 i h).1, (h1 i h).2]
    · have : n.getLsbD i = false := BitVec.getLsbD_of_ge _ _ (by omega)
      rw [this]
      have h1 : ∀ j < 32, ((0x02000000#32).getLsbD j && (0xFF000000#32).getLsbD j) = (0x02000000#32).getLsbD j := by decide
      simpa using h1 i hi
  · unfold encodeCmd
    apply BitVec.eq_of_getLsbD_eq
    intro i hi
    simp only [BitVec.getLsbD_extractLsb', BitVec.getLsbD_or, BitVec.getLsbD_setWidth]
    have h1 : ∀ j < 24, (0x02000000#32).getLsbD j = false := by decide
    simp [hi, h1 i hi]; omega

/-- The decoder gives an encoded command back (30_encoding.md R111). -/
theorem decodeCmd_encodeCmd (c : Cmd) : decodeCmd (encodeCmd c) = .ok c := by
  cases c with
  | nop => rfl
  | gate v d =>
    obtain ⟨h1, h2, h3⟩ := encodeCmd_gate_fields v d
    unfold decodeCmd
    rw [if_neg (by intro h; rw [h] at h1; revert h1; decide), if_pos h1, h2, h3]
  | render n =>
    obtain ⟨h1, h2⟩ := encodeCmd_render_fields n
    unfold decodeCmd
    rw [if_neg (by intro h; rw [h] at h1; revert h1; decide), if_neg ?_, if_pos h1, h2]
    intro hg
    have h4 : (encodeCmd (.render n) &&& 0xFFFFE0FE#32) &&& 0xFF000000#32 = encodeCmd (.render n) &&& 0xFF000000#32 := by
        rw [BitVec.and_assoc]; congr 1
    rw [hg, h1] at h4
    revert h4; decide

/-- A word that is no command is rejected (30_encoding.md R105). -/
theorem decodeCmd_error {w : Word} (h : isCommandWord w = false) : ∃ e, decodeCmd w = .error e := by
  unfold isCommandWord at h
  simp only [Bool.or_eq_false_iff, beq_eq_false_iff_ne] at h
  unfold decodeCmd
  rw [if_neg h.1.1, if_neg h.1.2, if_neg h.2]
  split <;> exact ⟨_, rfl⟩

/-- Every outcome of the command decoder (30_encoding.md R111). -/
theorem decodeCmd_cases (w : Word) : (w = 0#32 ∧ decodeCmd w = .ok .nop) ∨
   (w &&& 0xFFFFE0FE#32 = 0x01000000#32 ∧ decodeCmd w = .ok (.gate (w.extractLsb' 8 5) (w.getLsbD 0))) ∨
   (w &&& 0xFF000000#32 = 0x02000000#32 ∧ decodeCmd w = .ok (.render (w.extractLsb' 0 24))) ∨
   (isCommandWord w = false ∧ ∃ e, decodeCmd w = .error e) := by
  by_cases h0 : w = 0#32
  · left; exact ⟨h0, by unfold decodeCmd; rw [if_pos h0]⟩
  · by_cases h1 : w &&& 0xFFFFE0FE#32 = 0x01000000#32
    · right; left; exact ⟨h1, by unfold decodeCmd; rw [if_neg h0, if_pos h1]⟩
    · by_cases h2 : w &&& 0xFF000000#32 = 0x02000000#32
      · right; right; left; exact ⟨h2, by unfold decodeCmd; rw [if_neg h0, if_neg h1, if_pos h2]⟩
      · right; right; right
        have : isCommandWord w = false := by unfold isCommandWord; simp [h0, h1, h2]
        exact ⟨this, decodeCmd_error this⟩

/-- A word with the `GATE` pattern is the word of its fields. -/
theorem encodeCmd_gate_of_fields (w : Word) (h : w &&& 0xFFFFE0FE#32 = 0x01000000#32) : encodeCmd (.gate (w.extractLsb' 8 5) (w.getLsbD 0)) = w := by
  unfold encodeCmd
  apply BitVec.eq_of_getLsbD_eq
  intro i hi
  have hb := congrArg (fun x => x.getLsbD i) h
  simp only [BitVec.getLsbD_and] at hb
  interval_cases i <;> simp [BitVec.getLsbD_or, BitVec.getLsbD_shiftLeft, BitVec.getLsbD_setWidth, BitVec.getLsbD_extractLsb'] at hb ⊢ <;> simp_all

/-- A word with the `RENDER` pattern is the word of its fields. -/
theorem encodeCmd_render_of_fields (w : Word) (h : w &&& 0xFF000000#32 = 0x02000000#32) : encodeCmd (.render (w.extractLsb' 0 24)) = w := by
  unfold encodeCmd
  apply BitVec.eq_of_getLsbD_eq
  intro i hi
  have hb := congrArg (fun x => x.getLsbD i) h
  simp only [BitVec.getLsbD_and] at hb
  interval_cases i <;> simp [BitVec.getLsbD_or, BitVec.getLsbD_setWidth, BitVec.getLsbD_extractLsb'] at hb ⊢ <;> simp_all

end Sys2Proof
end

