-- ==== Sys2Proof/Laws/Registers.lean ====
section
/-! SUPPORT. Laws of the register space: the map is a bijection between registers and mapped offsets, and reading after
storing (20_memory.md R71, R72, R78). -/

namespace Sys2Proof.Machine

theorem voiceReg_some {n base : Nat} {f : VoiceIx → Reg} {r : Reg} (hb : base % 4 = 0) (h : voiceReg n base f = some r) :
    ∃ k : VoiceIx, r = f k ∧ n = base + 4 * k.val := by
  unfold voiceReg at h
  split at h
  · rename_i hk
    split at h
    · rename_i hn
      simp only [Option.some.injEq] at h
      exact ⟨⟨_, hk⟩, h.symm, by dsimp only; omega⟩
    · cases h
  · cases h

/-- A mapped offset is that of its register (20_memory.md R78). -/
theorem offset_of_regAtNat {n : Nat} {r : Reg} (h : regAtNat n = some r) : n = r.offset := by
  unfold regAtNat at h
  split at h <;> first
    | (simp only [Option.some.injEq] at h; subst h; rfl)
    | skip
  split at h
  · obtain ⟨k, rfl, hk⟩ := voiceReg_some (by decide) h; exact hk
  · split at h
    · obtain ⟨k, rfl, hk⟩ := voiceReg_some (by decide) h; exact hk
    · obtain ⟨k, rfl, hk⟩ := voiceReg_some (by decide) h; exact hk

/-- Every register is at its offset (20_memory.md R78). -/
theorem regAtNat_offset (r : Reg) : regAtNat r.offset = some r := by
  cases r with
  | osc o f => cases o <;> cases f <;> rfl
  | lfo f => cases f <;> rfl
  | env e f => cases e <;> cases f <;> rfl
  | flt f => cases f <;> rfl
  | der o f => cases o <;> cases f <;> rfl
  | voiceStatus k => revert k; decide
  | venvAmp k => revert k; decide
  | fenvAmp k => revert k; decide
  | _ => rfl

theorem offset_lt (r : Reg) : r.offset < 4096 := by
  cases r with
  | osc o f => cases o <;> cases f <;> decide
  | lfo f => cases f <;> decide
  | env e f => cases e <;> cases f <;> decide
  | flt f => cases f <;> decide
  | der o f => cases o <;> cases f <;> decide
  | voiceStatus k => have := k.isLt; simp only [Reg.offset]; omega
  | venvAmp k => have := k.isLt; simp only [Reg.offset]; omega
  | fenvAmp k => have := k.isLt; simp only [Reg.offset]; omega
  | _ => decide

theorem offset_aligned (r : Reg) : r.offset % 4 = 0 := by
  cases r with
  | osc o f => cases o <;> cases f <;> decide
  | lfo f => cases f <;> decide
  | env e f => cases e <;> cases f <;> decide
  | flt f => cases f <;> decide
  | der o f => cases o <;> cases f <;> decide
  | voiceStatus k => simp only [Reg.offset]; omega
  | venvAmp k => simp only [Reg.offset]; omega
  | fenvAmp k => simp only [Reg.offset]; omega
  | _ => decide

/-- The register of an offset and the offset of a register are inverse (20_memory.md R78). -/
theorem regAt_eq_some_iff {off : BitVec 12} {r : Reg} : regAt off = some r ↔ off = BitVec.ofNat 12 r.offset := by
  unfold regAt
  constructor
  · intro h
    have h1 := offset_of_regAtNat h
    rw [← h1]; simp
  · rintro rfl
    rw [BitVec.toNat_ofNat, Nat.mod_eq_of_lt (offset_lt r)]
    exact regAtNat_offset r

theorem regAt_cmd {off : BitVec 12} (h : regAt off = some .cmd) : off = 0#12 := regAt_eq_some_iff.1 h

theorem regAt_status {off : BitVec 12} (h : regAt off = some .status) : off = 4#12 := regAt_eq_some_iff.1 h

/-- A mapped offset is aligned (20_memory.md R78). -/
theorem aligned_of_regAt {off : BitVec 12} {r : Reg} (h : regAt off = some r) : off.toNat % 4 = 0 := by
  have h1 := offset_of_regAtNat h
  rw [h1]; exact offset_aligned r

end Sys2Proof.Machine
end

