-- ==== Sys2Proof/Laws/Float.lean ====
section
/-! SUPPORT. Laws of the binary32 model: encodings are a bijection, rounding is exact on representable values and
monotone, and what the operators answer on finite operands. -/

namespace Sys2Proof.F32

/-- The magnitude, in units of 2^-149, of the encoding `g` (sign bit left out), continued past the largest finite one. -/
def magOf (g : Nat) : Nat := if g / 2 ^ 23 = 0 then g else (2 ^ 23 + g % 2 ^ 23) * 2 ^ (g / 2 ^ 23 - 1)

/-- The encoding, sign left out, that `round` answers before overflow is looked at. -/
def roundBits (n d : Nat) : Nat :=
  let t := Nat.log2 (n / d) - 23
  let den := d * 2 ^ t
  let q := n / den
  let r := n % den
  let up := den < 2 * r || (2 * r == den && q % 2 == 1)
  t * 2 ^ 23 + (bif up then q + 1 else q)

theorem round_eq (s : Bool) (n d : Nat) : round s n d = ofMagnitudeBits s (roundBits n d) := rfl

@[simp] theorem signed_zero (s : Bool) : signed s 0 = 0 := rfl

theorem signed_false (m : Nat) : signed false m = m := by cases m <;> rfl

theorem signed_true (m : Nat) : signed true m = -(m : Int) := by
  cases m with
  | zero => rfl
  | succ m => simp [signed, Int.negSucc_eq]

theorem signed_not (s : Bool) (m : Nat) : signed (!s) m = -signed s m := by
  cases s <;> simp [signed_false, signed_true]

theorem natAbs_signed (s : Bool) (m : Nat) : (signed s m).natAbs = m := by
  cases s <;> simp [signed_false, signed_true]

theorem magnitude_eq_magOf (e : Fin 255) (f : BitVec 23) : magnitude e f = magOf (e.val * 2 ^ 23 + f.toNat) := by
  have hf := f.isLt
  have h1 : (e.val * 2 ^ 23 + f.toNat) / 2 ^ 23 = e.val := by omega
  have h2 : (e.val * 2 ^ 23 + f.toNat) % 2 ^ 23 = f.toNat := by omega
  unfold magnitude magOf
  rw [h1, h2]
  split
  · rename_i h; simp [h]
  · rfl

/-- A finite value's encoding is below that of infinity. -/
theorem bits_lt (e : Fin 255) (f : BitVec 23) : e.val * 2 ^ 23 + f.toNat < 255 * 2 ^ 23 := by
  have hf := f.isLt
  have he := e.isLt
  omega

theorem ofMagnitudeBits_num (s : Bool) (e : Fin 255) (f : BitVec 23) :
    ofMagnitudeBits s (e.val * 2 ^ 23 + f.toNat) = .num s e f := by
  have hf := f.isLt
  have h1 : (e.val * 2 ^ 23 + f.toNat) / 2 ^ 23 = e.val := by omega
  unfold ofMagnitudeBits
  have hlt : (e.val * 2 ^ 23 + f.toNat) / 2 ^ 23 < 255 := by rw [h1]; exact e.isLt
  rw [dif_pos hlt]
  congr 1
  · exact Fin.ext h1
  · apply BitVec.eq_of_toNat_eq
    rw [BitVec.toNat_ofNat]; omega

theorem ofMagnitudeBits_of_lt (s : Bool) {g : Nat} (h : g < 255 * 2 ^ 23) :
    ∃ (e : Fin 255) (f : BitVec 23), ofMagnitudeBits s g = .num s e f ∧ g = e.val * 2 ^ 23 + f.toNat := by
  have h1 : g / 2 ^ 23 < 255 := by omega
  refine ⟨⟨g / 2 ^ 23, h1⟩, BitVec.ofNat 23 g, ?_, ?_⟩
  · unfold ofMagnitudeBits; rw [dif_pos h1]
  · rw [BitVec.toNat_ofNat]; show g = g / 2 ^ 23 * 2 ^ 23 + g % 2 ^ 23; omega

theorem ofMagnitudeBits_of_ge (s : Bool) {g : Nat} (h : 255 * 2 ^ 23 ≤ g) : ofMagnitudeBits s g = .inf s := by
  unfold ofMagnitudeBits
  rw [dif_neg (by omega)]

/-- Every encoding is read back from the value it stands for (20_memory.md R74). -/
@[simp] theorem toBits_ofBits (w : Word) : toBits (ofBits w) = w := by
  have hw := w.isLt
  have hb : (decide (2 ^ 31 ≤ w.toNat)).toNat = w.toNat / 2 ^ 31 := by
    by_cases hs : 2 ^ 31 ≤ w.toNat
    · rw [decide_eq_true hs, Bool.toNat_true]; omega
    · rw [decide_eq_false hs, Bool.toNat_false]; omega
  apply BitVec.eq_of_toNat_eq
  unfold ofBits
  dsimp only
  by_cases hn : 255 * 2 ^ 23 < w.toNat % 2 ^ 31
  · rw [if_pos hn]
    have hp : (w.toNat % 2 ^ 31 - 255 * 2 ^ 23 - 1) % 8388607 = w.toNat % 2 ^ 31 - 255 * 2 ^ 23 - 1 := by
      apply Nat.mod_eq_of_lt; omega
    simp only [toBits, Fin.ofNat, BitVec.toNat_ofNat, hp, hb]
    omega
  · rw [if_neg hn]
    by_cases hi : w.toNat % 2 ^ 31 = 255 * 2 ^ 23
    · rw [ofMagnitudeBits_of_ge _ (le_of_eq hi.symm)]
      simp only [toBits, BitVec.toNat_ofNat, hb]
      omega
    · obtain ⟨e, f, h1, h2⟩ := ofMagnitudeBits_of_lt (decide (2 ^ 31 ≤ w.toNat)) (g := w.toNat % 2 ^ 31) (by omega)
      rw [h1]
      simp only [toBits, BitVec.toNat_ofNat, hb]
      omega

/-- The sign bit of an encoding with sign `s` and the rest `k`. -/
theorem signBit_eq (s : Bool) {k : Nat} (hk : k < 2 ^ 31) : decide (2 ^ 31 ≤ s.toNat * 2 ^ 31 + k) = s := by
  cases s
  · rw [Bool.toNat_false, decide_eq_false]; omega
  · rw [Bool.toNat_true, decide_eq_true]; omega

/-- The encoding of sign `s` and rest `k`, read as a value. -/
theorem ofBits_parts (s : Bool) {k : Nat} (hk : k < 2 ^ 31) (w : Word) (hw : w.toNat = s.toNat * 2 ^ 31 + k) :
    ofBits w = if 255 * 2 ^ 23 < k then .nan s (Fin.ofNat 8388607 (k - 255 * 2 ^ 23 - 1)) else ofMagnitudeBits s k := by
  unfold ofBits
  dsimp only
  have hm : w.toNat % 2 ^ 31 = k := by
    rw [hw]; cases s <;> simp only [Bool.toNat_true, Bool.toNat_false] <;> omega
  rw [hm, hw, signBit_eq s hk]

/-- Every value is the one its encoding stands for (20_memory.md R74). -/
@[simp] theorem ofBits_toBits (x : F32) : ofBits (toBits x) = x := by
  cases x with
  | nan s p =>
    have hp := p.isLt
    have hb : (toBits (.nan s p)).toNat = s.toNat * 2 ^ 31 + (255 * 2 ^ 23 + (p.val + 1)) := by
      cases s <;> simp only [toBits, BitVec.toNat_ofNat, Bool.toNat_true, Bool.toNat_false] <;> omega
    rw [ofBits_parts s (by omega) _ hb, if_pos (by omega)]
    have hq : Fin.ofNat 8388607 (255 * 2 ^ 23 + (p.val + 1) - 255 * 2 ^ 23 - 1) = p := by
      apply Fin.ext
      show (255 * 2 ^ 23 + (p.val + 1) - 255 * 2 ^ 23 - 1) % 8388607 = p.val
      omega
    rw [hq]
  | inf s =>
    have hb : (toBits (.inf s)).toNat = s.toNat * 2 ^ 31 + 255 * 2 ^ 23 := by
      cases s <;> simp only [toBits, BitVec.toNat_ofNat, Bool.toNat_true, Bool.toNat_false] <;> omega
    rw [ofBits_parts s (by omega) _ hb, if_neg (by omega), ofMagnitudeBits_of_ge _ (le_refl _)]
  | num s e f =>
    have hl := bits_lt e f
    have hb : (toBits (.num s e f)).toNat = s.toNat * 2 ^ 31 + (e.val * 2 ^ 23 + f.toNat) := by
      cases s <;> simp only [toBits, BitVec.toNat_ofNat, Bool.toNat_true, Bool.toNat_false] <;> omega
    rw [ofBits_parts s (by omega) _ hb, if_neg (by omega), ofMagnitudeBits_num]

/-! Rounding. -/

theorem magOf_of_lt {g : Nat} (h : g < 2 ^ 24) : magOf g = g := by
  unfold magOf
  split
  · rfl
  · have : g / 2 ^ 23 = 1 := by omega
    rw [this]; omega

/-- The magnitude of an encoding written as binary places `t` and a quotient `q` with its leading 1 in place. -/
theorem magOf_place {t q : Nat} (hq : t = 0 ∨ 2 ^ 23 ≤ q) (hq' : q ≤ 2 ^ 24) : magOf (t * 2 ^ 23 + q) = q * 2 ^ t := by
  rcases Nat.eq_zero_or_pos t with rfl | ht
  · simp only [Nat.zero_mul, Nat.zero_add, Nat.pow_zero, Nat.mul_one]
    rcases Nat.lt_or_ge q (2 ^ 24) with h | h
    · exact magOf_of_lt h
    · have : q = 2 ^ 24 := by omega
      subst this; decide
  · have h23 : 2 ^ 23 ≤ q := by omega
    rcases Nat.lt_or_ge q (2 ^ 24) with h | h
    · have h1 : (t * 2 ^ 23 + q) / 2 ^ 23 = t + 1 := by omega
      have h2 : (t * 2 ^ 23 + q) % 2 ^ 23 = q - 2 ^ 23 := by omega
      unfold magOf
      rw [h1, h2, if_neg (by omega)]
      have : 2 ^ 23 + (q - 2 ^ 23) = q := by omega
      rw [this]; rfl
    · have hq4 : q = 2 ^ 24 := by omega
      subst hq4
      have h1 : (t * 2 ^ 23 + 2 ^ 24) / 2 ^ 23 = t + 2 := by omega
      have h2 : (t * 2 ^ 23 + 2 ^ 24) % 2 ^ 23 = 0 := by omega
      unfold magOf
      rw [h1, h2, if_neg (by omega)]
      have : t + 2 - 1 = t + 1 := by omega
      rw [this, Nat.pow_succ]; ring

theorem magOf_lt_succ (g : Nat) : magOf g < magOf (g + 1) := by
  by_cases h : g < 2 ^ 23
  · rw [magOf_of_lt (by omega), magOf_of_lt (by omega)]; omega
  · have e1 : g = (g / 2 ^ 23 - 1) * 2 ^ 23 + (2 ^ 23 + g % 2 ^ 23) := by omega
    have e2 : g + 1 = (g / 2 ^ 23 - 1) * 2 ^ 23 + (2 ^ 23 + g % 2 ^ 23 + 1) := by omega
    rw [e2, magOf_place (Or.inr (by omega)) (by omega)]
    conv_lhs => rw [e1]
    rw [magOf_place (Or.inr (by omega)) (by omega)]
    exact Nat.mul_lt_mul_of_pos_right (Nat.lt_succ_self _) (Nat.two_pow_pos _)

theorem magOf_strictMono : StrictMono magOf := strictMono_nat_of_lt_succ magOf_lt_succ

theorem magOf_le_magOf {a b : Nat} : magOf a ≤ magOf b ↔ a ≤ b := magOf_strictMono.le_iff_le

/-- The parts of `roundBits`: the exact value lies between two neighbouring encodings, and the upper one is taken when it
is nearer, or as near with an even encoding. -/
theorem roundBits_parts {n d : Nat} (hd : 0 < d) :
    ∃ g : Nat, magOf g * d ≤ n ∧ n < magOf (g + 1) * d ∧
      roundBits n d =
        if (magOf g + magOf (g + 1)) * d < 2 * n ∨ ((magOf g + magOf (g + 1)) * d = 2 * n ∧ g % 2 = 1) then g + 1 else g := by
  have hden : 0 < d * 2 ^ (Nat.log2 (n / d) - 23) := Nat.mul_pos hd (Nat.two_pow_pos _)
  have hq2 : n / (d * 2 ^ (Nat.log2 (n / d) - 23)) = n / d / 2 ^ (Nat.log2 (n / d) - 23) := (Nat.div_div_eq_div_mul _ _ _).symm
  have hqlt : n / (d * 2 ^ (Nat.log2 (n / d) - 23)) < 2 ^ 24 := by
    rw [hq2, Nat.div_lt_iff_lt_mul (Nat.two_pow_pos _), ← Nat.pow_add]
    rcases Nat.eq_zero_or_pos (n / d) with h0 | h0
    · rw [h0]; exact Nat.two_pow_pos _
    · have := Nat.lt_log2_self (n := n / d)
      exact lt_of_lt_of_le this (Nat.pow_le_pow_right (by decide) (by omega))
  have hqge : Nat.log2 (n / d) - 23 = 0 ∨ 2 ^ 23 ≤ n / (d * 2 ^ (Nat.log2 (n / d) - 23)) := by
    rcases Nat.lt_or_ge 23 (Nat.log2 (n / d)) with h | h
    · right
      have h0 : n / d ≠ 0 := by intro h0; rw [h0] at h; simp at h
      rw [hq2, Nat.le_div_iff_mul_le (Nat.two_pow_pos _), ← Nat.pow_add]
      have := Nat.log2_self_le h0
      have e : 23 + (Nat.log2 (n / d) - 23) = Nat.log2 (n / d) := by omega
      rw [e]; exact this
    · left; omega
  have hdm := Nat.div_add_mod n (d * 2 ^ (Nat.log2 (n / d) - 23))
  have hr := Nat.mod_lt n hden
  unfold roundBits
  dsimp only
  generalize Nat.log2 (n / d) - 23 = t at *
  generalize hQ : n / (d * 2 ^ t) = q at *
  generalize hR : n % (d * 2 ^ t) = r at *
  have m1 : magOf (t * 2 ^ 23 + q) = q * 2 ^ t := magOf_place hqge (by omega)
  have m2 : magOf (t * 2 ^ 23 + (q + 1)) = (q + 1) * 2 ^ t := magOf_place (by omega) (by omega)
  have e1 : q * 2 ^ t * d = d * 2 ^ t * q := by ring
  have e2 : (q + 1) * 2 ^ t * d = d * 2 ^ t * q + d * 2 ^ t := by ring
  have e3 : (q * 2 ^ t + (q + 1) * 2 ^ t) * d = 2 * (d * 2 ^ t * q) + d * 2 ^ t := by ring
  refine ⟨t * 2 ^ 23 + q, ?_, ?_, ?_⟩
  · rw [m1, e1]; omega
  · rw [Nat.add_assoc, m2, e2]; omega
  · rw [Nat.add_assoc, m1, m2, e3]
    have hpar : (t * 2 ^ 23 + q) % 2 = q % 2 := by omega
    rw [hpar]
    generalize d * 2 ^ t = den at *
    generalize hX : den * q = X at *
    by_cases hup : den < 2 * r ∨ (2 * r = den ∧ q % 2 = 1)
    · have : (decide (den < 2 * r) || (2 * r == den && q % 2 == 1)) = true := by simpa using hup
      rw [this, if_pos (by omega)]; rfl
    · have : (decide (den < 2 * r) || (2 * r == den && q % 2 == 1)) = false := by
        rw [← Bool.not_eq_true]; intro h; exact hup (by simpa using h)
      rw [this, if_neg (by omega)]; rfl

/-- Rounding answers an encoding above `g` exactly when the value is past the midpoint after `g`, or on it with `g` odd:
round to nearest, ties to even (00_scope.md R7). -/
theorem lt_roundBits_iff {n d g : Nat} (hd : 0 < d) :
    g < roundBits n d ↔
      (magOf g + magOf (g + 1)) * d < 2 * n ∨ ((magOf g + magOf (g + 1)) * d = 2 * n ∧ g % 2 = 1) := by
  obtain ⟨g0, h1, h2, h3⟩ := roundBits_parts (n := n) hd
  rw [h3]
  rcases Nat.lt_trichotomy g g0 with h | h | h
  · have a1 : magOf g < magOf g0 := magOf_strictMono h
    have a2 : magOf (g + 1) ≤ magOf g0 := magOf_le_magOf.2 h
    have : (magOf g + magOf (g + 1)) * d < 2 * n := by
      have := Nat.mul_lt_mul_of_pos_right (show magOf g + magOf (g + 1) < magOf g0 + magOf g0 by omega) hd
      rw [Nat.add_mul (magOf g0)] at this; omega
    constructor
    · intro _; exact Or.inl this
    · intro _; split <;> omega
  · subst h
    split <;> rename_i hc
    · exact ⟨fun _ => hc, fun _ => Nat.lt_succ_self _⟩
    · exact ⟨fun h => absurd h (lt_irrefl _), fun h => absurd h hc⟩
  · have a1 : magOf (g0 + 1) ≤ magOf g := magOf_le_magOf.2 h
    have a2 : magOf (g0 + 1) < magOf (g + 1) := magOf_strictMono (by omega)
    have : 2 * n < (magOf g + magOf (g + 1)) * d := by
      have := Nat.mul_le_mul_right d (show magOf (g0 + 1) + magOf (g0 + 1) ≤ magOf g + magOf (g + 1) by omega)
      rw [Nat.add_mul (magOf (g0 + 1))] at this; omega
    constructor
    · intro hh; exfalso; split at hh <;> omega
    · intro hh; exfalso; omega

/-- Rounding is monotone: `n/d ≤ n'/d'` gives encodings in that order. -/
theorem roundBits_mono {n d n' d' : Nat} (hd : 0 < d) (hd' : 0 < d') (h : n * d' ≤ n' * d) :
    roundBits n d ≤ roundBits n' d' := by
  by_contra hc
  have hlt : roundBits n' d' < roundBits n d := by omega
  have h1 := (lt_roundBits_iff hd).1 hlt
  have h2 : ¬ roundBits n' d' < roundBits n' d' := lt_irrefl _
  rw [lt_roundBits_iff hd'] at h2
  generalize roundBits n' d' = g at *
  generalize magOf g + magOf (g + 1) = M at *
  apply h2
  rcases h1 with h1 | ⟨h1, hp⟩
  · left
    have a : M * d * d' < 2 * n * d' := Nat.mul_lt_mul_of_pos_right h1 hd'
    have b : M * d' * d < 2 * n' * d := by nlinarith
    exact Nat.lt_of_mul_lt_mul_right b
  · have a : M * d' * d ≤ 2 * n' * d := by nlinarith [congrArg (· * d') h1]
    have := Nat.le_of_mul_le_mul_right a hd
    rcases Nat.lt_or_eq_of_le this with h | h
    · exact Or.inl h
    · exact Or.inr ⟨h, hp⟩

/-- Rounding is exact on a representable magnitude. -/
theorem roundBits_exact {g d : Nat} (hd : 0 < d) : roundBits (magOf g * d) d = g := by
  apply le_antisymm
  · by_contra hc
    have h := (lt_roundBits_iff hd).1 (show g < roundBits (magOf g * d) d by omega)
    have := Nat.mul_lt_mul_of_pos_right (magOf_lt_succ g) hd
    rw [Nat.add_mul] at h
    omega
  · rcases Nat.eq_zero_or_pos g with rfl | hg
    · exact Nat.zero_le _
    · have h : g - 1 < roundBits (magOf g * d) d := by
        rw [lt_roundBits_iff hd]
        left
        have e : g - 1 + 1 = g := by omega
        have := Nat.mul_lt_mul_of_pos_right (magOf_lt_succ (g - 1)) hd
        rw [e] at this ⊢
        rw [Nat.add_mul]
        omega
      omega

end Sys2Proof.F32
end

