-- ==== Sys2Proof/Laws/FloatOrder.lean ====
section
/-! SUPPORT. The order of binary32 values: every value that is no NaN has a place on the integer line (an infinity just
past the largest finite magnitude), comparisons are comparisons of places, and rounding is monotone there. -/

namespace Sys2Proof.F32

/-- The place of an infinity: the magnitude after the largest finite one. -/
@[irreducible] def infMag : Nat := magOf (255 * 2 ^ 23)

theorem infMag_eq : infMag = magOf (255 * 2 ^ 23) := by unfold infMag; rfl

/-- The place of a value on the integer line, in units of 2^-149; a NaN's is 0 and never used. -/
def place : F32 → Int
  | .nan _ _ => 0
  | .inf s => signed s infMag
  | .num s e f => signed s (magnitude e f)

theorem magnitude_lt_infMag (e : Fin 255) (f : BitVec 23) : magnitude e f < infMag := by
  rw [magnitude_eq_magOf, infMag_eq]; exact magOf_strictMono (bits_lt e f)

theorem infMag_pos : 0 < infMag := lt_of_le_of_lt (Nat.zero_le _) (magnitude_lt_infMag 0 0#23)

theorem signed_eq (s : Bool) (m : Nat) : signed s m = if s then -(m : Int) else m := by
  cases s
  · exact signed_false m
  · exact signed_true m

theorem lt_iff_place {a b : F32} (ha : a.isNan = false) (hb : b.isNan = false) : a.lt b = true ↔ a.place < b.place := by
  have hp := infMag_pos
  cases a with
  | nan => simp [isNan] at ha
  | inf s =>
    cases b with
    | nan => simp [isNan] at hb
    | inf s' =>
      simp only [lt, place, signed_eq]
      cases s <;> cases s' <;> simp
      omega
    | num s' e f =>
      have := magnitude_lt_infMag e f
      simp only [lt, place, signed_eq]
      cases s <;> cases s' <;> simp <;> omega
  | num s e f =>
    have := magnitude_lt_infMag e f
    cases b with
    | nan => simp [isNan] at hb
    | inf s' =>
      simp only [lt, place, signed_eq]
      cases s <;> cases s' <;> simp <;> omega
    | num s' e' f' => simp [lt, place]

theorem eq_iff_place {a b : F32} (ha : a.isNan = false) (hb : b.isNan = false) : a.eq b = true ↔ a.place = b.place := by
  have hp := infMag_pos
  cases a with
  | nan => simp [isNan] at ha
  | inf s =>
    cases b with
    | nan => simp [isNan] at hb
    | inf s' =>
      simp only [eq, place, signed_eq]
      cases s <;> cases s' <;> simp <;> omega
    | num s' e f =>
      have := magnitude_lt_infMag e f
      simp only [eq, place, signed_eq]
      cases s <;> cases s' <;> simp <;> omega
  | num s e f =>
    have := magnitude_lt_infMag e f
    cases b with
    | nan => simp [isNan] at hb
    | inf s' =>
      simp only [eq, place, signed_eq]
      cases s <;> cases s' <;> simp <;> omega
    | num s' e' f' => simp [eq, place]

theorem le_iff_place {a b : F32} (ha : a.isNan = false) (hb : b.isNan = false) : a.le b = true ↔ a.place ≤ b.place := by
  rw [le, Bool.or_eq_true, lt_iff_place ha hb, eq_iff_place ha hb]
  omega

/-- A comparison that holds has no NaN operand (00_scope.md R9). -/
theorem not_nan_of_lt {a b : F32} (h : a.lt b = true) : a.isNan = false ∧ b.isNan = false := by
  cases a <;> cases b <;> simp_all [lt, isNan]

theorem not_nan_of_eq {a b : F32} (h : a.eq b = true) : a.isNan = false ∧ b.isNan = false := by
  cases a <;> cases b <;> simp_all [eq, isNan]

theorem not_nan_of_le {a b : F32} (h : a.le b = true) : a.isNan = false ∧ b.isNan = false := by
  rw [le, Bool.or_eq_true] at h
  rcases h with h | h
  · exact not_nan_of_lt h
  · exact not_nan_of_eq h

theorem isNan_of_isFinite {a : F32} (h : a.isFinite = true) : a.isNan = false := by
  cases a <;> simp_all [isFinite, isNan]

/-! Rounding on the line. -/

theorem ofMagnitudeBits_not_nan (s : Bool) (g : Nat) : (ofMagnitudeBits s g).isNan = false := by
  unfold ofMagnitudeBits; split <;> rfl

/-- The place of a rounded value: its magnitude, cut off at infinity's. -/
theorem place_ofMagnitudeBits (s : Bool) (g : Nat) :
    (ofMagnitudeBits s g).place = signed s (magOf (Min.min g (255 * 2 ^ 23))) := by
  rcases Nat.lt_or_ge g (255 * 2 ^ 23) with h | h
  · obtain ⟨e, f, h1, h2⟩ := ofMagnitudeBits_of_lt s h
    rw [h1, Nat.min_eq_left (le_of_lt h)]
    simp only [place]
    rw [magnitude_eq_magOf, ← h2]
  · rw [ofMagnitudeBits_of_ge s h, Nat.min_eq_right h]
    simp only [place]
    rw [infMag_eq]

theorem round_not_nan (s : Bool) (n d : Nat) : (round s n d).isNan = false := ofMagnitudeBits_not_nan _ _

theorem place_round (s : Bool) (n d : Nat) : (round s n d).place = signed s (magOf (Min.min (roundBits n d) (255 * 2 ^ 23))) :=
  place_ofMagnitudeBits _ _

/-- The magnitude a whole number of units rounds to. -/
def roundMag (m : Nat) : Nat := magOf (Min.min (roundBits m 1) (255 * 2 ^ 23))

theorem roundMag_mono {a b : Nat} (h : a ≤ b) : roundMag a ≤ roundMag b := by
  unfold roundMag
  rw [magOf_le_magOf]
  exact min_le_min_right _ (roundBits_mono Nat.one_pos Nat.one_pos (by omega))

theorem roundMag_exact {g : Nat} (h : g ≤ 255 * 2 ^ 23) : roundMag (magOf g) = magOf g := by
  unfold roundMag
  have := roundBits_exact (g := g) Nat.one_pos
  rw [Nat.mul_one] at this
  rw [this, Nat.min_eq_left h]

theorem roundMag_zero : roundMag 0 = 0 := by
  have := roundMag_exact (g := 0) (Nat.zero_le _)
  simpa [magOf] using this

/-- Where a whole number of units rounds to on the line. -/
def roundPlace (x : Int) : Int := signed (decide (x < 0)) (roundMag x.natAbs)

theorem roundPlace_of_nonneg {x : Int} (h : 0 ≤ x) : roundPlace x = roundMag x.natAbs := by
  unfold roundPlace
  rw [decide_eq_false (by omega), signed_false]

theorem roundPlace_of_neg {x : Int} (h : x < 0) : roundPlace x = -(roundMag x.natAbs : Int) := by
  unfold roundPlace
  rw [decide_eq_true h, signed_true]

/-- Rounding is monotone (00_scope.md R7). -/
theorem roundPlace_mono {x y : Int} (h : x ≤ y) : roundPlace x ≤ roundPlace y := by
  rcases lt_or_ge x 0 with hx | hx
  · rw [roundPlace_of_neg hx]
    rcases lt_or_ge y 0 with hy | hy
    · rw [roundPlace_of_neg hy]
      have := roundMag_mono (show y.natAbs ≤ x.natAbs by omega)
      omega
    · rw [roundPlace_of_nonneg hy]; omega
  · rw [roundPlace_of_nonneg hx, roundPlace_of_nonneg (by omega)]
    exact_mod_cast roundMag_mono (show x.natAbs ≤ y.natAbs by omega)

@[simp] theorem roundPlace_zero : roundPlace 0 = 0 := by
  rw [roundPlace_of_nonneg (le_refl _)]
  simp [roundMag_zero]

theorem roundPlace_neg (x : Int) : roundPlace (-x) = -roundPlace x := by
  rcases lt_trichotomy x 0 with h | h | h
  · rw [roundPlace_of_nonneg (by omega), roundPlace_of_neg h, Int.natAbs_neg]; omega
  · subst h; simp
  · rw [roundPlace_of_neg (by omega), roundPlace_of_nonneg (by omega), Int.natAbs_neg]

/-- A value's own place is kept by rounding. -/
theorem roundPlace_place (a : F32) : roundPlace a.place = a.place := by
  have key : ∀ (s : Bool) (g : Nat), g ≤ 255 * 2 ^ 23 → roundPlace (signed s (magOf g)) = signed s (magOf g) := by
    intro s g hg
    cases s
    · rw [signed_false, roundPlace_of_nonneg (by omega), Int.natAbs_natCast, roundMag_exact hg]
    · rw [signed_true, roundPlace_neg, roundPlace_of_nonneg (by omega), Int.natAbs_natCast, roundMag_exact hg]
  cases a with
  | nan => exact roundPlace_zero
  | inf s =>
    simp only [place]
    rw [infMag_eq]
    exact key s _ (le_refl _)
  | num s e f =>
    simp only [place]
    rw [magnitude_eq_magOf]
    exact key s _ (le_of_lt (bits_lt e f))

theorem roundInt_not_nan (z : Bool) (x : Int) : (roundInt z x).isNan = false := by
  unfold roundInt; split <;> first | rfl | exact round_not_nan _ _ _

theorem place_roundInt (z : Bool) (x : Int) : (roundInt z x).place = roundPlace x := by
  unfold roundInt
  split
  · have h : magnitude 0 0#23 = 0 := rfl
    show signed z (magnitude 0 0#23) = roundPlace 0
    rw [h, roundPlace_zero]; rfl
  · rename_i m
    have h : (Int.ofNat m.succ) = ((m + 1 : Nat) : Int) := rfl
    rw [place_round, signed_false, h, roundPlace_of_nonneg (Int.natCast_nonneg (m + 1))]
    rfl
  · rename_i m
    rw [place_round, signed_true, roundPlace_of_neg (Int.negSucc_lt_zero m)]
    rfl

/-! Operators on finite values. -/

theorem add_num (s : Bool) (e : Fin 255) (f : BitVec 23) (s' : Bool) (e' : Fin 255) (f' : BitVec 23) :
    add (.num s e f) (.num s' e' f') = addFinite s e f s' e' f' := rfl

/-- The sum of finite values is no NaN and stands where the exact sum rounds to (00_scope.md R8). -/
theorem add_finite {a b : F32} (ha : a.isFinite = true) (hb : b.isFinite = true) :
    (a.add b).isNan = false ∧ (a.add b).place = roundPlace (a.place + b.place) := by
  cases a with
  | nan => simp [isFinite] at ha
  | inf => simp [isFinite] at ha
  | num s e f =>
    cases b with
    | nan => simp [isFinite] at hb
    | inf => simp [isFinite] at hb
    | num s' e' f' => exact ⟨roundInt_not_nan _ _, place_roundInt _ _⟩

/-- The difference of finite values is no NaN and stands where the exact difference rounds to (00_scope.md R8). -/
theorem sub_finite {a b : F32} (ha : a.isFinite = true) (hb : b.isFinite = true) :
    (a.sub b).isNan = false ∧ (a.sub b).place = roundPlace (a.place - b.place) := by
  cases a with
  | nan => simp [isFinite] at ha
  | inf => simp [isFinite] at ha
  | num s e f =>
    cases b with
    | nan => simp [isFinite] at hb
    | inf => simp [isFinite] at hb
    | num s' e' f' =>
      refine ⟨roundInt_not_nan _ _, ?_⟩
      have : signed (!s') (magnitude e' f') = -signed s' (magnitude e' f') := signed_not _ _
      show (roundInt _ _).place = _
      rw [place_roundInt, this]
      rfl

theorem place_neg (a : F32) : a.neg.place = -a.place := by
  cases a with
  | nan => rfl
  | inf s => exact signed_not s infMag
  | num s e f => exact signed_not s (magnitude e f)

theorem isNan_neg (a : F32) : a.neg.isNan = a.isNan := by cases a <;> rfl

theorem isFinite_neg (a : F32) : a.neg.isFinite = a.isFinite := by cases a <;> rfl

theorem neg_neg (a : F32) : a.neg.neg = a := by cases a <;> simp [neg]

theorem neg_round (s : Bool) (n d : Nat) : (round s n d).neg = round (!s) n d := by
  simp only [round_eq, ofMagnitudeBits]
  split <;> rfl

theorem place_nonneg_iff (s : Bool) (m : Nat) : 0 ≤ signed s m ↔ s = false ∨ m = 0 := by
  cases s
  · simp [signed_false]
  · simp [signed_true]

theorem mul_num (s : Bool) (e : Fin 255) (f : BitVec 23) (s' : Bool) (e' : Fin 255) (f' : BitVec 23) :
    mul (.num s e f) (.num s' e' f') =
      if magnitude e f == 0 || magnitude e' f' == 0 then .num (s ^^ s') 0 0#23
      else round (s ^^ s') (magnitude e f * magnitude e' f') (2 ^ 149) := rfl

theorem place_zero (s : Bool) : (F32.num s 0 0#23).place = 0 := by
  have h : magnitude 0 0#23 = 0 := rfl
  simp only [place]
  rw [h]; rfl

theorem place_num (s : Bool) (e : Fin 255) (f : BitVec 23) : (F32.num s e f).place = signed s (magnitude e f) := rfl

/-- A product of finite values is no NaN, and its sign is that of the exact product (00_scope.md R8). -/
theorem mul_finite {a b : F32} (ha : a.isFinite = true) (hb : b.isFinite = true) :
    (a.mul b).isNan = false ∧
      (0 ≤ a.place → 0 ≤ b.place → 0 ≤ (a.mul b).place) ∧ (a.place ≤ 0 → 0 ≤ b.place → (a.mul b).place ≤ 0) := by
  cases a with
  | nan => simp [isFinite] at ha
  | inf => simp [isFinite] at ha
  | num s e f =>
    cases b with
    | nan => simp [isFinite] at hb
    | inf => simp [isFinite] at hb
    | num s' e' f' =>
      rw [mul_num]
      by_cases hz : (magnitude e f == 0 || magnitude e' f' == 0) = true
      · rw [if_pos hz, place_zero]
        exact ⟨rfl, fun _ _ => le_refl _, fun _ _ => le_refl _⟩
      · rw [if_neg hz]
        have h1 : magnitude e f ≠ 0 := by intro h; exact hz (by simp [h])
        have h2 : magnitude e' f' ≠ 0 := by intro h; exact hz (by simp [h])
        refine ⟨round_not_nan _ _ _, fun h h' => ?_, fun h h' => ?_⟩
        · rw [place_num, place_nonneg_iff] at h h'
          rw [place_round, place_nonneg_iff]
          left
          rcases h with h | h <;> rcases h' with h' | h' <;> simp_all
        · rw [place_num] at h h'
          rw [place_nonneg_iff] at h'
          have hs' : s' = false := by rcases h' with h' | h' <;> simp_all
          have hs : s = true := by
            cases s
            · rw [signed_false] at h; omega
            · rfl
          subst hs; subst hs'
          rw [place_round, Bool.xor_false, signed_true]; omega

end Sys2Proof.F32
end

