-- ==== Sys2Proof/Laws/FloatBounds.lean ====
section
/-! SUPPORT. Bounds and signs of the binary32 operators: when a result is finite, that a sum moves the way of its second
operand, and how a product is bounded. -/

namespace Sys2Proof.F32

theorem isFinite_of_place {a : F32} (hn : a.isNan = false) (h : a.place.natAbs < infMag) : a.isFinite = true := by
  cases a with
  | nan => simp [isNan] at hn
  | inf s =>
    simp only [place] at h
    rw [natAbs_signed] at h
    exact absurd h (lt_irrefl _)
  | num => rfl

theorem place_natAbs_lt {a : F32} (h : a.isFinite = true) : a.place.natAbs < infMag := by
  cases a with
  | nan => simp [isFinite] at h
  | inf => simp [isFinite] at h
  | num s e f => rw [place_num, natAbs_signed]; exact magnitude_lt_infMag e f

theorem place_le_infMag (a : F32) : -(infMag : Int) ≤ a.place ∧ a.place ≤ infMag := by
  have hp := infMag_pos
  cases a with
  | nan => simp only [place]; omega
  | inf s => simp only [place, signed_eq]; cases s <;> simp
  | num s e f =>
    have := magnitude_lt_infMag e f
    simp only [place, signed_eq]; cases s <;> simp <;> omega

theorem magOf_lt_infMag {g : Nat} (h : g < 255 * 2 ^ 23) : magOf g < infMag := by
  rw [infMag_eq]; exact magOf_strictMono h

/-- Rounding does not leave an interval between representable magnitudes. -/
theorem roundPlace_bounds {x : Int} {g h : Nat} (hg : g ≤ 255 * 2 ^ 23) (hh : h ≤ 255 * 2 ^ 23)
    (h1 : -(magOf g : Int) ≤ x) (h2 : x ≤ magOf h) : -(magOf g : Int) ≤ roundPlace x ∧ roundPlace x ≤ magOf h := by
  have e1 : roundPlace (magOf g : Int) = magOf g := by
    rw [roundPlace_of_nonneg (Int.natCast_nonneg _), Int.natAbs_natCast, roundMag_exact hg]
  have e2 : roundPlace (magOf h : Int) = magOf h := by
    rw [roundPlace_of_nonneg (Int.natCast_nonneg _), Int.natAbs_natCast, roundMag_exact hh]
  refine ⟨?_, ?_⟩
  · rw [← e1, ← roundPlace_neg]; exact roundPlace_mono h1
  · rw [← e2]; exact roundPlace_mono h2

/-- A sum of a finite value and one that is no NaN is no NaN, and it is not below the first where the second is not
negative, nor above it where the second is not positive (00_scope.md R7, R8). -/
theorem add_toward {a y : F32} (ha : a.isFinite = true) (hy : y.isNan = false) :
    (a.add y).isNan = false ∧ (0 ≤ y.place → a.place ≤ (a.add y).place) ∧ (y.place ≤ 0 → (a.add y).place ≤ a.place) := by
  cases y with
  | nan => simp [isNan] at hy
  | inf s =>
    cases a with
    | nan => simp [isFinite] at ha
    | inf => simp [isFinite] at ha
    | num sa e f =>
      have hb := place_natAbs_lt ha
      have hp := infMag_pos
      have e1 : add (.num sa e f) (.inf s) = .inf s := rfl
      rw [e1]
      have e2 : (F32.inf s).place = signed s infMag := rfl
      rw [e2]
      refine ⟨rfl, ?_, ?_⟩ <;> rw [signed_eq] <;> cases s <;> simp <;> omega
  | num s e f =>
    have h := add_finite ha (b := .num s e f) rfl
    refine ⟨h.1, fun h0 => ?_, fun h0 => ?_⟩
    · rw [h.2]
      conv_lhs => rw [← roundPlace_place a]
      exact roundPlace_mono (by omega)
    · rw [h.2]
      conv_rhs => rw [← roundPlace_place a]
      exact roundPlace_mono (by omega)

/-- A product with a positive finite value is no NaN and keeps its sign (00_scope.md R8). -/
theorem mul_pos_sign {x d : F32} (hx : x.isNan = false) (hd : d.isFinite = true) (hd0 : 0 < d.place) :
    (x.mul d).isNan = false ∧ (0 ≤ x.place → 0 ≤ (x.mul d).place) ∧ (x.place ≤ 0 → (x.mul d).place ≤ 0) := by
  cases x with
  | nan => simp [isNan] at hx
  | num s e f =>
    have h := mul_finite (a := .num s e f) rfl hd
    exact ⟨h.1, fun h0 => h.2.1 h0 (le_of_lt hd0), fun h0 => h.2.2 h0 (le_of_lt hd0)⟩
  | inf s =>
    cases d with
    | nan => simp [isFinite] at hd
    | inf => simp [isFinite] at hd
    | num s' e' f' =>
      rw [place_num] at hd0
      have hm : magnitude e' f' ≠ 0 := by
        intro h0; rw [h0] at hd0; simp at hd0
      have hs : s' = false := by
        cases s'
        · rfl
        · rw [signed_true] at hd0; omega
      subst hs
      have e1 : mul (.inf s) (.num false e' f') = .inf (s ^^ false) := by
        show (if magnitude e' f' = 0 then _ else _) = _
        rw [if_neg hm]
      rw [e1, Bool.xor_false]
      exact ⟨rfl, id, id⟩

/-- A product is no larger in magnitude than a factor whose other factor is at most 1 (00_scope.md R7, R8). -/
theorem mul_natAbs_le {a b : F32} (ha : a.isFinite = true) (hb : b.isFinite = true) (h : b.place.natAbs ≤ 2 ^ 149) :
    (a.mul b).place.natAbs ≤ a.place.natAbs := by
  cases a with
  | nan => simp [isFinite] at ha
  | inf => simp [isFinite] at ha
  | num s e f =>
    cases b with
    | nan => simp [isFinite] at hb
    | inf => simp [isFinite] at hb
    | num s' e' f' =>
      rw [place_num, natAbs_signed] at h
      rw [mul_num, place_num, natAbs_signed]
      by_cases hz : (magnitude e f == 0 || magnitude e' f' == 0) = true
      · rw [if_pos hz, place_zero]; exact Nat.zero_le _
      · rw [if_neg hz, place_round, natAbs_signed, magnitude_eq_magOf, magOf_le_magOf]
        apply le_trans (Nat.min_le_left _ _)
        have hp : 0 < 2 ^ 149 := Nat.two_pow_pos 149
        have h1 := roundBits_mono (n := magOf (e.val * 2 ^ 23 + f.toNat) * magnitude e' f') (d := 2 ^ 149)
          (n' := magOf (e.val * 2 ^ 23 + f.toNat) * 1) (d' := 1) hp Nat.one_pos
          (by rw [Nat.mul_one, Nat.mul_one]; exact Nat.mul_le_mul_left _ h)
        rwa [roundBits_exact Nat.one_pos] at h1

theorem sub_finite_of_bounds {a b : F32} (ha : a.isFinite = true) (hb : b.isFinite = true) {g : Nat}
    (hg : g < 255 * 2 ^ 23) (h : (a.place - b.place).natAbs ≤ magOf g) :
    (a.sub b).isFinite = true ∧ (a.sub b).place = roundPlace (a.place - b.place) := by
  have hs := sub_finite ha hb
  refine ⟨isFinite_of_place hs.1 ?_, hs.2⟩
  rw [hs.2]
  have hb := roundPlace_bounds (x := a.place - b.place) (g := g) (h := g) (le_of_lt hg) (le_of_lt hg) (by omega) (by omega)
  have := magOf_lt_infMag hg
  omega

theorem add_finite_of_bounds {a b : F32} (ha : a.isFinite = true) (hb : b.isFinite = true) {g : Nat}
    (hg : g < 255 * 2 ^ 23) (h : (a.place + b.place).natAbs ≤ magOf g) :
    (a.add b).isFinite = true ∧ (a.add b).place = roundPlace (a.place + b.place) := by
  have hs := add_finite ha hb
  refine ⟨isFinite_of_place hs.1 ?_, hs.2⟩
  rw [hs.2]
  have hb := roundPlace_bounds (x := a.place + b.place) (g := g) (h := g) (le_of_lt hg) (le_of_lt hg) (by omega) (by omega)
  have := magOf_lt_infMag hg
  omega

/-- Finite factors commute (00_scope.md R8). -/
theorem mul_comm_finite {a b : F32} (ha : a.isFinite = true) (hb : b.isFinite = true) : a.mul b = b.mul a := by
  cases a with
  | nan => simp [isFinite] at ha
  | inf => simp [isFinite] at ha
  | num s e f =>
    cases b with
    | nan => simp [isFinite] at hb
    | inf => simp [isFinite] at hb
    | num s' e' f' =>
      rw [mul_num, mul_num, Bool.or_comm, Bool.xor_comm, Nat.mul_comm]

theorem magOf_one : magOf (127 * 2 ^ 23) = 2 ^ 149 := by decide

theorem magOf_two : magOf (128 * 2 ^ 23) = 2 ^ 150 := by decide

end Sys2Proof.F32
end

