-- ==== Sys2Proof/Laws/Oscillator.lean ====
section
/-! SUPPORT. Laws of the generators and the oscillator update: what a generator may write, the XorShift state, and where
the phase and the advance stand after an update (41_waveforms.md R160, R168, R176; 42_oscillator_lfo.md R200 to R202). -/

namespace Sys2Proof.Machine

theorem eq_zero_of_xor_shiftLeft {x : Word} {k : Nat} (hk : 0 < k) (h : x ^^^ (x <<< k) = 0#32) : x = 0#32 := by
  have hb : ∀ i, x.getLsbD i = false := by
    intro i
    induction i using Nat.strong_induction_on with
    | _ i ih =>
      have h1 := congrArg (fun y => y.getLsbD i) h
      simp only [BitVec.getLsbD_xor, BitVec.getLsbD_shiftLeft, BitVec.getLsbD_zero] at h1
      by_cases hi : i < k
      · simpa [hi] using h1
      · rw [ih (i - k) (by omega)] at h1
        simpa using h1
  exact BitVec.eq_of_getLsbD_eq fun i _ => by simp [hb i]

theorem eq_zero_of_xor_ushiftRight {x : Word} {k : Nat} (hk : 0 < k) (h : x ^^^ (x >>> k) = 0#32) : x = 0#32 := by
  have hb : ∀ n i, 32 ≤ i + n → x.getLsbD i = false := by
    intro n
    induction n with
    | zero => intro i hi; exact BitVec.getLsbD_of_ge _ _ (by omega)
    | succ n ih =>
      intro i hi
      have h1 := congrArg (fun y => y.getLsbD i) h
      simp only [BitVec.getLsbD_xor, BitVec.getLsbD_ushiftRight, BitVec.getLsbD_zero] at h1
      rw [ih (k + i) (by omega)] at h1
      simpa using h1
  exact BitVec.eq_of_getLsbD_eq fun i _ => by simp [hb 32 i (by omega)]

/-- A step of the noise generator takes only 0 to 0 (10_state.md R35). -/
theorem xorshift32_eq_zero {x : Word} (h : xorshift32 x = 0#32) : x = 0#32 :=
  eq_zero_of_xor_shiftLeft (by decide)
    (eq_zero_of_xor_ushiftRight (by decide) (eq_zero_of_xor_shiftLeft (k := 5) (by decide) h))

theorem waveCycle_pos (w : WaveType) : 0 < waveCycle w := by cases w <;> decide

theorem waveCycle_le (w : WaveType) : waveCycle w ≤ 4063201 := by cases w <;> decide

/-- The index a table wave steps to is in its cycle (41_waveforms.md R168). -/
theorem tableIndex_lt (w : WaveType) (j : Int) : (j % (waveCycle w : Int)).toNat < waveCycle w := by
  have h := waveCycle_pos w
  have h1 := Int.emod_nonneg j (show (waveCycle w : Int) ≠ 0 by omega)
  have h2 := Int.emod_lt_of_pos j (show (0 : Int) < waveCycle w by omega)
  omega

theorem waveGen_nyquist {aa : Bool} {wt : WaveType} {width : F32} {st : OscState} {seed : Word} {step : F32}
    (h : Const.half.lt step = true) : waveGen aa wt width st seed step = ⟨zeroF, st, seed⟩ := by
  unfold waveGen; rw [if_pos h]

/-- What a generator that runs writes: a table wave its index and advance, noise the seed, the others nothing
(41_waveforms.md R160, R168, R176). -/
theorem waveGen_run {aa : Bool} {wt : WaveType} {width : F32} {st : OscState} {seed : Word} {step : F32}
    (h : Const.half.lt step = false) :
    (waveGen aa wt width st seed step).st =
        (if wt.tableDriven then ⟨st.phase, 0, ((st.index + st.advance) % (waveCycle wt : Int)).toNat⟩ else st) ∧
      (waveGen aa wt width st seed step).seed = if wt = .noise then xorshift32 seed else seed := by
  unfold waveGen
  rw [h, if_neg (by decide)]
  cases wt <;> exact ⟨rfl, rfl⟩

/-- No generator writes the phase (41_waveforms.md R160). -/
theorem waveGen_phase (aa : Bool) (wt : WaveType) (width : F32) (st : OscState) (seed : Word) (step : F32) :
    (waveGen aa wt width st seed step).st.phase = st.phase := by
  cases h : Const.half.lt step
  · rw [(waveGen_run h).1]; split <;> rfl
  · rw [waveGen_nyquist h]

theorem waveGen_index_lt {aa : Bool} {wt : WaveType} {width : F32} {st : OscState} {seed : Word} {step : F32}
    (h : st.index < 4063201) : (waveGen aa wt width st seed step).st.index < 4063201 := by
  cases hn : Const.half.lt step
  · rw [(waveGen_run hn).1]
    split
    · exact lt_of_lt_of_le (tableIndex_lt wt _) (waveCycle_le wt)
    · exact h
  · rw [waveGen_nyquist hn]; exact h

theorem waveGen_seed_ne {aa : Bool} {wt : WaveType} {width : F32} {st : OscState} {seed : Word} {step : F32}
    (h : seed ≠ 0#32) : (waveGen aa wt width st seed step).seed ≠ 0#32 := by
  cases hn : Const.half.lt step
  · rw [(waveGen_run hn).2]
    split
    · exact fun h0 => h (xorshift32_eq_zero h0)
    · exact h
  · rw [waveGen_nyquist hn]; exact h

/-! Where the phase and the advance stand after an update. -/

theorem place_one : Const.one.place = 2 ^ 149 := by decide

theorem place_zeroF : zeroF.place = 0 := by decide

theorem one_isFinite : Const.one.isFinite = true := by decide

theorem zeroF_isFinite : zeroF.isFinite = true := by decide

theorem phaseOk_iff {p : F32} : phaseOk p = true ↔ p.isNan = false ∧ 0 ≤ p.place ∧ p.place < 2 ^ 149 := by
  unfold phaseOk
  rw [Bool.and_eq_true]
  constructor
  · rintro ⟨h1, h2⟩
    have hn := (F32.not_nan_of_le h1).2
    rw [F32.le_iff_place rfl hn, place_zeroF] at h1
    rw [F32.lt_iff_place hn rfl, place_one] at h2
    exact ⟨hn, h1, h2⟩
  · rintro ⟨hn, h1, h2⟩
    rw [F32.le_iff_place rfl hn, place_zeroF, F32.lt_iff_place hn rfl, place_one]
    exact ⟨h1, h2⟩

theorem phaseOk_zeroF : phaseOk zeroF = true := by decide

/-- Rounding a magnitude no larger than a finite one is finite. -/
theorem isFinite_roundInt (z : Bool) {x : Int} {g : Nat} (hg : g < 255 * 2 ^ 23) (h : x.natAbs ≤ F32.magOf g) :
    (F32.roundInt z x).isFinite = true := by
  have key : ∀ (s : Bool) (m : Nat), m ≤ F32.magOf g → (F32.round s m 1).isFinite = true := by
    intro s m hm
    have h1 : F32.roundBits m 1 ≤ g := by
      have h2 := F32.roundBits_mono (n := m) (d := 1) (n' := F32.magOf g * 1) (d' := 1) Nat.one_pos Nat.one_pos (by omega)
      rwa [F32.roundBits_exact Nat.one_pos] at h2
    obtain ⟨e, f, h3, -⟩ := F32.ofMagnitudeBits_of_lt s (g := F32.roundBits m 1) (by omega)
    rw [F32.round_eq, h3]; rfl
  unfold F32.roundInt
  split
  · rfl
  · exact key _ _ h
  · exact key _ _ h

theorem magOf_two_pow_180 : F32.magOf (158 * 2 ^ 23) = 2 ^ 180 := by decide

theorem units_eq_place {s : F32} {u : Int} (h : s.units? = some u) : s.isFinite = true ∧ s.place = u := by
  cases s with
  | nan => simp [F32.units?] at h
  | inf => simp [F32.units?] at h
  | num s e f =>
    simp only [F32.units?, Option.some.injEq] at h
    exact ⟨rfl, h⟩

/-- The greatest binary32 value below 2^31 is a whole number well below it. -/
theorem place_lt_of_lt {s : F32} (hs : s.isFinite = true) (h : s.place < 2 ^ 180) : s.place ≤ 2 ^ 180 - 2 ^ 156 := by
  cases s with
  | nan => simp [F32.isFinite] at hs
  | inf => simp [F32.isFinite] at hs
  | num s e f =>
    rw [F32.place_num] at h ⊢
    cases s
    · rw [F32.signed_false, F32.magnitude_eq_magOf] at h ⊢
      have h1 : F32.magOf (e.val * 2 ^ 23 + f.toNat) < F32.magOf (158 * 2 ^ 23) := by
        rw [magOf_two_pow_180]; exact_mod_cast h
      have h2 := F32.magOf_strictMono.lt_iff_lt.1 h1
      have h3 := F32.magOf_le_magOf.2 (show e.val * 2 ^ 23 + f.toNat ≤ 158 * 2 ^ 23 - 1 by omega)
      have h4 : F32.magOf (158 * 2 ^ 23 - 1) = 2 ^ 180 - 2 ^ 156 := by decide
      omega
    · rw [F32.signed_true]; omega

/-- After steps 3 and 4 of an update the phase is in `[0, 1)`, the advance fits 32 bits and the index is kept
(42_oscillator_lfo.md R200 to R202). -/
theorem wrapPhase_ok (st : OscState) (s : F32) :
    phaseOk (wrapPhase st s).phase = true ∧ -(2 ^ 31) ≤ (wrapPhase st s).advance ∧ (wrapPhase st s).advance < 2 ^ 31 ∧
      (wrapPhase st s).index = st.index := by
  unfold wrapPhase
  split
  · exact ⟨phaseOk_zeroF, by dsimp only; omega, by dsimp only; omega, rfl⟩
  · rename_i a ha
    simp only [F32.floor?, Option.map_eq_some_iff] at ha
    obtain ⟨u, hu, rfl⟩ := ha
    obtain ⟨hfin, hplace⟩ := units_eq_place hu
    split
    · exact ⟨phaseOk_zeroF, by dsimp only; omega, by dsimp only; omega, rfl⟩
    · rename_i hlt
      have hb : (u / 2 ^ 149).natAbs < 2 ^ 31 := by omega
      have hf : (F32.ofInt (u / 2 ^ 149)).isFinite = true := by
        apply isFinite_roundInt (g := 158 * 2 ^ 23) _ (by decide)
        rw [magOf_two_pow_180, Int.natAbs_mul]
        have h1 : (u / 2 ^ 149).natAbs * (2 ^ 149 : Int).natAbs ≤ 2 ^ 31 * 2 ^ 149 := by
          apply Nat.mul_le_mul (le_of_lt hb); decide
        exact le_trans h1 (by decide)
      have hsub := F32.sub_finite hfin hf
      have hp0 : 0 ≤ (s.sub (F32.ofInt (u / 2 ^ 149))).place := by
        rw [hsub.2]
        have h1 : (F32.ofInt (u / 2 ^ 149)).place ≤ s.place := by
          rw [← F32.roundPlace_place s]
          unfold F32.ofInt
          rw [F32.place_roundInt]
          apply F32.roundPlace_mono
          rw [hplace]
          exact Int.ediv_mul_le u (by decide)
        rw [← F32.roundPlace_zero]
        exact F32.roundPlace_mono (by omega)
      have hu' : u / 2 ^ 149 + 1 < 2 ^ 31 := by
        have h1 : s.place < 2 ^ 180 := by rw [hplace]; omega
        have h2 := place_lt_of_lt hfin h1
        rw [hplace] at h2
        omega
      dsimp only
      split
      · exact ⟨phaseOk_zeroF, by show -(2 ^ 31) ≤ u / 2 ^ 149 + 1; omega, hu', rfl⟩
      · rename_i hle
        refine ⟨?_, ?_, ?_, rfl⟩
        · rw [phaseOk_iff]
          refine ⟨hsub.1, hp0, ?_⟩
          rw [F32.le_iff_place rfl hsub.1, place_one] at hle
          exact not_le.1 hle
        · show -(2 ^ 31) ≤ u / 2 ^ 149; omega
        · show u / 2 ^ 149 < 2 ^ 31; omega

/-- An update keeps an oscillator state in its ranges, whatever the operands (42_oscillator_lfo.md R201, R202). -/
theorem oscUpdate_ok (aa : Bool) (cfg : OscCfg) {st : OscState} (seed : Word) (scale dt : F32) (h : st.index < 4063201) :
    (oscUpdate aa cfg st seed scale dt).st.Ok := by
  have hw := wrapPhase_ok
    (waveGen aa cfg.waveType cfg.width st seed (phaseStep cfg.frequency scale dt)).st
    (st.phase.add (phaseStep cfg.frequency scale dt))
  exact ⟨hw.1, hw.2.1, hw.2.2.1, by
    show (wrapPhase _ _).index < _
    rw [hw.2.2.2]; exact waveGen_index_lt h⟩

theorem oscUpdate_seed_ne {aa : Bool} {cfg : OscCfg} {st : OscState} {seed : Word} {scale dt : F32} (h : seed ≠ 0#32) :
    (oscUpdate aa cfg st seed scale dt).seed ≠ 0#32 := waveGen_seed_ne h

end Sys2Proof.Machine
end

