-- ==== Sys2Proof/Laws/Envelope.lean ====
section
/-! SUPPORT. Laws of the envelope update: the stages it can lead to, and that an amplitude in `[0, 1]` stays there
(43_envelope.md R230 to R240; 10_state.md R31). -/

namespace Sys2Proof.Machine

/-- An update neither presses nor releases the key (43_envelope.md R238). -/
theorem envUpdate_held (c : EnvCfg) (dt : F32) (e : EnvState) : (envUpdate c dt e).stage.held = e.stage.held := by
  obtain ⟨stage, a⟩ := e
  cases stage
  · rfl
  · show (envAttack c dt a).stage.held = _
    unfold envAttack
    dsimp only
    split
    · dsimp only; split <;> rfl
    · rfl
  · show (envDecay c dt a).stage.held = _
    unfold envDecay
    dsimp only
    split <;> rfl
  · rfl
  · show (envRelease c dt a).stage.held = _
    unfold envRelease
    dsimp only
    split <;> rfl

/-- An envelope that an update leaves `OFF` has amplitude +0.0 (10_state.md R31). -/
theorem envUpdate_ok (c : EnvCfg) (dt : F32) {e : EnvState} (h : e.Ok) : (envUpdate c dt e).Ok := by
  obtain ⟨stage, a⟩ := e
  cases stage
  · exact h
  · intro h1
    have h2 := envUpdate_held c dt ⟨.attack, a⟩
    rw [h1] at h2; cases h2
  · intro h1
    have h2 := envUpdate_held c dt ⟨.decay, a⟩
    rw [h1] at h2; cases h2
  · exact h
  · intro h1
    change (envRelease c dt a).stage = .off at h1
    show (envRelease c dt a).amplitude = zeroF
    unfold envRelease at h1 ⊢
    dsimp only at h1 ⊢
    split
    · rfl
    · rename_i h2; rw [if_neg h2] at h1; cases h1

/-! The amplitude's range. -/

theorem unitRange_iff {a : F32} : unitRange a = true ↔ a.isFinite = true ∧ 0 ≤ a.place ∧ a.place ≤ 2 ^ 149 := by
  unfold unitRange
  rw [Bool.and_eq_true]
  constructor
  · rintro ⟨h1, h2⟩
    have hn := (F32.not_nan_of_le h1).2
    rw [F32.le_iff_place rfl hn, place_zeroF] at h1
    rw [F32.le_iff_place hn rfl, place_one] at h2
    refine ⟨F32.isFinite_of_place hn ?_, h1, h2⟩
    have h3 := F32.magOf_lt_infMag (g := 127 * 2 ^ 23) (by decide)
    rw [F32.magOf_one] at h3
    omega
  · rintro ⟨hf, h1, h2⟩
    have hn := F32.isNan_of_isFinite hf
    rw [F32.le_iff_place rfl hn, place_zeroF, F32.le_iff_place hn rfl, place_one]
    exact ⟨h1, h2⟩

/-- A step toward a target at or above the amplitude does not lower it; toward one at or below, it does not raise it
(43_envelope.md R232, R233, R235). -/
theorem approach_toward {a target rate dt : F32} (ha : a.isFinite = true) (hd : (target.sub a).isFinite = true)
    (hr : rate.isFinite = true) (hr0 : 0 ≤ rate.place) (hdt : dt.isFinite = true) (hdt0 : 0 < dt.place) :
    (approach a target rate dt).isNan = false ∧
      (0 ≤ (target.sub a).place → a.place ≤ (approach a target rate dt).place) ∧
      ((target.sub a).place ≤ 0 → (approach a target rate dt).place ≤ a.place) := by
  have h1 := F32.mul_finite hd hr
  have h2 := F32.mul_pos_sign h1.1 hdt hdt0
  have h3 := F32.add_toward ha h2.1
  exact ⟨h3.1, fun h => h3.2.1 (h2.2.1 (h1.2.1 h hr0)), fun h => h3.2.2 (h2.2.2 (h1.2.2 h hr0))⟩

theorem unitRange_one : unitRange Const.one = true := by decide

theorem unitRange_zeroF : unitRange zeroF = true := by decide

/-- The distance from an amplitude in `[0, 1]` to a target in `[-1, 2]` is finite. -/
theorem sub_isFinite {target a : F32} (ht : target.isFinite = true) (h1 : -(2 ^ 149) ≤ target.place)
    (h2 : target.place ≤ 2 ^ 150) (ha : a.isFinite = true) (h3 : 0 ≤ a.place) (h4 : a.place ≤ 2 ^ 149) :
    (target.sub a).isFinite = true ∧ (target.sub a).place = F32.roundPlace (target.place - a.place) := by
  apply F32.sub_finite_of_bounds ht ha (g := 129 * 2 ^ 23) (by decide)
  have : F32.magOf (129 * 2 ^ 23) = 2 ^ 151 := by decide
  rw [this]; omega

theorem attackTarget_place : attackTarget.isFinite = true ∧ 2 ^ 149 ≤ attackTarget.place ∧ attackTarget.place ≤ 2 ^ 150 := by
  decide

theorem decayBias_place : Const.decayBias.isFinite = true ∧ Const.decayBias.place ≤ 0 ∧ -(2 ^ 149) ≤ Const.decayBias.place := by
  decide

/-- The attack keeps the range (43_envelope.md R232, R240). -/
theorem envAttack_inRange {c : EnvCfg} {dt a : F32} (hc : c.Legal) (hdt : dt.isFinite = true) (hdt0 : 0 < dt.place)
    (h : unitRange a = true) : (envAttack c dt a).InRange c := by
  rw [unitRange_iff] at h
  obtain ⟨ha, h0, h1⟩ := h
  obtain ⟨t1, t2, t3⟩ := attackTarget_place
  have hs := sub_isFinite t1 (by omega) t3 ha h0 h1
  have hr0 : 0 ≤ c.attackRate.place := by
    have := hc.attack.2
    rwa [F32.le_iff_place rfl (F32.isNan_of_isFinite hc.attack.1), place_zeroF] at this
  have hap := approach_toward ha hs.1 hc.attack.1 hr0 hdt hdt0
  have hup := hap.2.1 (by rw [hs.2, ← F32.roundPlace_zero]; exact F32.roundPlace_mono (by omega))
  unfold envAttack
  dsimp only
  split
  · refine ⟨unitRange_one, fun hd => ?_⟩
    dsimp only at hd ⊢
    split at hd
    · rename_i hlt; rw [F32.le, hlt]; rfl
    · cases hd
  · rename_i hle
    rw [F32.le_iff_place rfl hap.1, place_one] at hle
    refine ⟨?_, fun hd => by cases hd⟩
    rw [unitRange_iff]
    have h5 := F32.magOf_lt_infMag (g := 127 * 2 ^ 23) (by decide)
    rw [F32.magOf_one] at h5
    exact ⟨F32.isFinite_of_place hap.1 (by dsimp only; omega), by dsimp only; omega, by dsimp only; omega⟩

/-- The decay target is at or below the sustain level (43_envelope.md R233). -/
theorem decayTarget_place {s : F32} (h : unitRange s = true) :
    (decayTarget s).isFinite = true ∧ -(2 ^ 149) ≤ (decayTarget s).place ∧ (decayTarget s).place ≤ s.place := by
  rw [unitRange_iff] at h
  obtain ⟨hs, h0, h1⟩ := h
  obtain ⟨b1, b2, b3⟩ := decayBias_place
  have e1 := sub_isFinite one_isFinite (by rw [place_one]; decide) (by rw [place_one]; decide) hs h0 h1
  rw [place_one] at e1
  have d0 : 0 ≤ (Const.one.sub s).place := by
    rw [e1.2, ← F32.roundPlace_zero]; exact F32.roundPlace_mono (by omega)
  have d1 : (Const.one.sub s).place ≤ 2 ^ 149 := by
    rw [e1.2]
    have := (F32.roundPlace_bounds (x := 2 ^ 149 - s.place) (g := 0) (h := 127 * 2 ^ 23) (by decide) (by decide)
      (by have : F32.magOf 0 = 0 := by decide
          rw [this]; omega) (by rw [F32.magOf_one]; push_cast; omega)).2
    rw [F32.magOf_one] at this
    exact_mod_cast this
  have m1 := F32.mul_natAbs_le e1.1 b1 (by omega)
  have m2 : ((Const.one.sub s).mul Const.decayBias).place ≤ 0 := by
    have hc : (Const.one.sub s).mul Const.decayBias = Const.decayBias.mul (Const.one.sub s) := F32.mul_comm_finite e1.1 b1
    rw [hc]
    exact (F32.mul_finite b1 e1.1).2.2 b2 d0
  have m3 : ((Const.one.sub s).mul Const.decayBias).isFinite = true := by
    apply F32.isFinite_of_place (F32.mul_finite e1.1 b1).1
    have := F32.magOf_lt_infMag (g := 127 * 2 ^ 23) (by decide)
    rw [F32.magOf_one] at this
    omega
  have a1 := F32.add_finite_of_bounds hs m3 (g := 129 * 2 ^ 23) (by decide)
    (by have : F32.magOf (129 * 2 ^ 23) = 2 ^ 151 := by decide
        rw [this]; omega)
  refine ⟨a1.1, ?_, (F32.add_toward hs (F32.isNan_of_isFinite m3)).2.2 m2⟩
  show -(2 ^ 149) ≤ (s.add ((Const.one.sub s).mul Const.decayBias)).place
  rw [a1.2]
  have := (F32.roundPlace_bounds (x := s.place + ((Const.one.sub s).mul Const.decayBias).place) (g := 127 * 2 ^ 23)
    (h := 127 * 2 ^ 23) (by decide) (by decide) (by rw [F32.magOf_one]; push_cast; omega)
    (by rw [F32.magOf_one]; push_cast; omega)).1
  rw [F32.magOf_one] at this
  exact_mod_cast this

/-- The decay keeps the range where it starts at or above the sustain level (43_envelope.md R233, R240). -/
theorem envDecay_inRange {c : EnvCfg} {dt a : F32} (hc : c.Legal) (hdt : dt.isFinite = true) (hdt0 : 0 < dt.place)
    (h : unitRange a = true) (hsa : c.sustain.le a = true) : (envDecay c dt a).InRange c := by
  have hst := hc.sustain
  have hs' := unitRange_iff.1 hst
  rw [unitRange_iff] at h
  obtain ⟨ha, h0, h1⟩ := h
  obtain ⟨t1, t2, t3⟩ := decayTarget_place hst
  rw [F32.le_iff_place (F32.isNan_of_isFinite hs'.1) (F32.isNan_of_isFinite ha)] at hsa
  have hs := sub_isFinite t1 t2 (by omega) ha h0 h1
  have hr0 : 0 ≤ c.decayRate.place := by
    have := hc.decay.2
    rwa [F32.le_iff_place rfl (F32.isNan_of_isFinite hc.decay.1), place_zeroF] at this
  have hap := approach_toward ha hs.1 hc.decay.1 hr0 hdt hdt0
  have hdn := hap.2.2 (by rw [hs.2, ← F32.roundPlace_zero]; exact F32.roundPlace_mono (by omega))
  unfold envDecay
  dsimp only
  split
  · exact ⟨hst, fun hd => by cases hd⟩
  · rename_i hle
    rw [F32.le_iff_place hap.1 (F32.isNan_of_isFinite hs'.1)] at hle
    have h5 := F32.magOf_lt_infMag (g := 127 * 2 ^ 23) (by decide)
    rw [F32.magOf_one] at h5
    refine ⟨?_, fun _ => ?_⟩
    · rw [unitRange_iff]
      exact ⟨F32.isFinite_of_place hap.1 (by dsimp only; omega), by dsimp only; omega, by dsimp only; omega⟩
    · rw [F32.le_iff_place (F32.isNan_of_isFinite hs'.1) hap.1]; omega

/-- The release keeps the range (43_envelope.md R235, R240). -/
theorem envRelease_inRange {c : EnvCfg} {dt a : F32} (hc : c.Legal) (hdt : dt.isFinite = true) (hdt0 : 0 < dt.place)
    (h : unitRange a = true) : (envRelease c dt a).InRange c := by
  rw [unitRange_iff] at h
  obtain ⟨ha, h0, h1⟩ := h
  obtain ⟨t1, t2, t3⟩ := decayBias_place
  have hs := sub_isFinite t1 t3 (by omega) ha h0 h1
  have hrate : (releaseRateOf c a).isFinite = true ∧ zeroF.le (releaseRateOf c a) = true := by
    unfold releaseRateOf; split
    · exact hc.decay
    · exact hc.release
  have hr0 : 0 ≤ (releaseRateOf c a).place := by
    have := hrate.2
    rwa [F32.le_iff_place rfl (F32.isNan_of_isFinite hrate.1), place_zeroF] at this
  have hap := approach_toward ha hs.1 hrate.1 hr0 hdt hdt0
  have hdn := hap.2.2 (by rw [hs.2, ← F32.roundPlace_zero]; exact F32.roundPlace_mono (by omega))
  unfold envRelease
  dsimp only
  split
  · exact ⟨unitRange_zeroF, fun hd => by cases hd⟩
  · rename_i hle
    rw [F32.le_iff_place hap.1 rfl, place_zeroF] at hle
    have h5 := F32.magOf_lt_infMag (g := 127 * 2 ^ 23) (by decide)
    rw [F32.magOf_one] at h5
    refine ⟨?_, fun hd => by cases hd⟩
    rw [unitRange_iff]
    exact ⟨F32.isFinite_of_place hap.1 (by dsimp only; omega), by dsimp only; omega, by dsimp only; omega⟩

end Sys2Proof.Machine
end

