-- ==== Sys2Proof/Laws/State.lean ====
section
/-! SUPPORT. What each named operation does to each field of the state: one lemma per field per update, so that no proof
unfolds a record update; then reading a voice or a port after an update. -/

namespace Sys2Proof.Machine

/-! `raiseError`. -/

@[simp] theorem raiseError_hw (e : ErrorBit) (s : State) : (raiseError e s).hw = s.hw := rfl
@[simp] theorem raiseError_cfg (e : ErrorBit) (s : State) : (raiseError e s).cfg = s.cfg := rfl
@[simp] theorem raiseError_der0 (e : ErrorBit) (s : State) : (raiseError e s).der0 = s.der0 := rfl
@[simp] theorem raiseError_der1 (e : ErrorBit) (s : State) : (raiseError e s).der1 = s.der1 := rfl
@[simp] theorem raiseError_voices (e : ErrorBit) (s : State) : (raiseError e s).voices = s.voices := rfl
@[simp] theorem raiseError_lfoSt (e : ErrorBit) (s : State) : (raiseError e s).lfoSt = s.lfoSt := rfl
@[simp] theorem raiseError_lfoValue (e : ErrorBit) (s : State) : (raiseError e s).lfoValue = s.lfoValue := rfl
@[simp] theorem raiseError_seed (e : ErrorBit) (s : State) : (raiseError e s).seed = s.seed := rfl
@[simp] theorem raiseError_mostRecentKey (e : ErrorBit) (s : State) : (raiseError e s).mostRecentKey = s.mostRecentKey := rfl
@[simp] theorem raiseError_status (e : ErrorBit) (s : State) : (raiseError e s).status = s.status.set e := rfl
@[simp] theorem raiseError_seq (e : ErrorBit) (s : State) : (raiseError e s).seq = s.seq := rfl
@[simp] theorem raiseError_ctrl (e : ErrorBit) (s : State) : (raiseError e s).ctrl = s.ctrl := rfl
@[simp] theorem raiseError_audio (e : ErrorBit) (s : State) : (raiseError e s).audio = s.audio := rfl
@[simp] theorem raiseError_pcm (e : ErrorBit) (s : State) : (raiseError e s).pcm = s.pcm := rfl
@[simp] theorem raiseError_schedule (e : ErrorBit) (s : State) : (raiseError e s).schedule = s.schedule := rfl

/-! `clearErrors`. -/

@[simp] theorem clearErrors_hw (m : Word) (s : State) : (clearErrors m s).hw = s.hw := rfl
@[simp] theorem clearErrors_cfg (m : Word) (s : State) : (clearErrors m s).cfg = s.cfg := rfl
@[simp] theorem clearErrors_der0 (m : Word) (s : State) : (clearErrors m s).der0 = s.der0 := rfl
@[simp] theorem clearErrors_der1 (m : Word) (s : State) : (clearErrors m s).der1 = s.der1 := rfl
@[simp] theorem clearErrors_voices (m : Word) (s : State) : (clearErrors m s).voices = s.voices := rfl
@[simp] theorem clearErrors_lfoSt (m : Word) (s : State) : (clearErrors m s).lfoSt = s.lfoSt := rfl
@[simp] theorem clearErrors_lfoValue (m : Word) (s : State) : (clearErrors m s).lfoValue = s.lfoValue := rfl
@[simp] theorem clearErrors_seed (m : Word) (s : State) : (clearErrors m s).seed = s.seed := rfl
@[simp] theorem clearErrors_mostRecentKey (m : Word) (s : State) : (clearErrors m s).mostRecentKey = s.mostRecentKey := rfl
@[simp] theorem clearErrors_status (m : Word) (s : State) : (clearErrors m s).status = s.status.clear m := rfl
@[simp] theorem clearErrors_seq (m : Word) (s : State) : (clearErrors m s).seq = s.seq := rfl
@[simp] theorem clearErrors_ctrl (m : Word) (s : State) : (clearErrors m s).ctrl = s.ctrl := rfl
@[simp] theorem clearErrors_audio (m : Word) (s : State) : (clearErrors m s).audio = s.audio := rfl
@[simp] theorem clearErrors_pcm (m : Word) (s : State) : (clearErrors m s).pcm = s.pcm := rfl
@[simp] theorem clearErrors_schedule (m : Word) (s : State) : (clearErrors m s).schedule = s.schedule := rfl

/-! `storeReg`. -/

@[simp] theorem storeReg_hw (r : Reg) (v : Word) (s : State) : (storeReg r v s).hw = s.hw := rfl
@[simp] theorem storeReg_cfg (r : Reg) (v : Word) (s : State) : (storeReg r v s).cfg = s.cfg.store r v := rfl
@[simp] theorem storeReg_der0 (r : Reg) (v : Word) (s : State) : (storeReg r v s).der0 = s.der0 := rfl
@[simp] theorem storeReg_der1 (r : Reg) (v : Word) (s : State) : (storeReg r v s).der1 = s.der1 := rfl
@[simp] theorem storeReg_voices (r : Reg) (v : Word) (s : State) : (storeReg r v s).voices = s.voices := rfl
@[simp] theorem storeReg_lfoSt (r : Reg) (v : Word) (s : State) : (storeReg r v s).lfoSt = s.lfoSt := rfl
@[simp] theorem storeReg_lfoValue (r : Reg) (v : Word) (s : State) : (storeReg r v s).lfoValue = s.lfoValue := rfl
@[simp] theorem storeReg_seed (r : Reg) (v : Word) (s : State) : (storeReg r v s).seed = s.seed := rfl
@[simp] theorem storeReg_mostRecentKey (r : Reg) (v : Word) (s : State) : (storeReg r v s).mostRecentKey = s.mostRecentKey := rfl
@[simp] theorem storeReg_status (r : Reg) (v : Word) (s : State) : (storeReg r v s).status = s.status := rfl
@[simp] theorem storeReg_seq (r : Reg) (v : Word) (s : State) : (storeReg r v s).seq = s.seq := rfl
@[simp] theorem storeReg_ctrl (r : Reg) (v : Word) (s : State) : (storeReg r v s).ctrl = s.ctrl := rfl
@[simp] theorem storeReg_audio (r : Reg) (v : Word) (s : State) : (storeReg r v s).audio = s.audio := rfl
@[simp] theorem storeReg_pcm (r : Reg) (v : Word) (s : State) : (storeReg r v s).pcm = s.pcm := rfl
@[simp] theorem storeReg_schedule (r : Reg) (v : Word) (s : State) : (storeReg r v s).schedule = s.schedule := rfl

/-! `setVoice`. -/

@[simp] theorem setVoice_hw (s : State) (k : VoiceIx) (v : Voice) : (s.setVoice k v).hw = s.hw := rfl
@[simp] theorem setVoice_cfg (s : State) (k : VoiceIx) (v : Voice) : (s.setVoice k v).cfg = s.cfg := rfl
@[simp] theorem setVoice_der0 (s : State) (k : VoiceIx) (v : Voice) : (s.setVoice k v).der0 = s.der0 := rfl
@[simp] theorem setVoice_der1 (s : State) (k : VoiceIx) (v : Voice) : (s.setVoice k v).der1 = s.der1 := rfl
@[simp] theorem setVoice_voices (s : State) (k : VoiceIx) (v : Voice) : (s.setVoice k v).voices = s.voices.set k.val v := rfl
@[simp] theorem setVoice_lfoSt (s : State) (k : VoiceIx) (v : Voice) : (s.setVoice k v).lfoSt = s.lfoSt := rfl
@[simp] theorem setVoice_lfoValue (s : State) (k : VoiceIx) (v : Voice) : (s.setVoice k v).lfoValue = s.lfoValue := rfl
@[simp] theorem setVoice_seed (s : State) (k : VoiceIx) (v : Voice) : (s.setVoice k v).seed = s.seed := rfl
@[simp] theorem setVoice_mostRecentKey (s : State) (k : VoiceIx) (v : Voice) : (s.setVoice k v).mostRecentKey = s.mostRecentKey := rfl
@[simp] theorem setVoice_status (s : State) (k : VoiceIx) (v : Voice) : (s.setVoice k v).status = s.status := rfl
@[simp] theorem setVoice_seq (s : State) (k : VoiceIx) (v : Voice) : (s.setVoice k v).seq = s.seq := rfl
@[simp] theorem setVoice_ctrl (s : State) (k : VoiceIx) (v : Voice) : (s.setVoice k v).ctrl = s.ctrl := rfl
@[simp] theorem setVoice_audio (s : State) (k : VoiceIx) (v : Voice) : (s.setVoice k v).audio = s.audio := rfl
@[simp] theorem setVoice_pcm (s : State) (k : VoiceIx) (v : Voice) : (s.setVoice k v).pcm = s.pcm := rfl
@[simp] theorem setVoice_schedule (s : State) (k : VoiceIx) (v : Voice) : (s.setVoice k v).schedule = s.schedule := rfl

/-! `pcmEmit`. -/

@[simp] theorem pcmEmit_hw (l r : BitVec 16) (s : State) : (pcmEmit l r s).hw = s.hw := rfl
@[simp] theorem pcmEmit_cfg (l r : BitVec 16) (s : State) : (pcmEmit l r s).cfg = s.cfg := rfl
@[simp] theorem pcmEmit_der0 (l r : BitVec 16) (s : State) : (pcmEmit l r s).der0 = s.der0 := rfl
@[simp] theorem pcmEmit_der1 (l r : BitVec 16) (s : State) : (pcmEmit l r s).der1 = s.der1 := rfl
@[simp] theorem pcmEmit_voices (l r : BitVec 16) (s : State) : (pcmEmit l r s).voices = s.voices := rfl
@[simp] theorem pcmEmit_lfoSt (l r : BitVec 16) (s : State) : (pcmEmit l r s).lfoSt = s.lfoSt := rfl
@[simp] theorem pcmEmit_lfoValue (l r : BitVec 16) (s : State) : (pcmEmit l r s).lfoValue = s.lfoValue := rfl
@[simp] theorem pcmEmit_seed (l r : BitVec 16) (s : State) : (pcmEmit l r s).seed = s.seed := rfl
@[simp] theorem pcmEmit_mostRecentKey (l r : BitVec 16) (s : State) : (pcmEmit l r s).mostRecentKey = s.mostRecentKey := rfl
@[simp] theorem pcmEmit_status (l r : BitVec 16) (s : State) : (pcmEmit l r s).status = s.status := rfl
@[simp] theorem pcmEmit_seq (l r : BitVec 16) (s : State) : (pcmEmit l r s).seq = s.seq := rfl
@[simp] theorem pcmEmit_ctrl (l r : BitVec 16) (s : State) : (pcmEmit l r s).ctrl = s.ctrl := rfl
@[simp] theorem pcmEmit_audio (l r : BitVec 16) (s : State) : (pcmEmit l r s).audio = s.audio := rfl
@[simp] theorem pcmEmit_pcm (l r : BitVec 16) (s : State) : (pcmEmit l r s).pcm = s.pcm ++ [⟨l, r⟩] := rfl
@[simp] theorem pcmEmit_schedule (l r : BitVec 16) (s : State) : (pcmEmit l r s).schedule = s.schedule := rfl

/-! `pcmEmitZeros`. -/

@[simp] theorem pcmEmitZeros_hw (n : Nat) (s : State) : (pcmEmitZeros n s).hw = s.hw := rfl
@[simp] theorem pcmEmitZeros_cfg (n : Nat) (s : State) : (pcmEmitZeros n s).cfg = s.cfg := rfl
@[simp] theorem pcmEmitZeros_der0 (n : Nat) (s : State) : (pcmEmitZeros n s).der0 = s.der0 := rfl
@[simp] theorem pcmEmitZeros_der1 (n : Nat) (s : State) : (pcmEmitZeros n s).der1 = s.der1 := rfl
@[simp] theorem pcmEmitZeros_voices (n : Nat) (s : State) : (pcmEmitZeros n s).voices = s.voices := rfl
@[simp] theorem pcmEmitZeros_lfoSt (n : Nat) (s : State) : (pcmEmitZeros n s).lfoSt = s.lfoSt := rfl
@[simp] theorem pcmEmitZeros_lfoValue (n : Nat) (s : State) : (pcmEmitZeros n s).lfoValue = s.lfoValue := rfl
@[simp] theorem pcmEmitZeros_seed (n : Nat) (s : State) : (pcmEmitZeros n s).seed = s.seed := rfl
@[simp] theorem pcmEmitZeros_mostRecentKey (n : Nat) (s : State) : (pcmEmitZeros n s).mostRecentKey = s.mostRecentKey := rfl
@[simp] theorem pcmEmitZeros_status (n : Nat) (s : State) : (pcmEmitZeros n s).status = s.status := rfl
@[simp] theorem pcmEmitZeros_seq (n : Nat) (s : State) : (pcmEmitZeros n s).seq = s.seq := rfl
@[simp] theorem pcmEmitZeros_ctrl (n : Nat) (s : State) : (pcmEmitZeros n s).ctrl = s.ctrl := rfl
@[simp] theorem pcmEmitZeros_audio (n : Nat) (s : State) : (pcmEmitZeros n s).audio = s.audio := rfl
@[simp] theorem pcmEmitZeros_pcm (n : Nat) (s : State) : (pcmEmitZeros n s).pcm = s.pcm ++ List.replicate n ⟨0#16, 0#16⟩ := rfl
@[simp] theorem pcmEmitZeros_schedule (n : Nat) (s : State) : (pcmEmitZeros n s).schedule = s.schedule := rfl

/-! `setPort`. -/

@[simp] theorem setPort_hw (s : State) (p : Port) (x : PortState) : (s.setPort p x).hw = s.hw := by cases p <;> rfl
@[simp] theorem setPort_cfg (s : State) (p : Port) (x : PortState) : (s.setPort p x).cfg = s.cfg := by cases p <;> rfl
@[simp] theorem setPort_der0 (s : State) (p : Port) (x : PortState) : (s.setPort p x).der0 = s.der0 := by cases p <;> rfl
@[simp] theorem setPort_der1 (s : State) (p : Port) (x : PortState) : (s.setPort p x).der1 = s.der1 := by cases p <;> rfl
@[simp] theorem setPort_voices (s : State) (p : Port) (x : PortState) : (s.setPort p x).voices = s.voices := by cases p <;> rfl
@[simp] theorem setPort_lfoSt (s : State) (p : Port) (x : PortState) : (s.setPort p x).lfoSt = s.lfoSt := by cases p <;> rfl
@[simp] theorem setPort_lfoValue (s : State) (p : Port) (x : PortState) : (s.setPort p x).lfoValue = s.lfoValue := by cases p <;> rfl
@[simp] theorem setPort_seed (s : State) (p : Port) (x : PortState) : (s.setPort p x).seed = s.seed := by cases p <;> rfl
@[simp] theorem setPort_mostRecentKey (s : State) (p : Port) (x : PortState) : (s.setPort p x).mostRecentKey = s.mostRecentKey := by cases p <;> rfl
@[simp] theorem setPort_status (s : State) (p : Port) (x : PortState) : (s.setPort p x).status = s.status := by cases p <;> rfl
@[simp] theorem setPort_seq (s : State) (p : Port) (x : PortState) : (s.setPort p x).seq = s.seq := by cases p <;> rfl
@[simp] theorem setPort_pcm (s : State) (p : Port) (x : PortState) : (s.setPort p x).pcm = s.pcm := by cases p <;> rfl
@[simp] theorem setPort_schedule (s : State) (p : Port) (x : PortState) : (s.setPort p x).schedule = s.schedule := by cases p <;> rfl

/-! `respond`. -/

@[simp] theorem respond_hw (p : Port) (v : Word) (s : State) : (respond p v s).hw = s.hw := by cases p <;> rfl
@[simp] theorem respond_cfg (p : Port) (v : Word) (s : State) : (respond p v s).cfg = s.cfg := by cases p <;> rfl
@[simp] theorem respond_der0 (p : Port) (v : Word) (s : State) : (respond p v s).der0 = s.der0 := by cases p <;> rfl
@[simp] theorem respond_der1 (p : Port) (v : Word) (s : State) : (respond p v s).der1 = s.der1 := by cases p <;> rfl
@[simp] theorem respond_voices (p : Port) (v : Word) (s : State) : (respond p v s).voices = s.voices := by cases p <;> rfl
@[simp] theorem respond_lfoSt (p : Port) (v : Word) (s : State) : (respond p v s).lfoSt = s.lfoSt := by cases p <;> rfl
@[simp] theorem respond_lfoValue (p : Port) (v : Word) (s : State) : (respond p v s).lfoValue = s.lfoValue := by cases p <;> rfl
@[simp] theorem respond_seed (p : Port) (v : Word) (s : State) : (respond p v s).seed = s.seed := by cases p <;> rfl
@[simp] theorem respond_mostRecentKey (p : Port) (v : Word) (s : State) : (respond p v s).mostRecentKey = s.mostRecentKey := by cases p <;> rfl
@[simp] theorem respond_status (p : Port) (v : Word) (s : State) : (respond p v s).status = s.status := by cases p <;> rfl
@[simp] theorem respond_seq (p : Port) (v : Word) (s : State) : (respond p v s).seq = s.seq := by cases p <;> rfl
@[simp] theorem respond_pcm (p : Port) (v : Word) (s : State) : (respond p v s).pcm = s.pcm := by cases p <;> rfl
@[simp] theorem respond_schedule (p : Port) (v : Word) (s : State) : (respond p v s).schedule = s.schedule := by cases p <;> rfl

/-! `issueTxn`. -/

@[simp] theorem issueTxn_hw (p : Port) (t : BusTxn) (s : State) : (issueTxn p t s).hw = s.hw := by cases p <;> rfl
@[simp] theorem issueTxn_cfg (p : Port) (t : BusTxn) (s : State) : (issueTxn p t s).cfg = s.cfg := by cases p <;> rfl
@[simp] theorem issueTxn_der0 (p : Port) (t : BusTxn) (s : State) : (issueTxn p t s).der0 = s.der0 := by cases p <;> rfl
@[simp] theorem issueTxn_der1 (p : Port) (t : BusTxn) (s : State) : (issueTxn p t s).der1 = s.der1 := by cases p <;> rfl
@[simp] theorem issueTxn_voices (p : Port) (t : BusTxn) (s : State) : (issueTxn p t s).voices = s.voices := by cases p <;> rfl
@[simp] theorem issueTxn_lfoSt (p : Port) (t : BusTxn) (s : State) : (issueTxn p t s).lfoSt = s.lfoSt := by cases p <;> rfl
@[simp] theorem issueTxn_lfoValue (p : Port) (t : BusTxn) (s : State) : (issueTxn p t s).lfoValue = s.lfoValue := by cases p <;> rfl
@[simp] theorem issueTxn_seed (p : Port) (t : BusTxn) (s : State) : (issueTxn p t s).seed = s.seed := by cases p <;> rfl
@[simp] theorem issueTxn_mostRecentKey (p : Port) (t : BusTxn) (s : State) : (issueTxn p t s).mostRecentKey = s.mostRecentKey := by cases p <;> rfl
@[simp] theorem issueTxn_status (p : Port) (t : BusTxn) (s : State) : (issueTxn p t s).status = s.status := by cases p <;> rfl
@[simp] theorem issueTxn_seq (p : Port) (t : BusTxn) (s : State) : (issueTxn p t s).seq = s.seq := by cases p <;> rfl
@[simp] theorem issueTxn_pcm (p : Port) (t : BusTxn) (s : State) : (issueTxn p t s).pcm = s.pcm := by cases p <;> rfl
@[simp] theorem issueTxn_schedule (p : Port) (t : BusTxn) (s : State) : (issueTxn p t s).schedule = s.schedule := by cases p <;> rfl

/-! `completeTxn`. -/

@[simp] theorem completeTxn_hw (p : Port) (s : State) : (completeTxn p s).hw = s.hw := by cases p <;> rfl
@[simp] theorem completeTxn_cfg (p : Port) (s : State) : (completeTxn p s).cfg = s.cfg := by cases p <;> rfl
@[simp] theorem completeTxn_der0 (p : Port) (s : State) : (completeTxn p s).der0 = s.der0 := by cases p <;> rfl
@[simp] theorem completeTxn_der1 (p : Port) (s : State) : (completeTxn p s).der1 = s.der1 := by cases p <;> rfl
@[simp] theorem completeTxn_voices (p : Port) (s : State) : (completeTxn p s).voices = s.voices := by cases p <;> rfl
@[simp] theorem completeTxn_lfoSt (p : Port) (s : State) : (completeTxn p s).lfoSt = s.lfoSt := by cases p <;> rfl
@[simp] theorem completeTxn_lfoValue (p : Port) (s : State) : (completeTxn p s).lfoValue = s.lfoValue := by cases p <;> rfl
@[simp] theorem completeTxn_seed (p : Port) (s : State) : (completeTxn p s).seed = s.seed := by cases p <;> rfl
@[simp] theorem completeTxn_mostRecentKey (p : Port) (s : State) : (completeTxn p s).mostRecentKey = s.mostRecentKey := by cases p <;> rfl
@[simp] theorem completeTxn_status (p : Port) (s : State) : (completeTxn p s).status = s.status := by cases p <;> rfl
@[simp] theorem completeTxn_seq (p : Port) (s : State) : (completeTxn p s).seq = s.seq := by cases p <;> rfl
@[simp] theorem completeTxn_pcm (p : Port) (s : State) : (completeTxn p s).pcm = s.pcm := by cases p <;> rfl
@[simp] theorem completeTxn_schedule (p : Port) (s : State) : (completeTxn p s).schedule = s.schedule := by cases p <;> rfl

/-! `markOwed`. -/

@[simp] theorem markOwed_hw (p : Port) (s : State) : (markOwed p s).hw = s.hw := by cases p <;> rfl
@[simp] theorem markOwed_cfg (p : Port) (s : State) : (markOwed p s).cfg = s.cfg := by cases p <;> rfl
@[simp] theorem markOwed_der0 (p : Port) (s : State) : (markOwed p s).der0 = s.der0 := by cases p <;> rfl
@[simp] theorem markOwed_der1 (p : Port) (s : State) : (markOwed p s).der1 = s.der1 := by cases p <;> rfl
@[simp] theorem markOwed_voices (p : Port) (s : State) : (markOwed p s).voices = s.voices := by cases p <;> rfl
@[simp] theorem markOwed_lfoSt (p : Port) (s : State) : (markOwed p s).lfoSt = s.lfoSt := by cases p <;> rfl
@[simp] theorem markOwed_lfoValue (p : Port) (s : State) : (markOwed p s).lfoValue = s.lfoValue := by cases p <;> rfl
@[simp] theorem markOwed_seed (p : Port) (s : State) : (markOwed p s).seed = s.seed := by cases p <;> rfl
@[simp] theorem markOwed_mostRecentKey (p : Port) (s : State) : (markOwed p s).mostRecentKey = s.mostRecentKey := by cases p <;> rfl
@[simp] theorem markOwed_status (p : Port) (s : State) : (markOwed p s).status = s.status := by cases p <;> rfl
@[simp] theorem markOwed_seq (p : Port) (s : State) : (markOwed p s).seq = s.seq := by cases p <;> rfl
@[simp] theorem markOwed_pcm (p : Port) (s : State) : (markOwed p s).pcm = s.pcm := by cases p <;> rfl
@[simp] theorem markOwed_schedule (p : Port) (s : State) : (markOwed p s).schedule = s.schedule := by cases p <;> rfl

/-! `recompute`. -/

@[simp] theorem recompute_hw (s : State) : (recompute s).hw = s.hw := rfl
@[simp] theorem recompute_cfg (s : State) : (recompute s).cfg = s.cfg := rfl
@[simp] theorem recompute_der0 (s : State) : (recompute s).der0 = deriveOsc s.cfg.osc0 s.lfoValue := rfl
@[simp] theorem recompute_der1 (s : State) : (recompute s).der1 = deriveOsc s.cfg.osc1 s.lfoValue := rfl
@[simp] theorem recompute_voices (s : State) : (recompute s).voices = s.voices := rfl
@[simp] theorem recompute_lfoSt (s : State) : (recompute s).lfoSt = s.lfoSt := rfl
@[simp] theorem recompute_lfoValue (s : State) : (recompute s).lfoValue = s.lfoValue := rfl
@[simp] theorem recompute_seed (s : State) : (recompute s).seed = s.seed := rfl
@[simp] theorem recompute_mostRecentKey (s : State) : (recompute s).mostRecentKey = s.mostRecentKey := rfl
@[simp] theorem recompute_status (s : State) : (recompute s).status = s.status := rfl
@[simp] theorem recompute_seq (s : State) : (recompute s).seq = s.seq := rfl
@[simp] theorem recompute_ctrl (s : State) : (recompute s).ctrl = s.ctrl := rfl
@[simp] theorem recompute_audio (s : State) : (recompute s).audio = s.audio := rfl
@[simp] theorem recompute_pcm (s : State) : (recompute s).pcm = s.pcm := rfl
@[simp] theorem recompute_schedule (s : State) : (recompute s).schedule = s.schedule := rfl

/-! `lfoUpdate`. -/

@[simp] theorem lfoUpdate_hw (dt : F32) (s : State) : (lfoUpdate dt s).hw = s.hw := rfl
@[simp] theorem lfoUpdate_cfg (dt : F32) (s : State) : (lfoUpdate dt s).cfg = s.cfg := rfl
@[simp] theorem lfoUpdate_der0 (dt : F32) (s : State) : (lfoUpdate dt s).der0 = s.der0 := rfl
@[simp] theorem lfoUpdate_der1 (dt : F32) (s : State) : (lfoUpdate dt s).der1 = s.der1 := rfl
@[simp] theorem lfoUpdate_voices (dt : F32) (s : State) : (lfoUpdate dt s).voices = s.voices := rfl
@[simp] theorem lfoUpdate_mostRecentKey (dt : F32) (s : State) : (lfoUpdate dt s).mostRecentKey = s.mostRecentKey := rfl
@[simp] theorem lfoUpdate_status (dt : F32) (s : State) : (lfoUpdate dt s).status = s.status := rfl
@[simp] theorem lfoUpdate_seq (dt : F32) (s : State) : (lfoUpdate dt s).seq = s.seq := rfl
@[simp] theorem lfoUpdate_ctrl (dt : F32) (s : State) : (lfoUpdate dt s).ctrl = s.ctrl := rfl
@[simp] theorem lfoUpdate_audio (dt : F32) (s : State) : (lfoUpdate dt s).audio = s.audio := rfl
@[simp] theorem lfoUpdate_pcm (dt : F32) (s : State) : (lfoUpdate dt s).pcm = s.pcm := rfl
@[simp] theorem lfoUpdate_schedule (dt : F32) (s : State) : (lfoUpdate dt s).schedule = s.schedule := rfl

/-! `voiceStart`. -/

@[simp] theorem voiceStart_hw (k : VoiceIx) (s : State) : (voiceStart k s).hw = s.hw := rfl
@[simp] theorem voiceStart_cfg (k : VoiceIx) (s : State) : (voiceStart k s).cfg = s.cfg := rfl
@[simp] theorem voiceStart_der0 (k : VoiceIx) (s : State) : (voiceStart k s).der0 = s.der0 := rfl
@[simp] theorem voiceStart_der1 (k : VoiceIx) (s : State) : (voiceStart k s).der1 = s.der1 := rfl
@[simp] theorem voiceStart_lfoSt (k : VoiceIx) (s : State) : (voiceStart k s).lfoSt = s.lfoSt := rfl
@[simp] theorem voiceStart_lfoValue (k : VoiceIx) (s : State) : (voiceStart k s).lfoValue = s.lfoValue := rfl
@[simp] theorem voiceStart_seed (k : VoiceIx) (s : State) : (voiceStart k s).seed = s.seed := rfl
@[simp] theorem voiceStart_mostRecentKey (k : VoiceIx) (s : State) : (voiceStart k s).mostRecentKey = k := rfl
@[simp] theorem voiceStart_status (k : VoiceIx) (s : State) : (voiceStart k s).status = s.status := rfl
@[simp] theorem voiceStart_seq (k : VoiceIx) (s : State) : (voiceStart k s).seq = s.seq := rfl
@[simp] theorem voiceStart_ctrl (k : VoiceIx) (s : State) : (voiceStart k s).ctrl = s.ctrl := rfl
@[simp] theorem voiceStart_audio (k : VoiceIx) (s : State) : (voiceStart k s).audio = s.audio := rfl
@[simp] theorem voiceStart_pcm (k : VoiceIx) (s : State) : (voiceStart k s).pcm = s.pcm := rfl
@[simp] theorem voiceStart_schedule (k : VoiceIx) (s : State) : (voiceStart k s).schedule = s.schedule := rfl

/-! Voices and ports. -/

@[simp] theorem setVoice_voice (s : State) (k j : VoiceIx) (v : Voice) :
    (s.setVoice k v).voice j = if k = j then v else s.voice j := by
  unfold State.voice State.setVoice
  rw [Vector.getElem_set]
  simp only [Fin.ext_iff]

theorem voice_congr {s t : State} (h : t.voices = s.voices) (k : VoiceIx) : t.voice k = s.voice k := by
  unfold State.voice; rw [h]

@[simp] theorem setPort_port (s : State) (p q : Port) (x : PortState) :
    (s.setPort p x).port q = if p = q then x else s.port q := by
  cases p <;> cases q <;> rfl
@[simp] theorem respond_port (s : State) (p q : Port) (v : Word) :
    (respond p v s).port q = if p = q then { s.port p with responses := (s.port p).responses ++ [v] } else s.port q := by
  unfold respond; rw [setPort_port]

@[simp] theorem issueTxn_port (s : State) (p q : Port) (t : BusTxn) :
    (issueTxn p t s).port q = if p = q then { s.port p with queue := (s.port p).queue ++ [t] } else s.port q := by
  unfold issueTxn; rw [setPort_port]

@[simp] theorem completeTxn_port (s : State) (p q : Port) :
    (completeTxn p s).port q =
      if p = q then { s.port p with queue := (s.port p).queue.tail, owed := (s.port p).owed - 1 } else s.port q := by
  unfold completeTxn; rw [setPort_port]

@[simp] theorem markOwed_port (s : State) (p q : Port) :
    (markOwed p s).port q =
      if p.other = q then
        { s.port q with owed := ((s.port q).queue.takeWhile fun t => !isRenderTxn t).length }
      else s.port q := by
  unfold markOwed
  dsimp only
  rw [setPort_port]
  split
  · rename_i h; rw [h]
  · rfl
@[simp] theorem other_ne (p : Port) : p.other ≠ p := by cases p <;> decide

@[simp] theorem ne_other (p : Port) : p ≠ p.other := by cases p <;> decide

@[simp] theorem other_other (p : Port) : p.other.other = p := by cases p <;> rfl

theorem eq_or_other (p q : Port) : q = p ∨ q = p.other := by cases p <;> cases q <;> simp [Port.other]

theorem port_congr {s t : State} (hc : t.ctrl = s.ctrl) (ha : t.audio = s.audio) (p : Port) : t.port p = s.port p := by
  cases p
  · exact hc
  · exact ha

/-- Two states with equal fields are equal. -/
theorem State.eq_of_fields {s t : State} (hw : s.hw = t.hw) (cfg : s.cfg = t.cfg) (der0 : s.der0 = t.der0)
    (der1 : s.der1 = t.der1) (voices : s.voices = t.voices) (lfoSt : s.lfoSt = t.lfoSt) (lfoValue : s.lfoValue = t.lfoValue)
    (seed : s.seed = t.seed) (key : s.mostRecentKey = t.mostRecentKey) (status : s.status = t.status) (seq : s.seq = t.seq)
    (ctrl : s.ctrl = t.ctrl) (audio : s.audio = t.audio) (pcm : s.pcm = t.pcm) (schedule : s.schedule = t.schedule) :
    s = t := by
  cases s; cases t; simp_all

end Sys2Proof.Machine
end

