-- ==== Sys2Proof/Laws/Voice.lean ====
section
/-! SUPPORT. Laws of the sample step: what a voice step can change, that the voice loop updates every listed voice once
and reaps exactly those it leaves `OFF`, and what a sample step can change (45_voice_mixer.md R312, R313, R324, R325). -/

namespace Sys2Proof.Machine

/-- A voice after a voice step: both envelopes updated once, the gate kept, the ranges kept (45_voice_mixer.md R325). -/
structure Voice.Advanced (c : Cfg) (dt : F32) (v v' : Voice) : Prop where
  fenv : v'.fenv = envUpdate c.fenv dt v.fenv
  venv : v'.venv = envUpdate c.venv dt v.venv
  gate : v'.gate = v.gate
  ok   : v.Ok → v'.Ok

theorem voiceEnvelopes_advanced (c : Cfg) (dt : F32) (v : Voice) : v.Advanced c dt (voiceEnvelopes c dt v) where
  fenv := rfl
  venv := rfl
  gate := rfl
  ok h :=
    { osc0 := h.osc0, osc1 := h.osc1, fenv := envUpdate_ok _ _ h.fenv, venv := envUpdate_ok _ _ h.venv
      fenvGate := (envUpdate_held _ _ _).trans h.fenvGate
      venvGate := (envUpdate_held _ _ _).trans h.venvGate }

/-- Everything a voice step can do (45_voice_mixer.md R325): it replaces one voice and may step the seed; it contributes
nothing exactly where the volume envelope is `OFF` after it. -/
theorem voiceStep_spec (k : VoiceIx) (dt : F32) (s : State) :
    ∃ v' seed', (voiceStep k dt s).1 = { s.setVoice k v' with seed := seed' } ∧ (s.voice k).Advanced s.cfg dt v' ∧
      ((voiceStep k dt s).2 = none ↔ v'.venv.stage = .off) ∧ (s.seed ≠ 0#32 → seed' ≠ 0#32) := by
  have ha := voiceEnvelopes_advanced s.cfg dt (s.voice k)
  unfold voiceStep
  dsimp only
  by_cases h : (voiceEnvelopes s.cfg dt (s.voice k)).venv.stage = .off
  · rw [if_pos h]
    exact ⟨_, s.seed, rfl, ha, ⟨fun _ => h, fun _ => rfl⟩, id⟩
  · rw [if_neg h]
    refine ⟨_, _, rfl, ⟨ha.fenv, ha.venv, ha.gate, fun hok => ?_⟩, ⟨fun h1 => by simp at h1, fun h1 => absurd h1 h⟩, ?_⟩
    · have h1 := ha.ok hok
      exact { osc0 := oscUpdate_ok _ _ _ _ _ h1.osc0.index, osc1 := oscUpdate_ok _ _ _ _ _ h1.osc1.index
              fenv := h1.fenv, venv := h1.venv, fenvGate := h1.fenvGate, venvGate := h1.venvGate }
    · intro h1
      exact oscUpdate_seed_ne (oscUpdate_seed_ne h1)

/-- What follows position `i` after a swap-remove there: the last entry first, then the rest (45_voice_mixer.md R313). -/
def swapRest (r : List VoiceIx) : List VoiceIx :=
  match r.getLast? with
  | none => []
  | some x => x :: r.dropLast

theorem swapRest_perm (r : List VoiceIx) : (swapRest r).Perm r := by
  unfold swapRest
  rcases List.eq_nil_or_concat r with rfl | ⟨l, x, rfl⟩
  · rfl
  · simp only [List.concat_eq_append, List.getLast?_append, List.getLast?_singleton, Option.some_or, List.dropLast_concat]
    exact (List.perm_append_singleton x l).symm

theorem swapRemove_append (a : List VoiceIx) (k : VoiceIx) (r : List VoiceIx) :
    swapRemove (a ++ k :: r) a.length = a ++ swapRest r := by
  unfold swapRemove swapRest
  rcases List.eq_nil_or_concat r with rfl | ⟨l, x, rfl⟩
  · simp
  · have h1 : (a ++ k :: (l ++ [x])).getLast? = some x := by
      rw [show a ++ k :: (l ++ [x]) = (a ++ k :: l) ++ [x] by simp, List.getLast?_concat]
    simp only [List.concat_eq_append]
    rw [h1, List.getLast?_concat]
    simp only [List.dropLast_concat]
    rw [List.set_append_right _ _ (le_refl _), Nat.sub_self, List.set_cons_zero,
      show a ++ x :: (l ++ [x]) = (a ++ x :: l) ++ [x] by simp, List.dropLast_concat]

/-- Everything the voice loop can do from a list with no repeats, the first entries `a` already processed
(45_voice_mixer.md R313, R324): it changes the voices still listed, each once, and the seed; it keeps of them exactly those
it leaves not `OFF`. -/
theorem mixVoices_spec (dt : F32) : ∀ (fuel : Nat) (a r : List VoiceIx) (s : State) (c : F32),
    r.length ≤ fuel → (a ++ r).Nodup →
    ∃ s' b c', mixVoices dt fuel a.length ⟨s, a ++ r, c⟩ = ⟨s', a ++ b, c'⟩ ∧
      s' = { s with voices := s'.voices, seed := s'.seed } ∧ (s.seed ≠ 0#32 → s'.seed ≠ 0#32) ∧
      (∀ k ∈ r, (s.voice k).Advanced s.cfg dt (s'.voice k)) ∧ (∀ k, k ∉ r → s'.voice k = s.voice k) ∧
      (a ++ b).Nodup ∧ ∀ k, k ∈ b ↔ k ∈ r ∧ (s'.voice k).active = true := by
  intro fuel
  induction fuel with
  | zero =>
    intro a r s c hlen hnd
    have hr : r = [] := List.length_eq_zero_iff.1 (by omega)
    subst hr
    exact ⟨s, [], c, rfl, rfl, id, by simp, by simp, hnd, by simp⟩
  | succ fuel ih =>
    intro a r s c hlen hnd
    cases r with
    | nil =>
      refine ⟨s, [], c, ?_, rfl, id, by simp, by simp, hnd, by simp⟩
      unfold mixVoices
      rw [List.append_nil, List.getElem?_eq_none (le_refl _)]
    | cons k r =>
      obtain ⟨v', seed', h1, h2, h3, h4⟩ := voiceStep_spec k dt s
      have hk : (a ++ k :: r)[a.length]? = some k := by simp
      have hkr : k ∉ r := by
        intro hk1
        have h5 : (k :: r).Nodup := hnd.of_append_right
        exact (List.nodup_cons.1 h5).1 hk1
      have hka : k ∉ a := by
        intro hk1
        exact (List.disjoint_of_nodup_append hnd) hk1 (by simp)
      have hv : ∀ j, ({ s.setVoice k v' with seed := seed' } : State).voice j = if k = j then v' else s.voice j := by
        intro j; exact setVoice_voice s k j v'
      by_cases hoff : v'.venv.stage = .off
      · -- the voice is reaped
        have e : mixVoices dt (fuel + 1) a.length ⟨s, a ++ k :: r, c⟩ =
            mixVoices dt fuel a.length ⟨{ s.setVoice k v' with seed := seed' }, a ++ swapRest r, c⟩ := by
          conv_lhs => unfold mixVoices
          dsimp only
          rw [hk]
          dsimp only
          rw [show voiceStep k dt s = ((voiceStep k dt s).1, (voiceStep k dt s).2) from rfl, h1, h3.2 hoff]
          dsimp only
          rw [swapRemove_append]
        have hp := swapRest_perm r
        have hnd' : (a ++ swapRest r).Nodup :=
          (List.Perm.append_left a hp).nodup_iff.2 (hnd.sublist (by simp))
        obtain ⟨s', b, c', q1, q2, q3, q4, q5, q6, q7⟩ := ih a (swapRest r) _ c
          (by rw [hp.length_eq]; simp at hlen; omega) hnd'
        have hks : k ∉ swapRest r := fun h => hkr (hp.mem_iff.1 h)
        have hvk : s'.voice k = v' := by rw [q5 k hks, hv]; simp
        refine ⟨s', b, c', by rw [e]; exact q1, by rw [q2]; rfl, fun h => q3 (h4 h), ?_, ?_, q6, ?_⟩
        · intro j hj
          rcases List.mem_cons.1 hj with rfl | hj
          · rw [hvk]; exact h2
          · have h6 := q4 j (hp.mem_iff.2 hj)
            rw [hv, if_neg (by rintro rfl; exact hkr hj)] at h6
            exact h6
        · intro j hj
          rw [q5 j (fun h => hj (by simp [hp.mem_iff.1 h])), hv, if_neg (by rintro rfl; exact hj (by simp))]
        · intro j
          rw [q7, hp.mem_iff, List.mem_cons]
          constructor
          · rintro ⟨h5, h6⟩; exact ⟨Or.inr h5, h6⟩
          · rintro ⟨rfl | h5, h6⟩
            · rw [hvk] at h6; simp [Voice.active, hoff] at h6
            · exact ⟨h5, h6⟩
      · -- the voice sounds
        obtain ⟨x, hx⟩ : ∃ x, (voiceStep k dt s).2 = some x := by
          cases hx : (voiceStep k dt s).2 with
          | none => exact absurd (h3.1 hx) hoff
          | some x => exact ⟨x, rfl⟩
        have e : mixVoices dt (fuel + 1) a.length ⟨s, a ++ k :: r, c⟩ =
            mixVoices dt fuel (a ++ [k]).length ⟨{ s.setVoice k v' with seed := seed' }, (a ++ [k]) ++ r, c.add x⟩ := by
          conv_lhs => unfold mixVoices
          dsimp only
          rw [hk]
          dsimp only
          rw [show voiceStep k dt s = ((voiceStep k dt s).1, (voiceStep k dt s).2) from rfl, h1, hx]
          dsimp only
          simp
        obtain ⟨s', b, c', q1, q2, q3, q4, q5, q6, q7⟩ := ih (a ++ [k]) r _ (c.add x)
          (by simp at hlen; omega) (by simpa using hnd)
        have hvk : s'.voice k = v' := by rw [q5 k hkr, hv]; simp
        refine ⟨s', k :: b, c', by rw [e, q1]; simp, by rw [q2]; rfl, fun h => q3 (h4 h), ?_, ?_,
          by simpa using q6, ?_⟩
        · intro j hj
          rcases List.mem_cons.1 hj with rfl | hj
          · rw [hvk]; exact h2
          · have h6 := q4 j hj
            rw [hv, if_neg (by rintro rfl; exact hkr hj)] at h6
            exact h6
        · intro j hj
          rw [q5 j (fun h => hj (by simp [h])), hv, if_neg (by rintro rfl; exact hj (by simp))]
        · intro j
          rw [List.mem_cons, List.mem_cons, q7]
          constructor
          · rintro (rfl | ⟨h5, h6⟩)
            · refine ⟨Or.inl rfl, ?_⟩
              rw [hvk]; simpa [Voice.active] using hoff
            · exact ⟨Or.inr h5, h6⟩
          · rintro ⟨rfl | h5, h6⟩
            · exact Or.inl rfl
            · exact Or.inr ⟨h5, h6⟩

/-- Is the voice reaped by a sample step from `s` (45_voice_mixer.md R325)? -/
def reapedBy (s : State) (dt : F32) (k : VoiceIx) : Bool := (voiceEnvelopes s.cfg dt (s.voice k)).venv.stage == .off

/-- A voice's sound in a sample step from `s`, at the noise seed it finds (45_voice_mixer.md R325). -/
def soundAt (s : State) (dt : F32) (k : VoiceIx) (seed : Word) : State × F32 :=
  voiceSound k dt (voiceEnvelopes s.cfg dt (s.voice k)) { s with seed := seed }

/-- The seed and the sum after the voices of a list have sounded in turn (45_voice_mixer.md R327). -/
def mixOver (s : State) (dt : F32) (x : Word × F32) (l : List VoiceIx) : Word × F32 :=
  l.foldl (fun x k => ((soundAt s dt k x.1).1.seed, x.2.add (soundAt s dt k x.1).2)) x

theorem soundingOrder_cons (off : VoiceIx → Bool) (fuel : Nat) (k : VoiceIx) (r : List VoiceIx) :
    soundingOrder off (fuel + 1) (k :: r) =
      if off k then soundingOrder off fuel (swapRest r) else k :: soundingOrder off fuel r := by
  unfold swapRest
  conv_lhs => unfold soundingOrder
  split
  · cases r.getLast? with
    | none => cases fuel <;> rfl
    | some x => rfl
  · rfl

/-- Everything the voice loop computes from a list with no repeats, the first entries `a` already processed: the voices
that are not reaped sound in `soundingOrder`, each from its state in `s` and the seed its predecessor left
(45_voice_mixer.md R313, R324, R325, R327). -/
theorem mixVoices_order (dt : F32) (s : State) : ∀ (fuel : Nat) (a r : List VoiceIx) (u : State) (c : F32),
    r.length ≤ fuel → (a ++ r).Nodup → u = { s with voices := u.voices, seed := u.seed } →
    (∀ k ∈ r, u.voice k = s.voice k) →
    let order := soundingOrder (reapedBy s dt) fuel r
    let total := mixOver s dt (u.seed, c) order
    ∃ t, mixVoices dt fuel a.length ⟨u, a ++ r, c⟩ = ⟨t, a ++ order, total.2⟩ ∧ t.seed = total.1 ∧
      t = { s with voices := t.voices, seed := t.seed } ∧
      (∀ b k d, order = b ++ k :: d → t.voice k = (soundAt s dt k (mixOver s dt (u.seed, c) b).1).1.voice k) ∧
      (∀ k ∈ r, reapedBy s dt k = true → t.voice k = voiceEnvelopes s.cfg dt (s.voice k)) ∧
      (∀ k, k ∉ r → t.voice k = u.voice k) ∧ order.Nodup ∧ ∀ k, k ∈ order ↔ k ∈ r ∧ reapedBy s dt k = false := by
  intro fuel
  induction fuel with
  | zero =>
    intro a r u c hlen hnd hu hv
    have hr : r = [] := List.length_eq_zero_iff.1 (by omega)
    subst hr
    exact ⟨u, rfl, rfl, hu, by simp [soundingOrder], by simp, by simp, by simp [soundingOrder], by simp [soundingOrder]⟩
  | succ fuel ih =>
    intro a r u c hlen hnd hu hv
    cases r with
    | nil =>
      refine ⟨u, ?_, rfl, hu, by simp [soundingOrder], by simp, by simp, by simp [soundingOrder], by simp [soundingOrder]⟩
      unfold mixVoices
      rw [List.append_nil, List.getElem?_eq_none (le_refl _)]
      simp [soundingOrder, mixOver]
    | cons k r =>
      obtain ⟨vs, sd, rfl⟩ : ∃ vs sd, u = { s with voices := vs, seed := sd } := ⟨_, _, hu⟩
      generalize hus : ({ s with voices := vs, seed := sd } : State) = u at *
      have hk : (a ++ k :: r)[a.length]? = some k := by simp
      have hkr : k ∉ r := fun h => (List.nodup_cons.1 hnd.of_append_right).1 h
      have hvk : u.voice k = s.voice k := hv k (by simp)
      have hcfg : u.cfg = s.cfg := by rw [← hus]
      have hperm := swapRest_perm r
      dsimp only
      rw [soundingOrder_cons]
      by_cases hoff : reapedBy s dt k = true
      · rw [if_pos hoff]
        have hoff' : (voiceEnvelopes s.cfg dt (s.voice k)).venv.stage = .off := by simpa [reapedBy] using hoff
        have ev : voiceStep k dt u = (u.setVoice k (voiceEnvelopes s.cfg dt (s.voice k)), none) := by
          unfold voiceStep; dsimp only; rw [hcfg, hvk, if_pos hoff']
        have em : mixVoices dt (fuel + 1) a.length ⟨u, a ++ k :: r, c⟩ =
            mixVoices dt fuel a.length ⟨u.setVoice k (voiceEnvelopes s.cfg dt (s.voice k)), a ++ swapRest r, c⟩ := by
          conv_lhs => unfold mixVoices
          dsimp only
          rw [hk]; dsimp only
          rw [ev]; dsimp only
          rw [swapRemove_append]
        have hnd' : (a ++ swapRest r).Nodup :=
          (List.Perm.append_left a hperm).nodup_iff.2 (hnd.sublist (by simp))
        obtain ⟨t, q1, q2, q3, q4, q5, q6, q7, q8⟩ := ih a (swapRest r) (u.setVoice k (voiceEnvelopes s.cfg dt (s.voice k))) c
          (by rw [hperm.length_eq]; simp at hlen; omega) hnd' (by rw [← hus]; rfl) (fun j hj => by
            have hj' := hperm.mem_iff.1 hj
            rw [setVoice_voice, if_neg (by rintro rfl; exact hkr hj')]; exact hv j (by simp [hj']))
        refine ⟨t, by rw [em]; exact q1, q2, q3, q4, ?_, ?_, q7, ?_⟩
        · intro j hj hjo
          rcases List.mem_cons.1 hj with rfl | hj
          · rw [q6 _ (fun h => hkr (hperm.mem_iff.1 h)), setVoice_voice, if_pos rfl]
          · exact q5 j (hperm.mem_iff.2 hj) hjo
        · intro j hj
          rw [q6 j (fun h => hj (by simp [hperm.mem_iff.1 h])), setVoice_voice, if_neg (by rintro rfl; exact hj (by simp))]
        · intro j
          rw [q8, hperm.mem_iff, List.mem_cons]
          constructor
          · rintro ⟨h1, h2⟩; exact ⟨Or.inr h1, h2⟩
          · rintro ⟨rfl | h1, h2⟩
            · rw [hoff] at h2; cases h2
            · exact ⟨h1, h2⟩
      · rw [if_neg hoff]
        have hoff' : ¬ (voiceEnvelopes s.cfg dt (s.voice k)).venv.stage = .off := by simpa [reapedBy] using hoff
        have es : voiceSound k dt (voiceEnvelopes s.cfg dt (s.voice k)) u =
            ({ u.setVoice k ((soundAt s dt k u.seed).1.voice k) with seed := (soundAt s dt k u.seed).1.seed },
              (soundAt s dt k u.seed).2) := by
          have e1 : ∀ (w : Voice) (x : Word), ({ ({ s with seed := x } : State).setVoice k w with seed := x } : State).voice k = w :=
            fun w x => (setVoice_voice { s with seed := x } k k w).trans (if_pos rfl)
          rw [← hus]
          have e2 : (soundAt s dt k sd).1.voice k = _ := (setVoice_voice { s with seed := sd } k k _).trans (if_pos rfl)
          dsimp only
          rw [e2]
          rfl
        have ev : voiceStep k dt u = ((voiceSound k dt (voiceEnvelopes s.cfg dt (s.voice k)) u).1, some (voiceSound k dt (voiceEnvelopes s.cfg dt (s.voice k)) u).2) := by
          unfold voiceStep; dsimp only; rw [hcfg, hvk, if_neg hoff']
        rw [es] at ev
        generalize hu' : ({ u.setVoice k ((soundAt s dt k u.seed).1.voice k) with seed := (soundAt s dt k u.seed).1.seed } : State) = u' at ev
        have hseed : u'.seed = (soundAt s dt k u.seed).1.seed := by rw [← hu']
        have hvoice : ∀ j, u'.voice j = if k = j then (soundAt s dt k u.seed).1.voice k else u.voice j := by
          intro j; rw [← hu']; exact setVoice_voice u k j _
        have em : mixVoices dt (fuel + 1) a.length ⟨u, a ++ k :: r, c⟩ =
            mixVoices dt fuel (a ++ [k]).length ⟨u', (a ++ [k]) ++ r, c.add (soundAt s dt k u.seed).2⟩ := by
          conv_lhs => unfold mixVoices
          dsimp only
          rw [hk]; dsimp only
          rw [ev]; dsimp only
          simp
        obtain ⟨t, q1, q2, q3, q4, q5, q6, q7, q8⟩ := ih (a ++ [k]) r u' (c.add (soundAt s dt k u.seed).2)
          (by simp at hlen; omega) (by simpa using hnd) (by rw [← hu', ← hus]; rfl) (fun j hj => by
            rw [hvoice, if_neg (by rintro rfl; exact hkr hj)]; exact hv j (by simp [hj]))
        have hm : ∀ l, mixOver s dt (u.seed, c) (k :: l) = mixOver s dt (u'.seed, c.add (soundAt s dt k u.seed).2) l := by
          intro l; rw [hseed]; rfl
        refine ⟨t, ?_, by rw [hm]; exact q2, q3, ?_, ?_, ?_, ?_, ?_⟩
        · rw [em, hm, q1]; simp
        · intro b j d hb
          cases b with
          | nil =>
            obtain ⟨rfl, -⟩ := List.cons.inj hb
            rw [q6 _ hkr, hvoice, if_pos rfl]; rfl
          | cons b0 b =>
            obtain ⟨rfl, hb1⟩ := List.cons.inj hb
            rw [hm]; exact q4 b j d hb1
        · intro j hj hjo
          rcases List.mem_cons.1 hj with rfl | hj
          · exact absurd hjo hoff
          · exact q5 j hj hjo
        · intro j hj
          rw [q6 j (fun h => hj (by simp [h])), hvoice, if_neg (by rintro rfl; exact hj (by simp))]
        · exact List.nodup_cons.2 ⟨fun h => hkr ((q8 k).1 h).1, q7⟩
        · intro j
          rw [List.mem_cons, List.mem_cons, q8]
          constructor
          · rintro (rfl | ⟨h1, h2⟩)
            · exact ⟨Or.inl rfl, by simpa using hoff⟩
            · exact ⟨Or.inr h1, h2⟩
          · rintro ⟨rfl | h1, h2⟩
            · exact Or.inl rfl
            · exact Or.inr ⟨h1, h2⟩
/-- Over any list the voice loop changes only voices and the seed, and no gate (45_voice_mixer.md R324, R325). -/
theorem mixVoices_frame (dt : F32) : ∀ (fuel i : Nat) (m : MixState),
    (mixVoices dt fuel i m).s =
        { m.s with voices := (mixVoices dt fuel i m).s.voices, seed := (mixVoices dt fuel i m).s.seed } ∧
      ∀ k, ((mixVoices dt fuel i m).s.voice k).gate = (m.s.voice k).gate := by
  intro fuel
  induction fuel with
  | zero => intro i m; exact ⟨rfl, fun _ => rfl⟩
  | succ fuel ih =>
    intro i m
    unfold mixVoices
    cases hk : m.active[i]? with
    | none => exact ⟨rfl, fun _ => rfl⟩
    | some k =>
      obtain ⟨v', seed', h1, h2, -, -⟩ := voiceStep_spec k dt m.s
      have hg : ∀ j, ((voiceStep k dt m.s).1.voice j).gate = (m.s.voice j).gate := by
        intro j
        rw [h1, show ({ m.s.setVoice k v' with seed := seed' } : State).voice j = (m.s.setVoice k v').voice j from rfl,
          setVoice_voice]
        split
        · rename_i hkj; rw [← hkj]; exact h2.gate
        · rfl
      have step : ∀ (i' : Nat) (active : List VoiceIx) (c : F32),
          (mixVoices dt fuel i' ⟨(voiceStep k dt m.s).1, active, c⟩).s =
              { m.s with
                voices := (mixVoices dt fuel i' ⟨(voiceStep k dt m.s).1, active, c⟩).s.voices
                seed := (mixVoices dt fuel i' ⟨(voiceStep k dt m.s).1, active, c⟩).s.seed } ∧
            ∀ j, ((mixVoices dt fuel i' ⟨(voiceStep k dt m.s).1, active, c⟩).s.voice j).gate = (m.s.voice j).gate := by
        intro i' active c
        obtain ⟨q1, q2⟩ := ih i' ⟨(voiceStep k dt m.s).1, active, c⟩
        refine ⟨?_, fun j => (q2 j).trans (hg j)⟩
        refine q1.trans ?_
        dsimp only
        generalize (mixVoices dt fuel i' ⟨(voiceStep k dt m.s).1, active, c⟩).s = u
        rw [h1]; rfl
      dsimp only
      cases hx : voiceStep k dt m.s with
      | mk s' o =>
        rw [hx] at step
        cases o with
        | none => exact step _ _ _
        | some c => exact step _ _ _

/-- Over any list the steps a to e of a sample step emit one frame with equal channels and leave the rest as it was but for
the LFO, the derived registers, voices and the seed (45_voice_mixer.md R324, R331). -/
theorem renderFrame_frame (active : List VoiceIx) (s : State) :
    ∃ q, (renderFrame active s).1 =
        { recompute (lfoUpdate (sampleInterval s.cfg) s) with
          voices := (renderFrame active s).1.voices, seed := (renderFrame active s).1.seed, pcm := s.pcm ++ [⟨q, q⟩] } ∧
      ∀ k, ((renderFrame active s).1.voice k).gate = (s.voice k).gate := by
  unfold renderFrame
  dsimp only
  obtain ⟨q1, q2⟩ := mixVoices_frame (sampleInterval s.cfg) active.length 0
    ⟨recompute (lfoUpdate (sampleInterval s.cfg) s), active, zeroF⟩
  generalize mixVoices (sampleInterval s.cfg) active.length 0
    ⟨recompute (lfoUpdate (sampleInterval s.cfg) s), active, zeroF⟩ = m at *
  refine ⟨pcmQuantize m.s.cfg.outputScale m.sample, ?_, q2⟩
  exact congrArg (pcmEmit (pcmQuantize m.s.cfg.outputScale m.sample) (pcmQuantize m.s.cfg.outputScale m.sample)) q1

/-- Everything steps a to e of a sample step can do over a list with no repeats: the LFO and the derived registers move,
the listed voices advance once each, the seed may step, one frame is emitted with equal channels
(45_voice_mixer.md R324, R331). -/
theorem renderFrame_spec {active : List VoiceIx} (s : State) (h : active.Nodup) :
    ∃ t l q, renderFrame active s = (t, l) ∧
      t = { recompute (lfoUpdate (sampleInterval s.cfg) s) with
        voices := t.voices, seed := t.seed, pcm := s.pcm ++ [⟨q, q⟩] } ∧
      (s.seed ≠ 0#32 → t.seed ≠ 0#32) ∧
      (∀ k ∈ active, (s.voice k).Advanced s.cfg (sampleInterval s.cfg) (t.voice k)) ∧
      (∀ k, k ∉ active → t.voice k = s.voice k) ∧ l.Nodup ∧ ∀ k, k ∈ l ↔ k ∈ active ∧ (t.voice k).active = true := by
  obtain ⟨s', b, c', q1, q2, q3, q4, q5, q6, q7⟩ := mixVoices_spec (sampleInterval s.cfg) active.length [] active
    (recompute (lfoUpdate (sampleInterval s.cfg) s)) zeroF (le_refl _) (by simpa using h)
  unfold renderFrame
  dsimp only
  rw [List.nil_append, List.length_nil] at q1
  rw [q1]
  refine ⟨_, _, pcmQuantize s'.cfg.outputScale c', rfl, ?_, fun hs => q3 (oscUpdate_seed_ne hs), q4, q5, q6, q7⟩
  exact congrArg (pcmEmit (pcmQuantize s'.cfg.outputScale c') (pcmQuantize s'.cfg.outputScale c')) q2

/-- The LFO update moves the LFO's state and value and may step the seed (42_oscillator_lfo.md R203). -/
theorem lfoUpdate_ok (dt : F32) {s : State} (h : s.lfoSt.Ok) : (lfoUpdate dt s).lfoSt.Ok := oscUpdate_ok _ _ _ _ _ h.index

theorem lfoUpdate_seed_ne (dt : F32) {s : State} (h : s.seed ≠ 0#32) : (lfoUpdate dt s).seed ≠ 0#32 := oscUpdate_seed_ne h

/-- Everything a sample step can do while a block runs over a list with no repeats (45_voice_mixer.md R324; 10_state.md
R50): `renderFrame`, then one frame fewer to go, or the end of the block. -/
theorem sampleStep_cases {s : State} {p : Port} {n : Nat} {active : List VoiceIx} (h : s.seq = .rendering p n active) :
    ((n ≤ 1 ∧ sampleStep s = completeTxn p { (renderFrame active s).1 with seq := .idle }) ∨
      (2 ≤ n ∧ sampleStep s =
        { (renderFrame active s).1 with seq := .rendering p (n - 1) (renderFrame active s).2 })) := by
  unfold sampleStep
  rw [h]
  dsimp only
  by_cases h1 : n ≤ 1
  · left; rw [if_pos h1]; exact ⟨h1, rfl⟩
  · right; rw [if_neg h1]; exact ⟨by omega, rfl⟩

theorem mem_activeList (s : State) (k : VoiceIx) : k ∈ activeList s ↔ (s.voice k).active = true := by
  unfold activeList; simp [List.mem_finRange]

theorem activeList_nodup (s : State) : (activeList s).Nodup := (List.nodup_finRange 24).filter _

/-- The active list is ascending (45_voice_mixer.md R312). -/
theorem activeList_sorted (s : State) : (activeList s).Pairwise (· < ·) := by
  unfold activeList
  exact (by decide : (List.finRange 24).Pairwise (· < ·)).filter _

end Sys2Proof.Machine
end

