-- ==== Sys2Proof/Laws/Step.lean ====
section
/-! SUPPORT. What an operation and a step can do, said once: the effect of each operation as a function, the cases of a bus
write and of a command, and the inversion of a step (20_memory.md R71, R72; 46_host_commands.md R350 to R357;
60_exceptions.md R412). -/

namespace Sys2Proof.Machine

/-- The state an operation leaves: every operation completes (60_exceptions.md R401). -/
def effect (i : Instr) (s : State) : State :=
  match i with
  | .nop _ => s
  | .gate _ v d => gateCommand v d s
  | .render p n => renderCommand p n s
  | .busWrite p off v => memWrite p off v s
  | .busRead p off => respond p (memRead off s).1 (memRead off s).2

theorem exec_eq (i : Instr) (s : State) : exec i s = .next (effect i s) := by cases i <;> rfl

/-- Everything a command word can do (46_host_commands.md R350). -/
theorem commandWord_cases (p : Port) (w : Word) (s : State) :
    commandWord p w s = s ∨ (∃ v d, decodeCmd w = .ok (.gate v d) ∧ commandWord p w s = gateCommand v d s) ∨
      (∃ n, decodeCmd w = .ok (.render n) ∧ commandWord p w s = renderCommand p n s) ∨
      (∃ e, decodeCmd w = .error e ∧ commandWord p w s = raiseError .cmd s) := by
  unfold commandWord
  cases h : decodeCmd w with
  | error e => exact Or.inr (Or.inr (Or.inr ⟨e, rfl, rfl⟩))
  | ok c =>
    cases c with
    | nop => exact Or.inl rfl
    | gate v d => exact Or.inr (Or.inl ⟨v, d, rfl, rfl⟩)
    | render n => exact Or.inr (Or.inr (Or.inl ⟨n, rfl, rfl⟩))

/-- Everything a bus write can do (20_memory.md R72). -/
theorem memWrite_cases (p : Port) (off : BitVec 12) (v : Word) (s : State) :
    (∃ e, memWrite p off v s = raiseError e s) ∨ (off = 0#12 ∧ memWrite p off v s = commandWord p v s) ∨
      (off = 4#12 ∧ memWrite p off v s = clearErrors v s) ∨
      (∃ r, regAt off = some r ∧ r.readOnly = false ∧ r ≠ .cmd ∧ r ≠ .status ∧ r.accepts v = true ∧
        memWrite p off v s = storeReg r v s) := by
  unfold memWrite
  split
  · exact Or.inl ⟨.addr, rfl⟩
  · split
    · exact Or.inl ⟨.addr, rfl⟩
    · rename_i r hr
      unfold writeMapped
      split
      · exact Or.inl ⟨.addr, rfl⟩
      · rename_i hro
        split
        · rename_i hc
          refine Or.inr (Or.inl ⟨?_, rfl⟩)
          subst hc
          exact regAt_cmd hr
        · rename_i hc
          split
          · rename_i hs
            refine Or.inr (Or.inr (Or.inl ⟨?_, rfl⟩))
            subst hs
            exact regAt_status hr
          · rename_i hs
            split
            · rename_i ha
              exact Or.inr (Or.inr (Or.inr ⟨r, hr, by simpa using hro, hc, hs, ha, rfl⟩))
            · exact Or.inl ⟨.value, rfl⟩

/-- A bus read returns a word and may raise `ERR_ADDR`; nothing else (20_memory.md R71, R75). -/
theorem memRead_cases (off : BitVec 12) (s : State) :
    memRead off s = (0#32, raiseError .addr s) ∨ ∃ r, regAt off = some r ∧ memRead off s = (readReg s r, s) := by
  unfold memRead
  split
  · exact Or.inl rfl
  · split
    · exact Or.inl rfl
    · rename_i r hr; exact Or.inr ⟨r, hr, rfl⟩

/-- A transaction is a `RENDER` exactly where the decoder reads one (30_encoding.md R104, R111). -/
theorem decodeTxn_render {p : Port} {t : BusTxn} {q : Port} {n : BitVec 24} (h : decodeTxn p t = .render q n) :
    isRenderTxn t = true ∧ q = p := by
  obtain ⟨a, d⟩ := t
  cases d with
  | none => simp [decodeTxn] at h
  | some w =>
    unfold decodeTxn at h
    dsimp only at h
    split at h
    · rename_i ha
      cases hd : decodeCmd w with
      | error e => rw [hd] at h; cases h
      | ok c =>
        rw [hd] at h
        cases c with
        | nop => cases h
        | gate v d => cases h
        | render m =>
          simp only [Cmd.toInstr, Instr.render.injEq] at h
          refine ⟨?_, h.1.symm⟩
          unfold decodeCmd at hd
          split at hd
          · cases hd
          · split at hd
            · cases hd
            · split at hd
              · rename_i hm
                simp [isRenderTxn, ha, hm]
              · split at hd <;> cases hd
    · cases h

/-- The decoder reads a `RENDER` from every transaction that is one (30_encoding.md R104, R111). -/
theorem decodeTxn_of_isRenderTxn {p : Port} {t : BusTxn} (h : isRenderTxn t = true) :
    ∃ n, decodeTxn p t = .render p n := by
  obtain ⟨a, d⟩ := t
  cases d with
  | none => simp [isRenderTxn] at h
  | some w =>
    simp only [isRenderTxn, Bool.and_eq_true, beq_iff_eq] at h
    obtain ⟨rfl, hm⟩ := h
    have h0 : w ≠ 0#32 := by rintro rfl; revert hm; decide
    have h1 : ¬ w &&& 0xFFFFE0FE#32 = 0x01000000#32 := by
      intro hg
      have h2 : (w &&& 0xFFFFE0FE#32) &&& 0xFF000000#32 = w &&& 0xFF000000#32 := by
        rw [BitVec.and_assoc]; congr 1
      rw [hg, hm] at h2
      revert h2; decide
    refine ⟨w.extractLsb' 0 24, ?_⟩
    simp [decodeTxn, decodeCmd, h0, h1, hm, Cmd.toInstr]

/-- A transaction decoded as a bus write is that write, and to `CMD` only with a word that is no command
(46_host_commands.md R350, R357). -/
theorem decodeTxn_busWrite {p : Port} {t : BusTxn} {q : Port} {off : BitVec 12} {v : Word}
    (h : decodeTxn p t = .busWrite q off v) :
    q = p ∧ t = ⟨off, some v⟩ ∧ (off = 0#12 → ∃ e, decodeCmd v = .error e) := by
  obtain ⟨a, d⟩ := t
  cases d with
  | none => simp [decodeTxn] at h
  | some w =>
    unfold decodeTxn at h
    dsimp only at h
    split at h
    · rename_i ha
      cases hd : decodeCmd w with
      | ok c => rw [hd] at h; cases c <;> cases h
      | error e =>
        rw [hd] at h
        simp only [Instr.busWrite.injEq] at h
        obtain ⟨rfl, rfl, rfl⟩ := h
        exact ⟨rfl, rfl, fun _ => ⟨e, hd⟩⟩
    · rename_i ha
      simp only [Instr.busWrite.injEq] at h
      obtain ⟨rfl, rfl, rfl⟩ := h
      exact ⟨rfl, rfl, fun h0 => absurd h0 ha⟩

theorem servable_some {s : State} {p : Port} {t : BusTxn} (h : servable s p = some t) :
    mayServe s p t = true ∧ ∃ q, (s.port p).queue = t :: q := by
  unfold servable at h
  split at h
  · cases h
  · rename_i u q hq
    split at h
    · rename_i hm
      simp only [Option.some.injEq] at h
      subst h
      exact ⟨hm, q, hq⟩
    · cases h

/-- The transaction a step serves is at the head of its port and may take effect (60_exceptions.md R412). -/
theorem nextTurn_serve {s : State} {p : Port} {t : BusTxn} (h : nextTurn s = .serve p t) : servable s p = some t := by
  unfold nextTurn at h
  split at h
  · unfold defaultTurn at h
    split at h
    · cases h
    · split at h
      · rename_i u hu
        simp only [Turn.serve.injEq] at h
        obtain ⟨rfl, rfl⟩ := h
        exact hu
      · split at h
        · rename_i u hu
          simp only [Turn.serve.injEq] at h
          obtain ⟨rfl, rfl⟩ := h
          exact hu
        · cases h
  · cases h
  · split at h
    · rename_i u hu
      simp only [Turn.serve.injEq] at h
      obtain ⟨rfl, rfl⟩ := h
      exact hu
    · cases h
  · split at h <;> cases h
  · cases h

/-- A sample step happens only while a block runs (60_exceptions.md R412). -/
theorem nextTurn_sample {s : State} (h : nextTurn s = .sample) : ∃ p n active, s.seq = .rendering p n active := by
  have hb : s.busy = true → ∃ p n active, s.seq = .rendering p n active := by
    intro hb
    unfold State.busy at hb
    split at hb
    · cases hb
    · exact ⟨_, _, _, by assumption⟩
  unfold nextTurn at h
  split at h
  · unfold defaultTurn at h
    split at h
    · exact ⟨_, _, _, by assumption⟩
    · split at h
      · cases h
      · split at h <;> cases h
  · cases h
  · split at h <;> cases h
  · split at h
    · exact hb (by assumption)
    · cases h
  · cases h

/-- Everything a step can do (60_exceptions.md R412): nothing, a transaction issued, an operation served and its
transaction completed, a sample step, or reset. -/
theorem step_cases {s t : State} (h : step s = .next t) :
    let s0 := { s with schedule := s.schedule.tail }
    (nextTurn s = .nothing ∧ t = s0) ∨ (∃ p x, nextTurn s = .issue p x ∧ t = issueTxn p x s0) ∨
      (∃ p x, nextTurn s = .serve p x ∧ t = completeUnlessRendering p (effect (decodeTxn p x) s0)) ∨
      (nextTurn s = .sample ∧ t = sampleStep s0) ∨ (nextTurn s = .reset ∧ t = applyReset s0) := by
  intro s0
  unfold step at h
  dsimp only at h
  split at h
  · exact Or.inl ⟨by assumption, (Host.Outcome.next.inj h).symm⟩
  · exact Or.inr (Or.inl ⟨_, _, by assumption, (Host.Outcome.next.inj h).symm⟩)
  · rw [exec_eq] at h
    exact Or.inr (Or.inr (Or.inl ⟨_, _, by assumption, (Host.Outcome.next.inj h).symm⟩))
  · exact Or.inr (Or.inr (Or.inr (Or.inl ⟨by assumption, (Host.Outcome.next.inj h).symm⟩)))
  · exact Or.inr (Or.inr (Or.inr (Or.inr ⟨by assumption, (Host.Outcome.next.inj h).symm⟩)))

end Sys2Proof.Machine
end

