-- ==== Sys2Proof/Laws/Invariant.lean ====
section
/-! SUPPORT. Each operation keeps the invariant of Safety.lean: one lemma per operation, for the claim about a step. -/

namespace Sys2Proof.Machine

theorem State.SeqOk.of_eq {s t : State} (h : s.SeqOk) (hseq : t.seq = s.seq)
    (hv : ∀ k, (s.voice k).active = true → (t.voice k).active = true)
    (hq : ∀ p x q, (s.port p).queue = x :: q → ∃ q', (t.port p).queue = x :: q') : t.SeqOk := by
  intro p n active hr
  rw [hseq] at hr
  have h1 := h p n active hr
  obtain ⟨x, q, h2, h3⟩ := h1.head
  obtain ⟨q', h4⟩ := hq p x q h2
  exact ⟨h1.some_left, h1.count, h1.distinct, fun k hk => hv k (h1.sounding k hk), x, q', h4, h3⟩

theorem State.SeqOk.of_idle {s : State} (h : s.seq = .idle) : s.SeqOk := by
  intro p n active hr
  rw [h] at hr; cases hr

/-- The parts of the invariant that an operation which touches neither sequencer nor ports must keep. -/
theorem State.Inv.of_engine {s t : State} (h : s.Inv) (hfs : t.cfg.fs ≠ 0#32) (hseed : t.seed ≠ 0#32) (hhw : t.hw = s.hw)
    (hlfo : t.lfoSt.Ok) (hv : ∀ k, (t.voice k).Ok) (hact : ∀ k, (s.voice k).active = true → (t.voice k).active = true)
    (hseq : t.seq = s.seq) (hc : t.ctrl = s.ctrl) (ha : t.audio = s.audio) : t.Inv where
  fs := hfs
  seed := hseed
  seed0 := by rw [hhw]; exact h.seed0
  lfo := hlfo
  voices := hv
  seq := State.SeqOk.of_eq h.seq hseq hact (fun p x q hq => ⟨q, by rw [port_congr hc ha]; exact hq⟩)
  ctrl := by rw [hc]; exact h.ctrl
  audio := by rw [ha]; exact h.audio
  oneOwed := by rw [hc, ha]; exact h.oneOwed

theorem raiseError_inv {s : State} (e : ErrorBit) (h : s.Inv) : (raiseError e s).Inv :=
  h.of_engine h.fs h.seed rfl h.lfo h.voices (fun _ => id) rfl rfl rfl

theorem clearErrors_inv {s : State} (m : Word) (h : s.Inv) : (clearErrors m s).Inv :=
  h.of_engine h.fs h.seed rfl h.lfo h.voices (fun _ => id) rfl rfl rfl

theorem store_fs {c : Cfg} {r : Reg} {v : Word} (h : c.fs ≠ 0#32) (ha : r.accepts v = true) : (c.store r v).fs ≠ 0#32 := by
  cases r with
  | fs =>
    show v ≠ 0#32
    simpa [Reg.accepts] using ha
  | osc o f => cases o <;> exact h
  | env e f => cases e <;> exact h
  | _ => exact h

theorem storeReg_inv {s : State} {r : Reg} {v : Word} (h : s.Inv) (ha : r.accepts v = true) : (storeReg r v s).Inv :=
  h.of_engine (store_fs h.fs ha) h.seed rfl h.lfo h.voices (fun _ => id) rfl rfl rfl

/-- Replacing a voice by one in its ranges that is active where the old one was. -/
theorem setVoice_inv {s : State} (k : VoiceIx) {v : Voice} (h : s.Inv) (hv : v.Ok)
    (hact : (s.voice k).active = true → v.active = true) : (s.setVoice k v).Inv := by
  refine h.of_engine h.fs h.seed rfl h.lfo (fun j => ?_) (fun j hj => ?_) rfl rfl rfl
  · rw [setVoice_voice]
    split
    · exact hv
    · exact h.voices j
  · rw [setVoice_voice]
    split
    · rename_i hkj; subst hkj; exact hact hj
    · exact hj

theorem setKey_inv {s : State} (k : VoiceIx) (h : s.Inv) : ({ s with mostRecentKey := k } : State).Inv :=
  h.of_engine h.fs h.seed rfl h.lfo h.voices (fun _ => id) rfl rfl rfl

theorem oscReset_ok (o : OscState) : (oscReset o).Ok :=
  ⟨phaseOk_zeroF, by simp only [oscReset]; omega, by simp only [oscReset]; omega, by simp only [oscReset]; omega⟩

/-- A rising edge of a voice: the state it leaves, with one voice replaced (43_envelope.md R237; 45_voice_mixer.md R311). -/
theorem risingEdge_eq (k : VoiceIx) (s : State) :
    risingEdge k s =
      let v := s.voice k
      let start := decide (v.venv.stage = .off)
      { s.setVoice k
          { osc0 := if start then oscReset v.osc0 else v.osc0
            osc1 := if start then oscReset v.osc1 else v.osc1
            fenv := { v.fenv with stage := .attack }
            venv := { v.venv with stage := .attack }
            flt := if start then filterClear v.flt else v.flt
            gate := true } with
        mostRecentKey := if start then k else s.mostRecentKey } := by
  have hset : ∀ (t : State) (v w : Voice), (t.setVoice k v).setVoice k w = t.setVoice k w := by
    intro t v w
    unfold State.setVoice
    congr 1
    simp
  unfold risingEdge
  dsimp only
  by_cases h : (s.voice k).venv.stage = .off
  · rw [if_pos h]
    simp only [h, decide_true, if_true, voiceStart, setVoice_voice]
    have e1 : ∀ (t : State) (v w : Voice) (j : VoiceIx), ({ t.setVoice k v with mostRecentKey := j } : State).setVoice k w
        = { (t.setVoice k v).setVoice k w with mostRecentKey := j } := fun _ _ _ _ => rfl
    have e2 : ∀ (t : State) (v : Voice) (j : VoiceIx), ({ t.setVoice k v with mostRecentKey := j } : State).voice k = v := by
      intro t v j
      exact (setVoice_voice t k k v).trans (if_pos rfl)
    rw [e1, e2, hset, hset]
  · rw [if_neg h]
    simp only [h, decide_false, setVoice_voice, if_true, hset]
    rfl

theorem risingEdge_inv {s : State} (k : VoiceIx) (h : s.Inv) : (risingEdge k s).Inv := by
  have hv := h.voices k
  rw [risingEdge_eq]
  dsimp only
  refine setKey_inv _ (setVoice_inv k h ?_ (fun _ => rfl))
  refine ⟨?_, ?_, (fun h1 => by cases h1), (fun h1 => by cases h1), rfl, rfl⟩
  · dsimp only; split
    · exact oscReset_ok _
    · exact hv.osc0
  · dsimp only; split
    · exact oscReset_ok _
    · exact hv.osc1

theorem fallingEdge_inv {s : State} (k : VoiceIx) (h : s.Inv) : (fallingEdge k s).Inv := by
  have hv := h.voices k
  exact setVoice_inv k h ⟨hv.osc0, hv.osc1, (fun h1 => by cases h1), (fun h1 => by cases h1), rfl, rfl⟩ (fun _ => rfl)

theorem gateCommand_inv {s : State} (v : BitVec 5) (d : Bool) (h : s.Inv) : (gateCommand v d s).Inv := by
  unfold gateCommand
  split
  · unfold gateVoice
    split
    · exact h
    · split
      · exact risingEdge_inv _ h
      · exact fallingEdge_inv _ h
  · exact raiseError_inv _ h

theorem lfoUpdate_inv {s : State} (dt : F32) (h : s.Inv) : (lfoUpdate dt s).Inv :=
  h.of_engine h.fs (lfoUpdate_seed_ne dt h.seed) rfl (lfoUpdate_ok dt h.lfo) h.voices (fun _ => id) rfl rfl rfl

theorem recompute_inv {s : State} (h : s.Inv) : (recompute s).Inv :=
  h.of_engine h.fs h.seed rfl h.lfo h.voices (fun _ => id) rfl rfl rfl

theorem pcmEmitZeros_inv {s : State} (n : Nat) (h : s.Inv) : (pcmEmitZeros n s).Inv :=
  h.of_engine h.fs h.seed rfl h.lfo h.voices (fun _ => id) rfl rfl rfl

theorem emptyBlock_inv {s : State} (n : Nat) (h : s.Inv) : (emptyBlock n s).Inv :=
  recompute_inv (lfoUpdate_inv _ (pcmEmitZeros_inv n h))

theorem setSchedule_inv {s : State} (l : List Event) (h : s.Inv) : ({ s with schedule := l } : State).Inv :=
  h.of_engine h.fs h.seed rfl h.lfo h.voices (fun _ => id) rfl rfl rfl

/-! Ports. -/

theorem State.Inv.port {s : State} (h : s.Inv) (p : Port) : (s.port p).Ok := by
  cases p
  · exact h.ctrl
  · exact h.audio

/-- Replacing a port's state by one in order, whose head stays where a block runs and which owes no more. -/
theorem setPort_inv {s : State} (p : Port) {x : PortState} (h : s.Inv) (hx : x.Ok)
    (hq : ∀ n active t q, s.seq = .rendering p n active → (s.port p).queue = t :: q → ∃ q', x.queue = t :: q')
    (ho : (s.port p).owed = 0 → x.owed = 0) : (s.setPort p x).Inv where
  fs := by rw [setPort_cfg]; exact h.fs
  seed := by rw [setPort_seed]; exact h.seed
  seed0 := by rw [setPort_hw]; exact h.seed0
  lfo := by rw [setPort_lfoSt]; exact h.lfo
  voices k := by rw [voice_congr (setPort_voices s p x)]; exact h.voices k
  seq := by
    intro r n active hr
    rw [setPort_seq] at hr
    have h1 := h.seq r n active hr
    obtain ⟨t, q, h2, h3⟩ := h1.head
    refine ⟨h1.some_left, h1.count, h1.distinct, fun k hk => ?_, ?_⟩
    · rw [voice_congr (setPort_voices s p x)]; exact h1.sounding k hk
    · by_cases hpr : p = r
      · subst hpr
        obtain ⟨q', h4⟩ := hq n active t q hr h2
        exact ⟨t, q', by rw [setPort_port, if_pos rfl]; exact h4, h3⟩
      · exact ⟨t, q, by rw [setPort_port, if_neg hpr]; exact h2, h3⟩
  ctrl := by
    have h1 := setPort_port s p .ctrl x
    show ((s.setPort p x).port .ctrl).Ok
    rw [h1]; split
    · exact hx
    · exact h.ctrl
  audio := by
    have h1 := setPort_port s p .audio x
    show ((s.setPort p x).port .audio).Ok
    rw [h1]; split
    · exact hx
    · exact h.audio
  oneOwed := by
    have h1 := h.oneOwed
    cases p
    · exact h1.imp ho id
    · exact h1.imp id ho

theorem respond_inv {s : State} (p : Port) (v : Word) (h : s.Inv) : (respond p v s).Inv :=
  setPort_inv p h ⟨(h.port p).pending, (h.port p).noRender⟩ (fun _ _ _ q _ hq => ⟨q, hq⟩) id

theorem issueTxn_inv {s : State} (p : Port) (t : BusTxn) (h : s.Inv) : (issueTxn p t s).Inv := by
  have h1 := h.port p
  refine setPort_inv p h ⟨?_, ?_⟩ (fun _ _ u q _ hq => ⟨q ++ [t], by dsimp only; rw [hq]; rfl⟩) id
  · have := h1.pending
    dsimp only; rw [List.length_append]; omega
  · have := h1.pending
    dsimp only
    rw [List.take_append_of_le_length this]
    exact h1.noRender

/-- The transaction at the head of a port that runs no block completes. -/
theorem completeTxn_inv {s : State} (p : Port) (h : s.Inv) (hs : ∀ n active, s.seq ≠ .rendering p n active) :
    (completeTxn p s).Inv := by
  have h1 := h.port p
  refine setPort_inv p h ⟨?_, ?_⟩ (fun n active _ _ hr => absurd hr (hs n active)) (fun h0 => by dsimp only; omega)
  · have := h1.pending
    dsimp only; rw [List.length_tail]; omega
  · dsimp only
    have h2 := h1.noRender
    intro t ht
    apply h2 t
    cases hq : (s.port p).queue with
    | nil => rw [hq] at ht; simp at ht
    | cons u q =>
      rw [hq] at ht
      cases ho : (s.port p).owed with
      | zero => rw [ho] at ht; simp at ht
      | succ m =>
        rw [ho] at ht
        simp only [List.tail_cons, Nat.add_one_sub_one] at ht
        rw [List.take_succ_cons]
        exact List.mem_cons_of_mem _ ht

/-- A port whose head is a `RENDER` is owed nothing (60_exceptions.md R412; log 11). -/
theorem owed_zero_of_head {x : PortState} {t : BusTxn} {q : List BusTxn} (h : x.Ok) (hq : x.queue = t :: q)
    (ht : isRenderTxn t = true) : x.owed = 0 := by
  cases ho : x.owed with
  | zero => rfl
  | succ m =>
    have := h.noRender t (by rw [hq, ho, List.take_succ_cons]; exact List.mem_cons_self)
    rw [this] at ht; cases ht

theorem markOwed_inv {s : State} (p : Port) (h : s.Inv) (hi : s.seq = .idle) (ho : (s.port p).owed = 0) :
    (markOwed p s).Inv where
  fs := by rw [markOwed_cfg]; exact h.fs
  seed := by rw [markOwed_seed]; exact h.seed
  seed0 := by rw [markOwed_hw]; exact h.seed0
  lfo := by rw [markOwed_lfoSt]; exact h.lfo
  voices k := by rw [voice_congr (markOwed_voices p s)]; exact h.voices k
  seq := State.SeqOk.of_idle (by rw [markOwed_seq]; exact hi)
  ctrl := by
    show ((markOwed p s).port .ctrl).Ok
    rw [markOwed_port]
    split
    · exact markOwed_ok _ _
    · exact h.ctrl
  audio := by
    show ((markOwed p s).port .audio).Ok
    rw [markOwed_port]
    split
    · exact markOwed_ok _ _
    · exact h.audio
  oneOwed := by
    cases p
    · exact Or.inl ho
    · exact Or.inr ho
where
  markOwed_ok (x : PortState) (f : BusTxn → Bool := fun t => !isRenderTxn t)
      (hf : ∀ t, f t = !isRenderTxn t := by exact fun _ => rfl) :
      ({ x with owed := (x.queue.takeWhile f).length } : PortState).Ok := by
    refine ⟨(List.takeWhile_sublist _).length_le, fun t ht => ?_⟩
    have h1 : x.queue.take (x.queue.takeWhile f).length = x.queue.takeWhile f :=
      (List.prefix_iff_eq_take.1 (List.takeWhile_prefix f)).symm
    rw [h1] at ht
    have h2 := List.mem_takeWhile_imp ht
    rw [hf] at h2
    simpa using h2

/-! Blocks, sample steps and reset. -/

theorem renderCommand_inv {s : State} (p : Port) (n : BitVec 24) (h : s.Inv) {t : BusTxn} {q : List BusTxn}
    (hq : (s.port p).queue = t :: q) (ht : isRenderTxn t = true) : (renderCommand p n s).Inv := by
  unfold renderCommand
  split
  · rename_i hi
    have hm := markOwed_inv p h hi (owed_zero_of_head (h.port p) hq ht)
    unfold startBlock
    split
    · exact emptyBlock_inv _ hm
    · rename_i k ks hk
      split
      · exact hm
      · rename_i hn
        have hmq : (({ markOwed p s with seq := .rendering p n.toNat (k :: ks) } : State).port p).queue = t :: q := by
          have h1 : ({ markOwed p s with seq := .rendering p n.toNat (k :: ks) } : State).port p = (markOwed p s).port p :=
            port_congr rfl rfl p
          rw [h1, markOwed_port, if_neg (by simp)]
          exact hq
        refine { fs := hm.fs, seed := hm.seed, seed0 := hm.seed0, lfo := hm.lfo, voices := hm.voices, seq := ?_
                 ctrl := hm.ctrl, audio := hm.audio, oneOwed := hm.oneOwed }
        intro r m active hr
        simp only [Seq.rendering.injEq] at hr
        obtain ⟨rfl, rfl, rfl⟩ := hr
        refine ⟨by omega, n.isLt, ?_, fun j hj => ?_, t, q, hmq, ht⟩
        · rw [← hk]; exact activeList_nodup _
        · exact (mem_activeList (markOwed p s) j).1 (by rw [hk]; exact hj)
  · exact h

theorem sampleStep_inv {s : State} (h : s.Inv) : (sampleStep s).Inv := by
  cases hs : s.seq with
  | idle =>
    have : sampleStep s = s := by unfold sampleStep; rw [hs]
    rw [this]; exact h
  | rendering p n active =>
    have hr := h.seq p n active hs
    obtain ⟨t, l, q, e1, e2, hseed, hin, hout, hnd, hl⟩ := renderFrame_spec s hr.distinct
    have hv : ∀ k, (t.voice k).Ok := by
      intro k
      by_cases hk : k ∈ active
      · exact (hin k hk).ok (h.voices k)
      · rw [hout k hk]; exact h.voices k
    have hcfg : t.cfg = s.cfg := by rw [e2]; rfl
    have hhw : t.hw = s.hw := by rw [e2]; rfl
    have hlfo : t.lfoSt.Ok := by rw [e2]; exact lfoUpdate_ok _ h.lfo
    have hc : t.ctrl = s.ctrl := by rw [e2]; rfl
    have ha : t.audio = s.audio := by rw [e2]; rfl
    have base : ({ t with seq := .idle } : State).Inv :=
      { fs := by rw [show ({ t with seq := .idle } : State).cfg = t.cfg from rfl, hcfg]; exact h.fs
        seed := hseed h.seed
        seed0 := by rw [show ({ t with seq := .idle } : State).hw = t.hw from rfl, hhw]; exact h.seed0
        lfo := hlfo, voices := hv, seq := State.SeqOk.of_idle rfl
        ctrl := by rw [show ({ t with seq := .idle } : State).ctrl = t.ctrl from rfl, hc]; exact h.ctrl
        audio := by rw [show ({ t with seq := .idle } : State).audio = t.audio from rfl, ha]; exact h.audio
        oneOwed := by
          rw [show ({ t with seq := .idle } : State).ctrl = t.ctrl from rfl,
            show ({ t with seq := .idle } : State).audio = t.audio from rfl, hc, ha]
          exact h.oneOwed }
    rcases sampleStep_cases hs with ⟨h1, h2⟩ | ⟨h1, h2⟩
    · rw [h2, e1]
      exact completeTxn_inv p base (fun _ _ hh => by cases hh)
    · rw [h2, e1]
      refine { fs := base.fs, seed := base.seed, seed0 := base.seed0, lfo := base.lfo, voices := base.voices, seq := ?_
               ctrl := base.ctrl, audio := base.audio, oneOwed := base.oneOwed }
      intro r m act hr'
      simp only [Seq.rendering.injEq] at hr'
      obtain ⟨rfl, rfl, rfl⟩ := hr'
      obtain ⟨u, w, h3, h4⟩ := hr.head
      have hcount := hr.count
      exact ⟨by omega, by omega, hnd, fun k hk => ((hl k).1 hk).2, u, w,
        by rw [port_congr (show ({ t with seq := .rendering p (n - 1) l } : State).ctrl = s.ctrl from hc) ha p]; exact h3, h4⟩

theorem oscZero_ok : OscState.zero.Ok := ⟨phaseOk_zeroF, by decide, by decide, by decide⟩

theorem voiceZero_ok : Voice.zero.Ok := ⟨oscZero_ok, oscZero_ok, fun _ => rfl, fun _ => rfl, rfl, rfl⟩

theorem resetWith_voice (hw : HwConfig) (k : VoiceIx) : (State.resetWith hw).voice k = Voice.zero := by
  simp [State.voice, State.resetWith]

/-- Reset of a block with a nonzero noise seed parameter meets the invariant (70_reset_and_hazards.md R430). -/
theorem resetWith_inv {hw : HwConfig} (h : hw.noiseSeed0 ≠ 0#32) : (State.resetWith hw).Inv where
  fs := by show (44100#32 : Word) ≠ 0#32; decide
  seed := h
  seed0 := h
  lfo := oscZero_ok
  voices k := by rw [resetWith_voice]; exact voiceZero_ok
  seq := State.SeqOk.of_idle rfl
  ctrl := ⟨Nat.le_refl _, fun t ht => by simp [State.resetWith, PortState.empty] at ht⟩
  audio := ⟨Nat.le_refl _, fun t ht => by simp [State.resetWith, PortState.empty] at ht⟩
  oneOwed := Or.inl rfl

theorem applyReset_inv {s : State} (h : s.Inv) : (applyReset s).Inv := by
  have hr := resetWith_inv h.seed0
  exact { fs := hr.fs, seed := hr.seed, seed0 := hr.seed0, lfo := hr.lfo, voices := hr.voices
          seq := State.SeqOk.of_idle rfl
          ctrl := ⟨Nat.le_refl _, fun t ht => by simp [applyReset] at ht⟩
          audio := ⟨Nat.le_refl _, fun t ht => by simp [applyReset] at ht⟩
          oneOwed := Or.inl rfl }

/-- The operation of a transaction at the head of its port keeps the invariant. -/
theorem effect_inv {s : State} (p : Port) {x : BusTxn} {q : List BusTxn} (h : s.Inv) (hq : (s.port p).queue = x :: q) :
    (effect (decodeTxn p x) s).Inv := by
  cases hd : decodeTxn p x with
  | nop r => exact h
  | gate r v d => exact gateCommand_inv _ _ h
  | render r n =>
    obtain ⟨h1, rfl⟩ := decodeTxn_render hd
    exact renderCommand_inv _ _ h hq h1
  | busWrite r off v =>
    obtain ⟨rfl, -, hc⟩ := decodeTxn_busWrite hd
    show (memWrite r off v s).Inv
    rcases memWrite_cases r off v s with ⟨e, h1⟩ | ⟨h0, h1⟩ | ⟨-, h1⟩ | ⟨g, -, -, -, -, ha, h1⟩
    · rw [h1]; exact raiseError_inv _ h
    · obtain ⟨e, he⟩ := hc h0
      rw [h1]; unfold commandWord; rw [he]; exact raiseError_inv _ h
    · rw [h1]; exact clearErrors_inv _ h
    · rw [h1]; exact storeReg_inv h ha
  | busRead r off =>
    show (respond r (memRead off s).1 (memRead off s).2).Inv
    apply respond_inv
    rcases memRead_cases off s with h1 | ⟨g, -, h1⟩
    · rw [h1]; exact raiseError_inv _ h
    · rw [h1]; exact h

theorem completeUnlessRendering_inv {s : State} (p : Port) (h : s.Inv) : (completeUnlessRendering p s).Inv := by
  unfold completeUnlessRendering
  split
  · rename_i hi
    exact completeTxn_inv p h (fun n active hs => by rw [hi] at hs; cases hs)
  · rename_i r m act hr
    split
    · exact h
    · rename_i hne
      refine completeTxn_inv p h (fun n active hs => ?_)
      rw [hr] at hs
      simp only [Seq.rendering.injEq] at hs
      exact hne hs.1

end Sys2Proof.Machine
end

