-- ==== Sys2Proof/Laws/Effect.lean ====
section
/-! SUPPORT. What every operation leaves alone, whatever it is: the queues, and the gates but for a `GATE`'s own voice. -/

namespace Sys2Proof.Machine

theorem gateCommand_cases (v : BitVec 5) (d : Bool) (s : State) :
    (24 ≤ v.toNat ∧ gateCommand v d s = raiseError .value s) ∨
      ∃ hv : v.toNat < 24,
        ((s.voice ⟨v.toNat, hv⟩).gate = d ∧ gateCommand v d s = s) ∨
        ((s.voice ⟨v.toNat, hv⟩).gate = false ∧ d = true ∧ gateCommand v d s = risingEdge ⟨v.toNat, hv⟩ s) ∨
        ((s.voice ⟨v.toNat, hv⟩).gate = true ∧ d = false ∧ gateCommand v d s = fallingEdge ⟨v.toNat, hv⟩ s) := by
  unfold gateCommand
  split
  · rename_i hv
    refine Or.inr ⟨hv, ?_⟩
    unfold gateVoice
    cases hg : (s.voice ⟨v.toNat, hv⟩).gate <;> cases d <;> simp
  · rename_i hv
    exact Or.inl ⟨by omega, rfl⟩

theorem gateCommand_port (v : BitVec 5) (d : Bool) (s : State) (p : Port) : (gateCommand v d s).port p = s.port p := by
  rcases gateCommand_cases v d s with ⟨-, h⟩ | ⟨hv, ⟨-, h⟩ | ⟨-, -, h⟩ | ⟨-, -, h⟩⟩ <;> rw [h]
  · exact port_congr rfl rfl p
  · rw [risingEdge_eq]; exact port_congr rfl rfl p
  · exact port_congr rfl rfl p

/-- A gate command changes no gate but its own voice's, which takes the value given (46_host_commands.md R352). -/
theorem gateCommand_gate (v : BitVec 5) (d : Bool) (s : State) (k : VoiceIx)
    (h : ((gateCommand v d s).voice k).gate ≠ (s.voice k).gate) :
    v = BitVec.ofNat 5 k.val ∧ d = ((gateCommand v d s).voice k).gate := by
  have hk : ∀ hv : v.toNat < 24, (⟨v.toNat, hv⟩ : VoiceIx) = k → v = BitVec.ofNat 5 k.val := by
    rintro hv rfl
    simp
  rcases gateCommand_cases v d s with ⟨-, h1⟩ | ⟨hv, ⟨-, h1⟩ | ⟨-, hd, h1⟩ | ⟨-, hd, h1⟩⟩ <;> rw [h1] at h ⊢
  · exact absurd rfl h
  · exact absurd rfl h
  · rw [risingEdge_eq] at h ⊢
    change ((State.setVoice s _ _).voice k).gate ≠ _ at h
    show _ ∧ d = ((State.setVoice s _ _).voice k).gate
    rw [setVoice_voice] at h ⊢
    split at h
    · rename_i hkk; rw [if_pos hkk]; exact ⟨hk hv hkk, hd⟩
    · exact absurd rfl h
  · unfold fallingEdge at h ⊢
    rw [setVoice_voice] at h ⊢
    split at h
    · rename_i hkk; rw [if_pos hkk]; exact ⟨hk hv hkk, hd⟩
    · exact absurd rfl h

theorem renderCommand_queue (p : Port) (n : BitVec 24) (s : State) (q : Port) :
    ((renderCommand p n s).port q).queue = (s.port q).queue := by
  have hm : ((markOwed p s).port q).queue = (s.port q).queue := by
    rw [markOwed_port]; split <;> rfl
  unfold renderCommand
  split
  · rw [← hm]
    unfold startBlock
    split
    · exact congrArg PortState.queue (port_congr rfl rfl q)
    · split
      · rfl
      · exact congrArg PortState.queue (port_congr rfl rfl q)
  · rfl

theorem renderCommand_voices (p : Port) (n : BitVec 24) (s : State) : (renderCommand p n s).voices = s.voices := by
  unfold renderCommand
  split
  · unfold startBlock
    split
    · exact markOwed_voices p s
    · split <;> exact markOwed_voices p s
  · rfl

/-- No operation issues or takes away a transaction. -/
theorem effect_queue (i : Instr) (s : State) (q : Port) : ((effect i s).port q).queue = (s.port q).queue := by
  cases i with
  | nop p => rfl
  | gate p v d => exact congrArg PortState.queue (gateCommand_port v d s q)
  | render p n => exact renderCommand_queue p n s q
  | busRead p off =>
    show ((respond p (memRead off s).1 (memRead off s).2).port q).queue = _
    rw [respond_port]
    rcases memRead_cases off s with h | ⟨r, -, h⟩ <;> rw [h]
    · have hp : ∀ r, (raiseError .addr s).port r = s.port r := port_congr rfl rfl
      dsimp only
      rw [hp, hp]
      split
      · rename_i hq; subst hq; rfl
      · rfl
    · dsimp only
      split
      · rename_i hq; subst hq; rfl
      · rfl
  | busWrite p off v =>
    show ((memWrite p off v s).port q).queue = _
    rcases memWrite_cases p off v s with ⟨e, h1⟩ | ⟨-, h1⟩ | ⟨h0, h1⟩ | ⟨r, -, -, -, -, -, h1⟩ <;> rw [h1]
    · exact congrArg PortState.queue (port_congr rfl rfl q)
    · rcases commandWord_cases p v s with h2 | ⟨v', d, -, h2⟩ | ⟨n, -, h2⟩ | ⟨e, -, h2⟩ <;> rw [h2]
      · exact congrArg PortState.queue (gateCommand_port v' d s q)
      · exact renderCommand_queue p n s q
      · exact congrArg PortState.queue (port_congr rfl rfl q)
    · exact congrArg PortState.queue (port_congr rfl rfl q)
    · exact congrArg PortState.queue (port_congr rfl rfl q)

/-- No decoded operation changes a gate but a `GATE` its own voice's (43_envelope.md R237, R238). -/
theorem effect_gate (p : Port) (x : BusTxn) (s : State) (k : VoiceIx)
    (h : ((effect (decodeTxn p x) s).voice k).gate ≠ (s.voice k).gate) :
    decodeTxn p x = .gate p (BitVec.ofNat 5 k.val) ((effect (decodeTxn p x) s).voice k).gate := by
  cases hd : decodeTxn p x with
  | nop r => rw [hd] at h; exact absurd rfl h
  | gate r v d =>
    rw [hd] at h
    obtain ⟨h1, h2⟩ := gateCommand_gate v d s k h
    have h3 : (decodeTxn p x).port = p := by
      unfold decodeTxn; split
      · rfl
      · split
        · split
          · rename_i c _; cases c <;> rfl
          · rfl
        · rfl
    rw [hd] at h3
    change r = p at h3
    show Instr.gate r v d = .gate p (BitVec.ofNat 5 k.val) ((gateCommand v d s).voice k).gate
    rw [← h2, ← h1, h3]
  | render r n =>
    rw [hd] at h
    exact absurd (congrArg Voice.gate (voice_congr (renderCommand_voices r n s) k)) h
  | busRead r off =>
    rw [hd] at h
    change ((respond r (memRead off s).1 (memRead off s).2).voice k).gate ≠ _ at h
    rw [voice_congr (respond_voices _ _ _)] at h
    rcases memRead_cases off s with h1 | ⟨g, -, h1⟩ <;> rw [h1] at h <;> exact absurd rfl h
  | busWrite r off v =>
    rw [hd] at h
    obtain ⟨rfl, -, hc⟩ := decodeTxn_busWrite hd
    change ((memWrite r off v s).voice k).gate ≠ _ at h
    rcases memWrite_cases r off v s with ⟨e, h1⟩ | ⟨h0, h1⟩ | ⟨-, h1⟩ | ⟨g, -, -, -, -, ha, h1⟩ <;> rw [h1] at h
    · exact absurd rfl h
    · obtain ⟨e, he⟩ := hc h0
      unfold commandWord at h; rw [he] at h; exact absurd rfl h
    · exact absurd rfl h
    · exact absurd rfl h

/-- After an operation of port `p` its transaction completes or, where its block now runs, stays; nothing else changes. -/
theorem completeUnlessRendering_cases (p : Port) (s : State) :
    completeUnlessRendering p s = completeTxn p s ∨ completeUnlessRendering p s = s := by
  unfold completeUnlessRendering
  split
  · exact Or.inl rfl
  · split
    · exact Or.inr rfl
    · exact Or.inl rfl

end Sys2Proof.Machine
end

