-- ==== Sys2Proof/Laws/Interval.lean ====
section
/-! SUPPORT. The sample interval of a legal sample rate is a finite positive number (45_voice_mixer.md R323). -/

namespace Sys2Proof.Machine

theorem sampleInterval_ok {g : Cfg} (h : g.fs ≠ 0#32) : (sampleInterval g).isFinite = true ∧ 0 < (sampleInterval g).place := by
  have hw : 0 < g.fs.toNat := by
    rcases Nat.eq_zero_or_pos g.fs.toNat with h0 | h0
    · exact absurd (BitVec.eq_of_toNat_eq h0) h
    · exact h0
  have hw2 : g.fs.toNat < 2 ^ 32 := g.fs.isLt
  have m181 : F32.magOf (159 * 2 ^ 23) = 2 ^ 181 := by decide
  obtain ⟨b, hb, hb1, hb2, hb3⟩ : ∃ b, F32.ofWord g.fs = b ∧ b.isFinite = true ∧ 2 ^ 149 ≤ b.place ∧ b.place ≤ 2 ^ 181 := by
    refine ⟨_, rfl, ?_⟩
    unfold F32.ofWord F32.ofInt
    refine ⟨isFinite_roundInt (g := 159 * 2 ^ 23) _ (by decide) (by rw [m181]; omega), ?_⟩
    rw [F32.place_roundInt]
    have h1 : F32.roundPlace (F32.magOf (127 * 2 ^ 23) : Int) ≤ F32.roundPlace ((g.fs.toNat : Int) * 2 ^ 149) := F32.roundPlace_mono (by rw [F32.magOf_one]; omega)
    have h2 : F32.roundPlace ((g.fs.toNat : Int) * 2 ^ 149) ≤ F32.roundPlace (F32.magOf (159 * 2 ^ 23) : Int) := F32.roundPlace_mono (by rw [m181]; omega)
    have hr : ∀ k ≤ 255 * 2 ^ 23, F32.roundPlace (F32.magOf k : Int) = F32.magOf k := fun k hk => by
      rw [F32.roundPlace_of_nonneg (Int.natCast_nonneg _), Int.natAbs_natCast, F32.roundMag_exact hk]
    rw [hr _ (by decide)] at h1 h2
    rw [F32.magOf_one] at h1; rw [m181] at h2
    exact ⟨by exact_mod_cast h1, by exact_mod_cast h2⟩
  unfold sampleInterval; rw [hb]
  cases b with
  | nan => cases hb1
  | inf => cases hb1
  | num s e f =>
    rw [F32.place_num] at hb2 hb3
    have hs : s = false := by
      cases s
      · rfl
      · rw [F32.signed_true] at hb2; omega
    subst hs
    rw [F32.signed_false] at hb2 hb3
    have e1 : Const.one = .num false 127 0#23 := by decide
    have e2 : F32.magnitude 127 0#23 = 2 ^ 149 := by decide
    have e3 : Const.one.div (.num false e f) = F32.round false (2 ^ 149 * 2 ^ 149) (F32.magnitude e f) := by
      rw [e1]; unfold F32.div; simp only; rw [if_neg (by omega), e2]; rfl
    rw [e3]
    have hm : 0 < F32.magnitude e f := by omega
    have u1 := F32.roundBits_mono (n := 2 ^ 149 * 2 ^ 149) (d := F32.magnitude e f) (n' := F32.magOf (127 * 2 ^ 23) * 1) (d' := 1) hm Nat.one_pos (by
       rw [F32.magOf_one, Nat.mul_one, Nat.mul_one]; exact Nat.mul_le_mul_left _ (by omega))
    have u2 := F32.roundBits_mono (n := F32.magOf 1 * 1) (d := 1) (n' := 2 ^ 149 * 2 ^ 149) (d' := F32.magnitude e f) Nat.one_pos hm (by
       have : F32.magOf 1 = 1 := by decide
       rw [this, Nat.one_mul, Nat.mul_one]
       have : F32.magnitude e f ≤ 2 ^ 181 := by omega
       exact le_trans this (by norm_num))
    rw [F32.roundBits_exact Nat.one_pos] at u1 u2
    obtain ⟨e', f', h3, h4⟩ := F32.ofMagnitudeBits_of_lt false (g := F32.roundBits (2 ^ 149 * 2 ^ 149) (F32.magnitude e f)) (by omega)
    refine ⟨by rw [F32.round_eq, h3]; rfl, ?_⟩
    rw [F32.place_round, F32.signed_false]
    have : F32.magOf 0 < F32.magOf (Min.min (F32.roundBits (2 ^ 149 * 2 ^ 149) (F32.magnitude e f)) (255 * 2 ^ 23)) := F32.magOf_strictMono (by omega)
    exact_mod_cast lt_of_le_of_lt (Nat.zero_le _) this

end Sys2Proof.Machine
end

