-- ==== Sys2Proof/Laws/PerInstr.lean ====
section
/-! SUPPORT. Statements about every operation as syntax, one lemma per constructor. -/

namespace Sys2Proof.Laws.RenderTest

open Sys2Proof Sys2Proof.Machine

/-- The test that the ordering rules use (60_exceptions.md R412) picks out the transactions of `RENDER` and no other
(30_encoding.md R104, R111). -/
def Statement (i : Instr) : Prop :=
  i.wellFormed = true → (isRenderTxn (encode i) = true ↔ ∃ p n, i = .render p n)

theorem nop (p : Port) : Statement (.nop p) := by
  intro _
  constructor
  · intro h; have h0 : isRenderTxn (encode (.nop p)) = false := rfl
    rw [h0] at h; cases h
  · rintro ⟨q, n, h⟩; cases h

theorem gate (p : Port) (v : BitVec 5) (d : Bool) : Statement (.gate p v d) := by
  intro _
  constructor
  · intro h
    simp only [isRenderTxn, encode, Bool.and_eq_true, beq_iff_eq] at h
    have h1 := (encodeCmd_gate_fields v d).1
    have h2 : (encodeCmd (.gate v d) &&& 0xFFFFE0FE#32) &&& 0xFF000000#32 = encodeCmd (.gate v d) &&& 0xFF000000#32 := by
      rw [BitVec.and_assoc]; congr 1
    rw [h1, h.2] at h2
    exact absurd h2 (by decide)
  · rintro ⟨q, n, h⟩; cases h

theorem render (p : Port) (n : BitVec 24) : Statement (.render p n) := by
  intro _
  refine ⟨fun _ => ⟨p, n, rfl⟩, fun _ => ?_⟩
  simp [isRenderTxn, encode, (encodeCmd_render_fields n).1]

theorem busWrite (p : Port) (off : BitVec 12) (v : Word) : Statement (.busWrite p off v) := by
  intro hw
  constructor
  · intro h
    simp only [isRenderTxn, encode, Bool.and_eq_true, beq_iff_eq] at h
    simp [Instr.wellFormed, isCommandWord, h.1, h.2] at hw
  · rintro ⟨q, n, h⟩; cases h

theorem busRead (p : Port) (off : BitVec 12) : Statement (.busRead p off) := by
  intro _
  constructor
  · intro h; simp [isRenderTxn, encode] at h
  · rintro ⟨q, n, h⟩; cases h

end Sys2Proof.Laws.RenderTest
end

