-- ==== Sys2Proof/Laws/Saturator.lean ====
section
/-! SUPPORT. Exact scaling by powers of two, and the saturator: what its two factors and its value can be
(44_filter.md R262; 45_voice_mixer.md R330). -/

namespace Sys2Proof.Machine

/-- The sign goes through a product (00_scope.md R8). -/
theorem neg_mul_right (a b : F32) (ha : a.isNan = false) (hb : b.isNan = false) (h : (a.mul b).isNan = false) : a.neg.mul b = (a.mul b).neg := by
  cases a with
  | nan => cases ha
  | inf s =>
    cases b with
    | nan => cases hb
    | inf s' => simp [F32.mul, F32.neg]
    | num s' e' f' =>
      simp only [F32.mul, F32.neg] at h ⊢
      by_cases hz : F32.magnitude e' f' = 0
      · rw [if_pos hz] at h; cases h
      · rw [if_neg hz, if_neg hz]; simp
  | num s e f =>
    cases b with
    | nan => cases hb
    | inf s' => 
      simp only [F32.mul, F32.neg] at h ⊢
      by_cases hz : F32.magnitude e f = 0
      · rw [if_pos hz] at h; cases h
      · rw [if_neg hz, if_neg hz]; simp
    | num s' e' f' =>
      show F32.mul (.num (!s) e f) _ = _
      rw [F32.mul_num, F32.mul_num]
      split
      · simp [F32.neg]
      · rw [F32.neg_round]; simp

/-- A square has no sign of its argument (00_scope.md R8). -/
theorem neg_mul_self (a : F32) (ha : a.isNan = false) : a.neg.mul a.neg = a.mul a := by
  cases a with
  | nan => cases ha
  | inf s => simp [F32.mul, F32.neg]
  | num s e f => 
      show F32.mul (.num (!s) e f) (.num (!s) e f) = _
      rw [F32.mul_num, F32.mul_num]; simp

/-- The quotient of finite values, the divisor nonzero (00_scope.md R8). -/
theorem div_of_num (s : Bool) (e : Fin 255) (f : BitVec 23) (s' : Bool) (e' : Fin 255) (f' : BitVec 23) (h : F32.magnitude e' f' ≠ 0) :
    F32.div (.num s e f) (.num s' e' f') = F32.round (s ^^ s') (F32.magnitude e f * 2 ^ 149) (F32.magnitude e' f') := by
  unfold F32.div; simp only; rw [if_neg h]

/-- The sign goes through a quotient (00_scope.md R8). -/
theorem neg_div_left (a b : F32) (ha : a.isNan = false) (hb : b.isFinite = true) (hb' : b.place ≠ 0) : a.neg.div b = (a.div b).neg := by
  cases b with
  | nan => cases hb
  | inf => cases hb
  | num s' e' f' =>
    have hz : F32.magnitude e' f' ≠ 0 := by intro h; apply hb'; rw [F32.place_num, h]; rfl
    cases a with
    | nan => cases ha
    | inf s => simp [F32.div, F32.neg]
    | num s e f =>
      have e1 : (F32.num s e f).neg = .num (!s) e f := rfl
      rw [e1, div_of_num _ _ _ _ _ _ hz, div_of_num _ _ _ _ _ _ hz, F32.neg_round]
      rw [Bool.not_xor]

/-- A product is bounded by a representable bound of the exact product (00_scope.md R7, R8). -/
theorem mul_bound {a b : F32} (ha : a.isFinite = true) (hb : b.isFinite = true) {A B g : Nat} (hA : a.place.natAbs ≤ A) (hB : b.place.natAbs ≤ B)
    (hg : g < 255 * 2 ^ 23) (h : A * B = F32.magOf g * 2 ^ 149) : (a.mul b).isFinite = true ∧ (a.mul b).place.natAbs ≤ F32.magOf g := by
  have hfin := F32.mul_finite ha hb
  have hb2 : (a.mul b).place.natAbs ≤ F32.magOf g := by
    cases a with
    | nan => cases ha
    | inf => cases ha
    | num s e f =>
      cases b with
      | nan => cases hb
      | inf => cases hb
      | num s' e' f' =>
        rw [F32.place_num, F32.natAbs_signed] at hA hB
        rw [F32.mul_num]
        by_cases hz : (F32.magnitude e f == 0 || F32.magnitude e' f' == 0) = true
        · rw [if_pos hz, F32.place_zero]; exact Nat.zero_le _
        · rw [if_neg hz, F32.place_round, F32.natAbs_signed, F32.magOf_le_magOf]
          apply le_trans (Nat.min_le_left _ _)
          have hp : 0 < 2 ^ 149 := Nat.two_pow_pos 149
          have h1 := F32.roundBits_mono (n := F32.magnitude e f * F32.magnitude e' f') (d := 2 ^ 149)
            (n' := F32.magOf g * 2 ^ 149) (d' := 2 ^ 149) hp hp (by rw [← h]; exact Nat.mul_le_mul_right _ (Nat.mul_le_mul hA hB))
          rwa [F32.roundBits_exact hp] at h1
  exact ⟨F32.isFinite_of_place hfin.1 (lt_of_le_of_lt hb2 (F32.magOf_lt_infMag hg)), hb2⟩

theorem magOf_zero : F32.magOf 0 = 0 := by decide

theorem magOf_nine : F32.magOf (130 * 2 ^ 23 + 2 ^ 20) = 9 * 2 ^ 149 := by decide

theorem magOf_eightyOne : F32.magOf (133 * 2 ^ 23 + 17 * 2 ^ 17) = 81 * 2 ^ 149 := by decide

theorem magOf_128 : F32.magOf (134 * 2 ^ 23) = 128 * 2 ^ 149 := by decide

/-- Doubling a magnitude is exact. -/
theorem magOf_double : ∀ g, 2 * F32.magOf g = F32.magOf (if g < 2 ^ 23 then 2 * g else g + 2 ^ 23) := by
  intro g
  by_cases h : g < 2 ^ 23
  · rw [if_pos h, F32.magOf_of_lt (by omega), F32.magOf_of_lt (by omega)]
  · rw [if_neg h]
    unfold F32.magOf
    have e1 : (g + 2 ^ 23) / 2 ^ 23 = g / 2 ^ 23 + 1 := by omega
    have e2 : (g + 2 ^ 23) % 2 ^ 23 = g % 2 ^ 23 := by omega
    have e3 : g / 2 ^ 23 ≠ 0 := by omega
    rw [e1, e2, if_neg e3, if_neg (by omega)]
    obtain ⟨k, hk⟩ : ∃ k, g / 2 ^ 23 = k + 1 := ⟨g / 2 ^ 23 - 1, by omega⟩
    rw [hk]; simp only [Nat.add_sub_cancel]
    rw [pow_succ]; ring

/-- Scaling a magnitude by a power of two is exact. -/
theorem magOf_mul_two_pow (k : Nat) : ∀ g, ∃ g', F32.magOf g * 2 ^ k = F32.magOf g' := by
  induction k with
  | zero => exact fun g => ⟨g, by simp⟩
  | succ k ih =>
    intro g
    obtain ⟨g', h⟩ := ih g
    exact ⟨_, by rw [pow_succ, ← Nat.mul_assoc, h, Nat.mul_comm, magOf_double]⟩

/-- Outside the clamps a value is finite and at most 3 in magnitude (44_filter.md R262). -/
theorem between_clamps {x : F32} (h1 : Const.three.lt x = false) (h2 : x.lt Const.negThree = false) (hn : x.isNan = false) : x.isFinite = true ∧ x.place.natAbs ≤ 3 * 2 ^ 149 := by
  have e3 : Const.three.place = 3 * 2 ^ 149 := by decide
  have e3' : Const.negThree.place = -(3 * 2 ^ 149) := by decide
  have h1' : ¬ Const.three.lt x = true := by simp [h1]
  have h2' : ¬ x.lt Const.negThree = true := by simp [h2]
  rw [F32.lt_iff_place rfl hn, e3] at h1'
  rw [F32.lt_iff_place hn rfl, e3'] at h2'
  have h3 : x.place.natAbs ≤ 3 * 2 ^ 149 := by omega
  refine ⟨F32.isFinite_of_place hn (lt_of_le_of_lt h3 ?_), h3⟩
  have := F32.magOf_lt_infMag (g := 129 * 2 ^ 23) (by decide)
  have : F32.magOf (129 * 2 ^ 23) = 2 ^ 151 := by decide
  omega

/-- The two factors of the saturator between the clamps (44_filter.md R262). -/
theorem ftanh_factors {x : F32} (hf : x.isFinite = true) (h : x.place.natAbs ≤ 3 * 2 ^ 149) :
   (Const.twentySeven.add (x.mul x)).isFinite = true ∧ 0 < (Const.twentySeven.add (x.mul x)).place ∧ (Const.twentySeven.add (x.mul x)).place ≤ 128 * 2 ^ 149 ∧
   (Const.twentySeven.add (Const.nine.mul (x.mul x))).isFinite = true ∧ 0 < (Const.twentySeven.add (Const.nine.mul (x.mul x))).place ∧ 2 ^ 149 ≤ (Const.twentySeven.add (Const.nine.mul (x.mul x))).place := by
  have e27 : Const.twentySeven.place = 27 * 2 ^ 149 := by decide
  have e9 : Const.nine.place = 9 * 2 ^ 149 := by decide
  have m1 := F32.magOf_one
  obtain ⟨a1, a2⟩ := mul_bound hf hf h h (g := 130 * 2 ^ 23 + 2 ^ 20) (by decide) (by rw [magOf_nine]; norm_num)
  rw [magOf_nine] at a2
  have a3 : 0 ≤ (x.mul x).place := by
    have := F32.mul_finite hf hf
    rcases le_total 0 x.place with h | h
    · exact this.2.1 h h
    · have h4 := neg_mul_self x (F32.isNan_of_isFinite hf)
      have h5 := F32.mul_finite (a := x.neg) (b := x.neg) (by rw [F32.isFinite_neg]; exact hf) (by rw [F32.isFinite_neg]; exact hf)
      rw [← h4]; exact h5.2.1 (by rw [F32.place_neg]; omega) (by rw [F32.place_neg]; omega)
  obtain ⟨b1, b2⟩ := mul_bound (a := Const.nine) rfl a1 (A := 9 * 2 ^ 149) (by rw [e9]; decide) a2 (g := 133 * 2 ^ 23 + 17 * 2 ^ 17) (by decide) (by rw [magOf_eightyOne]; norm_num)
  rw [magOf_eightyOne] at b2
  have b3 : 0 ≤ (Const.nine.mul (x.mul x)).place := (F32.mul_finite (a := Const.nine) rfl a1).2.1 (by rw [e9]; decide) a3
  have m27 : F32.magOf (127 * 2 ^ 23) = 2 ^ 149 := m1
  have key : ∀ y : F32, y.isFinite = true → 0 ≤ y.place → y.place.natAbs ≤ 81 * 2 ^ 149 →
     (Const.twentySeven.add y).isFinite = true ∧ 2 ^ 149 ≤ (Const.twentySeven.add y).place ∧ (Const.twentySeven.add y).place ≤ 128 * 2 ^ 149 := by
    intro y y1 y2 y3
    obtain ⟨c1, c2⟩ := F32.add_finite_of_bounds (a := Const.twentySeven) rfl y1 (g := 134 * 2 ^ 23) (by decide) (by rw [magOf_128, e27]; omega)
    have c3 : (F32.roundPlace (F32.magOf (127 * 2 ^ 23) : Int)) ≤ F32.roundPlace (Const.twentySeven.place + y.place) := F32.roundPlace_mono (by rw [e27, m1]; omega)
    have c4 : F32.roundPlace (F32.magOf (127 * 2 ^ 23) : Int) = F32.magOf (127 * 2 ^ 23) := by
      rw [F32.roundPlace_of_nonneg (Int.natCast_nonneg _), Int.natAbs_natCast, F32.roundMag_exact (by decide)]
    have c5 := (F32.roundPlace_bounds (x := Const.twentySeven.place + y.place) (g := 0) (h := 134 * 2 ^ 23) (by decide) (by decide) (by rw [magOf_zero, e27]; omega) (by rw [magOf_128, e27]; omega)).2
    rw [c4, m1] at c3
    rw [magOf_128] at c5
    refine ⟨c1, ?_, ?_⟩
    · rw [c2]; exact_mod_cast c3
    · rw [c2]; exact_mod_cast c5
  obtain ⟨k1, k2, k3⟩ := key _ a1 a3 (by omega)
  obtain ⟨l1, l2, l3⟩ := key _ b1 b3 b2
  exact ⟨k1, lt_of_lt_of_le (by norm_num) k2, k3, l1, lt_of_lt_of_le (by norm_num) l2, l2⟩

/-- The saturator between the clamps (44_filter.md R262). -/
theorem ftanh_between {x : F32} (h1 : Const.three.lt x = false) (h2 : x.lt Const.negThree = false) :
   ftanh x = (x.mul (Const.twentySeven.add (x.mul x))).div (Const.twentySeven.add (Const.nine.mul (x.mul x))) := by
  unfold ftanh; rw [h1, h2]; rfl

/-- The saturator of anything but a NaN is finite (44_filter.md R262). -/
theorem ftanh_bound {x : F32} (hn : x.isNan = false) : (ftanh x).isFinite = true ∧ (ftanh x).place.natAbs ≤ 384 * 2 ^ 149 := by
  cases h1 : Const.three.lt x
  · cases h2 : x.lt Const.negThree
    · obtain ⟨w1, w2⟩ := between_clamps h1 h2 hn
      obtain ⟨p1, p2, p3, p4, p5, p6⟩ := ftanh_factors w1 w2
      rw [ftanh_between h1 h2]
      have m384 : F32.magOf (135 * 2 ^ 23 + 2 ^ 22) = 384 * 2 ^ 149 := by decide
      obtain ⟨n1, n2⟩ := mul_bound w1 p1 w2 (B := 128 * 2 ^ 149) (by omega) (g := 135 * 2 ^ 23 + 2 ^ 22) (by decide) (by rw [m384]; norm_num)
      rw [m384] at n2
      have d1 := p6
      have hnn := F32.isNan_of_isFinite n1
      generalize x.mul (Const.twentySeven.add (x.mul x)) = a at *
      generalize Const.twentySeven.add (Const.nine.mul (x.mul x)) = b at *
      have hb2 : (a.div b).isNan = false ∧ (a.div b).place.natAbs ≤ F32.magOf (135 * 2 ^ 23 + 2 ^ 22) := by
        cases a with
        | nan => cases n1
        | inf => cases n1
        | num s e f =>
          cases b with
          | nan => cases p4
          | inf => cases p4
          | num s' e' f' =>
            rw [F32.place_num] at p5 d1 n2
            rw [F32.natAbs_signed] at n2
            have hb0 : (2 : Nat) ^ 149 ≤ F32.magnitude e' f' := by have := F32.natAbs_signed s' (F32.magnitude e' f'); omega
            rw [div_of_num _ _ _ _ _ _ (by omega)]
            refine ⟨F32.round_not_nan _ _ _, ?_⟩
            rw [F32.place_round, F32.natAbs_signed, F32.magOf_le_magOf]
            apply le_trans (Nat.min_le_left _ _)
            have h1 := F32.roundBits_mono (n := F32.magnitude e f * 2 ^ 149) (d := F32.magnitude e' f')
              (n' := F32.magOf (135 * 2 ^ 23 + 2 ^ 22) * 1) (d' := 1) (by omega) Nat.one_pos
              (by rw [Nat.mul_one, Nat.mul_one, m384]; exact Nat.mul_le_mul n2 hb0)
            rwa [F32.roundBits_exact Nat.one_pos] at h1
      refine ⟨F32.isFinite_of_place hb2.1 (lt_of_le_of_lt hb2.2 (F32.magOf_lt_infMag (by decide))), ?_⟩
      rw [← m384]; exact hb2.2
    · have : ftanh x = Const.negOne := by unfold ftanh; rw [h1, h2]; rfl
      rw [this]; decide
  · have : ftanh x = Const.one := by unfold ftanh; rw [h1]; rfl
    rw [this]; decide

/-- The product with 32768 is exact (45_voice_mixer.md R330). -/
theorem floor_mul_pcmScale {y : F32} (hf : y.isFinite = true) (h : y.place.natAbs ≤ 384 * 2 ^ 149) : (y.mul Const.pcmScale).floor? = some (y.place * 32768 / 2 ^ 149) := by
  cases y with
  | nan => cases hf
  | inf => cases hf
  | num s e f =>
    have hs : ∃ e' f', Const.pcmScale = .num false e' f' ∧ F32.magnitude e' f' = 2 ^ 164 := ⟨142, 0#23, by decide, by decide⟩
    obtain ⟨e', f', hs, hm⟩ := hs
    rw [F32.place_num, F32.natAbs_signed] at h
    rw [hs, F32.mul_num, hm, F32.place_num]
    by_cases hz : F32.magnitude e f = 0
    · rw [if_pos (by simp [hz]), hz]; rfl
    · rw [if_neg (by simp [hz])]
      rw [F32.magnitude_eq_magOf] at h hz ⊢
      obtain ⟨g', hg'⟩ := magOf_mul_two_pow 15 (e.val * 2 ^ 23 + f.toNat)
      have e1 : F32.magOf (e.val * 2 ^ 23 + f.toNat) * 2 ^ 164 = F32.magOf g' * 2 ^ 149 := by rw [← hg', Nat.mul_assoc, ← pow_add]
      have hg2 : g' < 255 * 2 ^ 23 := by
        by_contra hc
        have h1 := F32.magOf_le_magOf.2 (show 200 * 2 ^ 23 ≤ g' by omega)
        have h2 : F32.magOf (200 * 2 ^ 23) = 2 ^ 222 := by decide
        rw [h2, ← hg'] at h1
        omega
      rw [e1, F32.round_eq, F32.roundBits_exact (Nat.two_pow_pos 149)]
      obtain ⟨e3, f3, h3, h4⟩ := F32.ofMagnitudeBits_of_lt (s ^^ false) hg2
      rw [h3]
      show some (F32.signed (s ^^ false) (F32.magnitude e3 f3) / 2 ^ 149) = _
      rw [F32.magnitude_eq_magOf, Bool.xor_false]
      have h5 : F32.magOf (e3.val * 2 ^ 23 + f3.toNat) = F32.magOf g' := by rw [h4]
      rw [h5, ← hg']
      congr 1
      cases s
      · rw [F32.signed_false, F32.signed_false]; push_cast; rfl
      · rw [F32.signed_true, F32.signed_true]; push_cast; congr 1; ring

end Sys2Proof.Machine
end

