-- ==== Sys2Proof/Laws/PolyBlep.lean ====
section
/-! SUPPORT. The PolyBLEP residual inside its support, on rounded values: the quotient, its double and its square, and where
the two branches stand; the table waves' correction as a fold over its boundaries (41_waveforms.md R162, R169). -/

namespace Sys2Proof.Machine

/-- Inside the support the quotient `t / w` is at most 1, has the sign of `t` and goes over to its negation with `t`
(41_waveforms.md R162). -/
theorem support_quotient {t w : F32} (h : t.abs.lt w = true) : (t.div w).isFinite = true ∧ (t.div w).place.natAbs ≤ 2 ^ 149 ∧
    (0 ≤ t.place → 0 ≤ (t.div w).place) ∧ (t.neg.div w).place = -(t.div w).place ∧ t.isFinite = true := by
  cases t with
  | nan s p => cases w <;> simp [F32.abs, F32.lt] at h
  | inf s =>
    cases w with
    | nan => simp [F32.abs, F32.lt] at h
    | inf s' => simp [F32.abs, F32.lt] at h
    | num s' e' f' => simp [F32.abs, F32.lt] at h
  | num s e f =>
    cases w with
    | nan => simp [F32.abs, F32.lt] at h
    | inf s' =>
      have e1 : (F32.num s e f).div (.inf s') = .num (s ^^ s') 0 0#23 := rfl
      have e2 : (F32.num s e f).neg.div (.inf s') = .num ((!s) ^^ s') 0 0#23 := rfl
      rw [e1, e2, F32.place_zero, F32.place_zero]
      exact ⟨rfl, by simp, fun _ => le_refl _, by simp, rfl⟩
    | num s' e' f' =>
      rw [show (F32.num s e f).abs = .num false e f from rfl, F32.lt_iff_place rfl rfl, F32.place_num, F32.place_num, F32.signed_false] at h
      have hs : s' = false := by
        cases s'
        · rfl
        · rw [F32.signed_true] at h; omega
      subst hs
      rw [F32.signed_false] at h
      have hm : F32.magnitude e f < F32.magnitude e' f' := by exact_mod_cast h
      have hz : F32.magnitude e' f' ≠ 0 := by omega
      have e1 := div_of_num s e f false e' f' hz
      have e2 : (F32.num s e f).neg.div (.num false e' f') = _ := div_of_num (!s) e f false e' f' hz
      have hb : F32.roundBits (F32.magnitude e f * 2 ^ 149) (F32.magnitude e' f') ≤ 127 * 2 ^ 23 := by
        have h1 := F32.roundBits_mono (n := F32.magnitude e f * 2 ^ 149) (d := F32.magnitude e' f')
          (n' := F32.magOf (127 * 2 ^ 23) * 1) (d' := 1) (by omega) Nat.one_pos (by
            rw [F32.magOf_one, Nat.mul_one, Nat.mul_one, Nat.mul_comm]; exact Nat.mul_le_mul_left _ (le_of_lt hm))
        rwa [F32.roundBits_exact Nat.one_pos] at h1
      rw [e1, e2, F32.place_round, F32.place_round, Bool.xor_false, Bool.xor_false, F32.signed_not]
      have hb2 : F32.magOf (Min.min (F32.roundBits (F32.magnitude e f * 2 ^ 149) (F32.magnitude e' f')) (255 * 2 ^ 23)) ≤ 2 ^ 149 := by
        exact le_trans (F32.magOf_le_magOf.2 (show _ ≤ 127 * 2 ^ 23 by omega)) (le_of_eq F32.magOf_one)
      refine ⟨?_, by rw [F32.natAbs_signed]; exact hb2, ?_, rfl, rfl⟩
      · obtain ⟨e'', f'', h3, -⟩ := F32.ofMagnitudeBits_of_lt s (g := F32.roundBits (F32.magnitude e f * 2 ^ 149) (F32.magnitude e' f')) (by omega)
        rw [F32.round_eq, h3]; rfl
      · rw [F32.place_num]
        cases s
        · rw [F32.signed_false, F32.signed_false]; intro _; exact Int.natCast_nonneg _
        · rw [F32.signed_true, F32.signed_true]
          intro h0
          have : F32.magnitude e f = 0 := by omega
          rw [this, Nat.zero_mul]
          have h1 : F32.roundBits 0 (F32.magnitude e' f') = 0 := by
            have := F32.roundBits_exact (g := 0) (d := F32.magnitude e' f') (by omega)
            rwa [magOf_zero, Nat.zero_mul] at this
          rw [h1]; decide

/-- Doubling a value of at most 1 is exact. -/
theorem two_mul_place {x : F32} (hx : x.isFinite = true) (h : x.place.natAbs ≤ 2 ^ 149) : (Const.two.mul x).isFinite = true ∧ (Const.two.mul x).place = 2 * x.place := by
  have e2 : Const.two = .num false 128 0#23 := by decide
  have m2 : F32.magnitude 128 0#23 = 2 ^ 150 := by decide
  cases x with
  | nan => cases hx
  | inf => cases hx
  | num s e f =>
    rw [F32.place_num, F32.natAbs_signed] at h
    rw [e2, F32.mul_num, m2]
    by_cases hz : F32.magnitude e f = 0
    · rw [hz]; simp only [beq_self_eq_true, Bool.or_true, if_true]
      rw [F32.place_num, F32.place_num, hz]
      refine ⟨rfl, ?_⟩
      cases s <;> decide
    · rw [if_neg (by simp [hz])]
      have hd := magOf_double (e.val * 2 ^ 23 + f.toNat)
      rw [← F32.magnitude_eq_magOf] at hd
      have hr : F32.roundBits (2 ^ 150 * F32.magnitude e f) (2 ^ 149) = (if e.val * 2 ^ 23 + f.toNat < 2 ^ 23 then 2 * (e.val * 2 ^ 23 + f.toNat) else e.val * 2 ^ 23 + f.toNat + 2 ^ 23) := by
        have h2 : 2 ^ 150 * F32.magnitude e f = F32.magOf (if e.val * 2 ^ 23 + f.toNat < 2 ^ 23 then 2 * (e.val * 2 ^ 23 + f.toNat) else e.val * 2 ^ 23 + f.toNat + 2 ^ 23) * 2 ^ 149 := by
          rw [← hd]; ring
        rw [h2]; exact F32.roundBits_exact (Nat.two_pow_pos 149)
      have hlt : (if e.val * 2 ^ 23 + f.toNat < 2 ^ 23 then 2 * (e.val * 2 ^ 23 + f.toNat) else e.val * 2 ^ 23 + f.toNat + 2 ^ 23) < 255 * 2 ^ 23 := by
        have : F32.magOf (if e.val * 2 ^ 23 + f.toNat < 2 ^ 23 then 2 * (e.val * 2 ^ 23 + f.toNat) else e.val * 2 ^ 23 + f.toNat + 2 ^ 23) ≤ F32.magOf (128 * 2 ^ 23) := by
          rw [← hd, F32.magOf_two]; omega
        rw [F32.magOf_le_magOf] at this
        omega
      constructor
      · obtain ⟨e', f', h3, -⟩ := F32.ofMagnitudeBits_of_lt (false ^^ s) hlt
        rw [F32.round_eq, hr, h3]; rfl
      · rw [F32.place_round, hr, Nat.min_eq_left (le_of_lt hlt), ← hd, Bool.false_xor, F32.place_num]
        cases s
        · rw [F32.signed_false, F32.signed_false]; push_cast; ring
        · rw [F32.signed_true, F32.signed_true]; push_cast; ring

/-- The rounded square of a value of at most 1 lies between 0 and its magnitude, and not below `2 |x| - 1`. -/
theorem square_bounds {x : F32} (hx : x.isFinite = true) (h : x.place.natAbs ≤ 2 ^ 149) :
   (x.mul x).isFinite = true ∧ 0 ≤ (x.mul x).place ∧ (x.mul x).place ≤ x.place.natAbs ∧ 2 * (x.place.natAbs : Int) - 2 ^ 149 ≤ (x.mul x).place := by
  have hle := F32.mul_natAbs_le hx hx h
  have hm := F32.mul_finite hx hx
  have h0 : 0 ≤ (x.mul x).place := by
    rcases le_total 0 x.place with h | h
    · exact hm.2.1 h h
    · have h4 := neg_mul_self x (F32.isNan_of_isFinite hx)
      have h5 := F32.mul_finite (a := x.neg) (b := x.neg) (by rw [F32.isFinite_neg]; exact hx) (by rw [F32.isFinite_neg]; exact hx)
      rw [← h4]; exact h5.2.1 (by rw [F32.place_neg]; omega) (by rw [F32.place_neg]; omega)
  refine ⟨F32.isFinite_of_place hm.1 (lt_of_le_of_lt (le_trans hle h) ?_), h0, by omega, ?_⟩
  · have := F32.magOf_lt_infMag (g := 127 * 2 ^ 23) (by decide)
    rwa [F32.magOf_one] at this
  cases x with
  | nan => cases hx
  | inf => cases hx
  | num s e f =>
    rw [F32.place_num, F32.natAbs_signed] at h ⊢
    by_cases hh : F32.magnitude e f ≤ 2 ^ 148
    · omega
    · have hg : 126 * 2 ^ 23 ≤ e.val * 2 ^ 23 + f.toNat := by
        rw [← F32.magOf_le_magOf, ← F32.magnitude_eq_magOf]
        have : F32.magOf (126 * 2 ^ 23) = 2 ^ 148 := by decide
        omega
      have hg2 : e.val * 2 ^ 23 + f.toNat ≤ 127 * 2 ^ 23 := by
        rw [← F32.magOf_le_magOf, ← F32.magnitude_eq_magOf, F32.magOf_one]; exact h
      obtain ⟨k, hk⟩ : ∃ k, e.val * 2 ^ 23 + f.toNat = 126 * 2 ^ 23 + k := ⟨_, (Nat.add_sub_cancel' hg).symm⟩
      have hmag : F32.magnitude e f = (2 ^ 23 + k) * 2 ^ 125 := by
        have hk' : e.val * 2 ^ 23 + f.toNat = 125 * 2 ^ 23 + (2 ^ 23 + k) := by omega
        rw [F32.magnitude_eq_magOf, hk']
        exact F32.magOf_place (Or.inr (by omega)) (by omega)
      obtain ⟨g', hg'⟩ := magOf_mul_two_pow 126 k
      rw [F32.magOf_of_lt (show k < 2 ^ 24 by omega)] at hg'
      have e1 : 2 * F32.magnitude e f = 2 ^ 149 + F32.magOf g' := by rw [hmag, ← hg']; ring
      have hz : F32.magnitude e f ≠ 0 := by omega
      rw [F32.mul_num, if_neg (by simp [hz]), F32.place_round, Bool.xor_self, F32.signed_false]
      have hp : 0 < 2 ^ 149 := Nat.two_pow_pos 149
      have hb := F32.roundBits_mono (n := F32.magOf g' * 2 ^ 149) (d := 2 ^ 149) (n' := F32.magnitude e f * F32.magnitude e f) (d' := 2 ^ 149) hp hp (by
        apply Nat.mul_le_mul_right
        have : (0:Int) ≤ ((F32.magnitude e f : Int) - 2 ^ 149) ^ 2 := sq_nonneg _
        have e2 : (F32.magOf g' : Int) = 2 * F32.magnitude e f - 2 ^ 149 := by
          have : ((2 * F32.magnitude e f : Nat) : Int) = ((2 ^ 149 + F32.magOf g' : Nat) : Int) := congrArg _ e1
          push_cast at this; omega
        have : (F32.magOf g' : Int) * 2 ^ 149 ≤ F32.magnitude e f * F32.magnitude e f := by rw [e2]; nlinarith
        exact_mod_cast this)
      rw [F32.roundBits_exact hp] at hb
      have hg3 : g' ≤ 127 * 2 ^ 23 := by rw [← F32.magOf_le_magOf, F32.magOf_one]; omega
      have h9 := F32.magOf_le_magOf.2 (le_min hb (le_trans hg3 (by norm_num : 127 * 2 ^ 23 ≤ 255 * 2 ^ 23)))
      omega

theorem place_negOne : Const.negOne.place = -2 ^ 149 := by decide
/-- The right branch of the residual is in `[-1, 0]`, and the left branch of the negated quotient stands opposite
(41_waveforms.md R162). -/
theorem residual_branches {x : F32} (hx : x.isFinite = true) (h0 : 0 ≤ x.place) (h : x.place.natAbs ≤ 2 ^ 149) :
   let y := ((Const.two.mul x).sub (x.mul x)).sub Const.one
   let z := ((x.neg.mul x.neg).add (Const.two.mul x.neg)).add Const.one
   y.isNan = false ∧ z.isNan = false ∧ z.place = -y.place ∧ -(2 ^ 149) ≤ y.place ∧ y.place ≤ 0 := by
  obtain ⟨a1, a2⟩ := two_mul_place hx h
  obtain ⟨b1, b2, b3, b4⟩ := square_bounds hx h
  have hxn : x.neg.isFinite = true := by rw [F32.isFinite_neg]; exact hx
  obtain ⟨c1, c2⟩ := two_mul_place hxn (by rw [F32.place_neg, Int.natAbs_neg]; exact h)
  rw [F32.place_neg] at c2
  dsimp only
  rw [neg_mul_self x (F32.isNan_of_isFinite hx)]
  have hlo : (0 : Int) ≤ (Const.two.mul x).place - (x.mul x).place := by omega
  have hhi : (Const.two.mul x).place - (x.mul x).place ≤ 2 ^ 149 := by omega
  have m1 := F32.magOf_one
  obtain ⟨d1, d2⟩ := F32.sub_finite_of_bounds a1 b1 (g := 127 * 2 ^ 23) (by decide) (by rw [m1]; omega)
  obtain ⟨e1, e2⟩ := F32.add_finite_of_bounds b1 c1 (g := 127 * 2 ^ 23) (by decide) (by rw [m1]; omega)
  have d3 := F32.roundPlace_bounds (x := (Const.two.mul x).place - (x.mul x).place) (g := 0) (h := 127 * 2 ^ 23) (by decide) (by decide) (by rw [magOf_zero]; omega) (by rw [m1]; exact_mod_cast hhi)
  rw [← d2, magOf_zero, m1] at d3
  have e3 : ((x.mul x).add (Const.two.mul x.neg)).place = -((Const.two.mul x).sub (x.mul x)).place := by
    rw [e2, d2, ← F32.roundPlace_neg]; congr 1; omega
  have f1 := F32.sub_finite d1 one_isFinite
  have g1 := F32.add_finite e1 one_isFinite
  rw [place_one] at f1 g1
  have f2 := F32.roundPlace_bounds (x := ((Const.two.mul x).sub (x.mul x)).place - 2 ^ 149) (g := 127 * 2 ^ 23) (h := 0) (by decide) (by decide) (by rw [m1]; push_cast; omega) (by rw [magOf_zero]; push_cast at d3 ⊢; omega)
  rw [← f1.2, magOf_zero, m1] at f2
  refine ⟨f1.1, g1.1, ?_, by exact_mod_cast f2.1, by exact_mod_cast f2.2⟩
  rw [g1.2, f1.2, ← F32.roundPlace_neg, e3]; congr 1; omega
/-- The table waves' correction is a fold over its boundaries, ascending (41_waveforms.md R169). -/
theorem polyCorrFrom_eq_foldl (wt : WaveType) (p : F32) (i : Nat) (w : F32) : ∀ (n : Nat) (lo : Int) (c : F32),
   polyCorrFrom wt p i w n lo c = ((List.range n).map fun j : Nat => lo + (j : Int)).foldl (fun c m => polyCorrTerm wt p i w m c) c := by
  intro n
  induction n with
  | zero => intro lo c; rfl
  | succ n ih =>
    intro lo c
    unfold polyCorrFrom
    rw [ih, List.range_succ_eq_map, List.map_cons, List.foldl_cons, List.map_map]
    congr 1
    · rw [Nat.cast_zero, add_zero]
    · apply List.map_congr_left
      intro j _
      simp only [Function.comp, Nat.succ_eq_add_one]; push_cast; ring

end Sys2Proof.Machine
end

