-- ==== Sys2Proof/Tests/Slice0.lean ====
section
/-! SUPPORT. Small tests, their expected results from the spec's examples and from 95_test_vectors.md, and for every claim
with hypotheses a concrete state and operands that meet them. -/

namespace Sys2Proof.Tests

open Sys2Proof Sys2Proof.Machine

/-! WellFormed: the one check, an ill-formed term for each of its three patterns, and a term it accepts. -/

theorem test_wf_refuses_nop_write : (Instr.busWrite .ctrl 0x000#12 0x00000000#32).wellFormed = false := by decide
theorem test_wf_refuses_gate_write : (Instr.busWrite .ctrl 0x000#12 0x01000901#32).wellFormed = false := by decide
theorem test_wf_refuses_render_write : (Instr.busWrite .audio 0x000#12 0x02000004#32).wellFormed = false := by decide
theorem test_wf_accepts_illegal_word : (Instr.busWrite .ctrl 0x000#12 0x01000903#32).wellFormed = true := by decide

/-! Decoding, every word written out bit by bit (30_encoding.md R100 to R104). -/

theorem test_decode_nop : decodeTableWord 32 0b00000000_000000000000000000000000 = some (.nop .ctrl) := by decide
theorem test_decode_gate : decodeTableWord 32 0b00000001_00000000000_01001_0000000_1 = some (.gate .ctrl 9#5 true) := by decide
theorem test_decode_gate_up : decodeTableWord 32 0b00000001_00000000000_10111_0000000_0 = some (.gate .ctrl 23#5 false) := by
  decide
theorem test_decode_render : decodeTableWord 32 0b00000010_000000000000000000000100 = some (.render .ctrl 4#24) := by decide
theorem test_decode_bus_read : decodeTableWord 16 0b0000_000000001100 = some (.busRead .ctrl 0x00C#12) := by decide
theorem test_decode_bus_write :
    decodeTableWord 48 0b00000000000000001011101110000000_0000_000000001100 = some (.busWrite .ctrl 0x00C#12 48000#32) := by
  decide
theorem test_decode_reserved_bit : decodeTableWord 32 0b00000001_00000000001_01001_0000000_1 = none := by decide
theorem test_decode_reserved_op : decodeTableWord 32 0b00000011_000000000000000000000000 = none := by decide
theorem test_decode_bytes : decodeBytes [0x0C#8, 0x00#8, 0x80#8, 0xBB#8, 0x00#8, 0x00#8] = .ok ⟨0x00C#12, some 48000#32⟩ := by
  decide
theorem test_encode_gate : encode (.gate .ctrl 9#5 true) = ⟨0x000#12, some 0x01000901#32⟩ := by decide

/-! States for the tests. -/

/-- Reset with one transaction pending on `CTRL`. -/
def pending (i : Instr) : State := { State.reset with ctrl := ⟨[encode i], 0, []⟩ }

/-- Reset with voice 9's key held: both envelopes attack. -/
def held : State := risingEdge 9 State.reset

/-- A block of `n` frames running for `CTRL` over voice 9. -/
def running (n : Nat) : State :=
  { held with seq := .rendering .ctrl n [9], ctrl := ⟨[encode (.render .ctrl (BitVec.ofNat 24 n))], 0, []⟩ }

/-- Reset with error bits set. -/
def errors (a b c : Bool) : State := { State.reset with status := ⟨a, b, c⟩ }

/-! One step of each operation (95_test_vectors.md 2.1, 2.2, 2.5). -/

theorem test_gate_shows_attack : readReg held (.voiceStatus 9) = 0x00000111#32 ∧ readReg held .mostRecentKey = 9#32 := by decide
theorem test_gate_voice_24 : exec (.gate .ctrl 24#5 true) State.reset = .next (errors false false true) := by rfl
theorem test_nop_changes_nothing : exec (.nop .audio) State.reset = .next State.reset := by rfl
theorem test_render_0_of_active_emits_nothing : (renderCommand .ctrl 0#24 held).pcm = [] := by decide
theorem test_render_4_of_silence_emits_zeros : (renderCommand .ctrl 4#24 State.reset).pcm = List.replicate 4 ⟨0#16, 0#16⟩ := by rfl
theorem test_read_fs : (memRead 0x00C#12 State.reset).1 = 0x0000AC44#32 := by decide
theorem test_read_hole : memRead 0x1FC#12 State.reset = (0#32, errors false true false) := by rfl
theorem test_write_wave_type_11 : memWrite .ctrl 0x020#12 11#32 State.reset = errors false false true := by rfl
theorem test_write_read_only : memWrite .ctrl 0x100#12 0#32 State.reset = errors false true false := by rfl
theorem test_write_antialias : readReg (memWrite .ctrl 0x014#12 0xFFFFFFFF#32 State.reset) .useAntialias = 1#32 := by decide
theorem test_illegal_command_only_err_cmd : memWrite .ctrl 0x000#12 0x01003F03#32 State.reset = errors true false false := by rfl
theorem test_frame_bytes : Frame.bytes ⟨25486#16, 25486#16⟩ = [0x8E#8, 0x63#8, 0x8E#8, 0x63#8] := by decide

/-! Arithmetic, generators, envelope (95_test_vectors.md 2.3 to 2.7). -/

theorem test_round_tie_to_even : F32.ofInt 16777217 = F32.ofInt 16777216 ∧ F32.ofInt 16777219 = F32.ofInt 16777220 := by
  decide +kernel
theorem test_subnormal_half : ((F32.ofBits 0x00000003#32).mul Const.half).toBits = 0x00000002#32 := by decide +kernel
theorem test_overflow : ((F32.ofBits 0x7F7FFFFF#32).mul Const.two).toBits = 0x7F800000#32 := by decide +kernel
theorem test_sample_interval : (Const.one.div (F32.ofWord 48000#32)).toBits = 0x37AEC33E#32 := by decide +kernel
theorem test_polyblep : (polyBlep (F32.ofBits 0x3D99999A#32) (F32.ofBits 0x3E19999A#32)).toBits = 0xBE800000#32 := by
  decide +kernel
theorem test_integrated_polyblep : (integratedPolyBlep zeroF (F32.ofBits 0x3E19999A#32)).toBits = 0x3E4CCCCE#32 := by
  decide +kernel
theorem test_pulse_falling_site :
    (waveGen true .pulse Const.half ⟨F32.ofBits 0x3F700000#32, 0, 0⟩ 1#32 (F32.ofBits 0x3DCCCCCD#32)).value.toBits =
      0xBF28E38E#32 := by decide +kernel
theorem test_triangle_corner :
    (waveGen true .triangle zeroF ⟨Const.quarter, 0, 0⟩ 1#32 (F32.ofBits 0x3DCCCCCD#32)).value.toBits = 0x3F4CCCCC#32 := by
  decide +kernel
theorem test_poly4_correction :
    (waveGen true .poly4 zeroF ⟨F32.ofBits 0x3D4CCCCD#32, 1, 3⟩ 1#32 (F32.ofBits 0x3DCCCCCD#32)).value.toBits =
      0xBF0E38E3#32 := by decide +kernel
theorem test_oscillator_wraps_down :
    (oscUpdate false ⟨.sawtooth, zeroF, F32.ofBits 0xBCA3D70A#32, Const.one⟩ ⟨F32.ofBits 0x3C23D70A#32, 0, 0⟩ 1#32
      Const.one Const.one).st = ⟨F32.ofBits 0x3F7D70A4#32, -1, 0⟩ := by decide +kernel
theorem test_attack_step :
    envUpdate ⟨F32.ofInt 100, zeroF, Const.half, zeroF⟩ (F32.ofBits 0x3A83126F#32) ⟨.attack, zeroF⟩ =
      ⟨.attack, F32.ofBits 0x3E21FE92#32⟩ := by decide +kernel
theorem test_release_uses_decay_rate :
    envUpdate ⟨zeroF, F32.ofInt 100, Const.half, F32.ofInt 10⟩ (F32.ofBits 0x3A83126F#32) ⟨.release, Const.half⟩ =
      ⟨.release, F32.ofBits 0x3EE3B7A4#32⟩ := by decide +kernel
theorem test_filter_setup : (filterSetup (F32.ofInt 1000) (F32.ofBits 0x37AEC33E#32)).toBits = 0x3CAAAAAB#32 := by decide +kernel
theorem test_quantize : (pcmQuantize Const.one Const.half.neg).toInt = -15264 ∧ (pcmQuantize Const.one Const.one).toInt = 25486 := by
  decide +kernel
/-- A saturated value just above 1, which the clamp limits (45_voice_mixer.md R330). -/
theorem test_saturator_above_one : (ftanh (F32.ofBits 0x403EEDA9#32)).toBits = 0x3F800001#32 := by decide +kernel

/-! Witnesses: each claim with hypotheses, named after it. -/

theorem witness_DecodeEncodeRoundTrip :
    (Instr.busWrite .audio 0xFFF#12 0xFFFFFFFF#32).wellFormed = true ∧ (Instr.gate .ctrl 31#5 true).wellFormed = true ∧
      (Instr.render .audio 0xFFFFFF#24).wellFormed = true := by decide
theorem witness_IllegalCommandWords :
    [0x03000000#32, 0xFFFFFFFF#32, 0x00000001#32, 0x01002001#32, 0x01000902#32].all (fun w =>
      match decodeCmd w with
      | .ok _ => false
      | .error _ => true) = true := by decide
theorem witness_StepRunsDecodedOperation :
    (Instr.gate .ctrl 9#5 true).wellFormed = true ∧
      nextTurn (pending (.gate .ctrl 9#5 true)) = .serve .ctrl (encode (.gate .ctrl 9#5 true)) := by decide
theorem witness_StepRunsDecodedOperation_scheduled :
    let s := { pending (.busRead .ctrl 0x004#12) with schedule := [.serve .ctrl] }
    s.schedule = [.serve .ctrl] ∧ (s.port .ctrl).queue = [⟨0x004#12, none⟩] ∧ mayServe s .ctrl ⟨0x004#12, none⟩ = true := by
  decide
theorem witness_PlacedWordRunsNext : decodeTableWord 32 0x01000901 = some (.gate .ctrl 9#5 true) := by decide
theorem witness_NopChangesNothing : (0x00FFFFFF#32).toNat / 2 ^ 24 = 0 ∧ 0x00FFFFFF#32 ≠ 0x00000000#32 := by decide
theorem witness_RisingGateEdge :
    (23#5).toNat < 24 ∧ (State.reset.voice 23).gate = false ∧ (State.reset.voice 23).venv.stage = .off := by decide
theorem witness_RisingGateEdge_releasing :
    let s := fallingEdge 9 held
    (9#5).toNat < 24 ∧ (s.voice 9).gate = false ∧ (s.voice 9).venv.stage ≠ .off := by decide
theorem reset_inv : State.reset.Inv := by
  refine resetWith_inv (hw := ⟨Config.filterCore, noiseSeed0⟩) ?_
  intro h
  have h1 := congrArg BitVec.toNat h
  have h2 := Config.noiseSeed0Pred.isLt
  simp only [noiseSeed0, BitVec.toNat_ofNat] at h1
  omega
theorem witness_FallingGateEdge : (9#5).toNat < 24 ∧ (held.voice 9).gate = true ∧ held.Inv :=
  ⟨by decide, by decide, risingEdge_inv 9 reset_inv⟩
theorem witness_GateWithoutEdge : (State.reset.voice 23).gate = false ∧ (held.voice 9).gate = true ∧ 24 ≤ (24#5).toNat := by
  decide
theorem witness_RenderStartsBlock : held.seq = .idle ∧ (held.voice 9).venv.stage ≠ .off := by decide
theorem witness_RenderOfSilence : State.reset.seq = .idle ∧ ∀ k, (State.reset.voice k).venv.stage = .off := by decide
theorem witness_RenderWaitsForRunningBlock : (running 2).seq = .rendering .ctrl 2 [9] := by decide
theorem witness_HwcfgIsConstant : step State.reset = .next State.reset := by rfl
theorem witness_BusWriteStores :
    Reg.fs.readOnly = false ∧ Reg.fs ≠ .cmd ∧ Reg.fs ≠ .status ∧ 1#32 ≠ 0#32 ∧ (Reg.osc .s1 .waveType).readOnly = false ∧
      (10#32).toNat ≤ 10 ∧ (Reg.flt .mode).readOnly = false ∧ (20#32).toNat ≤ 20 := by decide
theorem witness_StatusWriteClears : readReg (errors true false true) .status = 0x00000005#32 := by decide
theorem witness_AddressErrors :
    (0x001#12).toNat % 4 ≠ 0 ∧ regAt 0x01C#12 = none ∧ regAt 0x260#12 = none ∧ regAt 0xFFC#12 = none ∧
      (0x25C#12).toNat % 4 = 0 ∧ (0x3DC#12).toNat % 4 = 0 := by decide
/-- The read-only offsets, ends of their ranges among them, fall under the second clause and not under the first. -/
theorem witness_AddressErrors_read_only :
    [0x008#12, 0x100#12, 0x104#12, 0x110#12, 0x118#12, 0x120#12, 0x128#12, 0x200#12, 0x25C#12, 0x300#12, 0x35C#12, 0x380#12,
      0x3DC#12].all (fun off => off.toNat % 4 == 0 && (regAt off).any Reg.readOnly) = true ∧
      regAt 0x10C#12 = none ∧ regAt 0x11C#12 = none ∧ regAt 0x12C#12 = none := by decide
theorem witness_ValueErrors : 10 < (11#32).toNat ∧ 20 < (21#32).toNat ∧ 24 ≤ (24#5).toNat := by decide
theorem witness_ErrorsArePrecise :
    exec (.gate .ctrl 31#5 false) State.reset = .next (errors false false true) ∧
      ∀ p v, Instr.gate .ctrl 31#5 false ≠ .busWrite p 0x004#12 v := by
  refine ⟨rfl, fun p v h => ?_⟩
  cases h
theorem witness_ErrorBitsAreSticky :
    let s := { errors true true true with ctrl := ⟨[⟨0x004#12, some 2#32⟩], 0, []⟩ }
    step s = .next (errors true false true) ∧ s.status.errAddr = true ∧ (errors true false true).status.errAddr = false := by
  refine ⟨rfl, rfl, rfl⟩
theorem witness_ResetInput : ({ running 2 with schedule := [.reset] } : State).schedule = [.reset] := by rfl
theorem witness_StepKeepsInvariant : State.reset.Inv ∧ step State.reset = .next State.reset := ⟨reset_inv, rfl⟩
theorem witness_sample_steps :
    (running 1).seq = .rendering .ctrl 1 [9] ∧ nextTurn (running 1) = .sample ∧ (running 2).seq = .rendering .ctrl 2 [9] ∧
      nextTurn (running 2) = .sample ∧ [(9 : VoiceIx)].Nodup := by decide
/-- The example of a swap-remove: the last entry takes the reaped voice's place and sounds next (45_voice_mixer.md R313). -/
theorem test_swap_remove_order : soundingOrder (fun k => k == 3) 4 [2, 3, 5, 7] = [2, 7, 5] := by decide
theorem witness_SampleStepAdvancesEachVoiceOnce :
    let s := { risingEdge 4 (running 2) with seq := .rendering .ctrl 2 [7, 4, 9] }
    s.seq = .rendering .ctrl 2 [7, 4, 9] ∧ nextTurn s = .sample ∧ [(7 : VoiceIx), 4, 9].Nodup ∧
      soundingOrder (fun k => (envUpdate s.cfg.venv (sampleInterval s.cfg) (s.voice k).venv).stage == .off) 3 [7, 4, 9] =
        [9, 4] := by decide +kernel
theorem witness_BlockProducesItsFrames :
    let s := { held with ctrl := ⟨[encode (.render .ctrl 4#24)], 0, []⟩, schedule := [.serve .ctrl] }
    s.seq = .idle ∧ s.schedule = [.serve .ctrl] ∧ (s.port .ctrl).queue = [encode (.render .ctrl 4#24)] ∧
      (s.port Port.ctrl.other).owed = 0 := by decide
theorem witness_ConfigurationChangesOnlyByWrites :
    nextTurn (pending (.busWrite .ctrl 0x00C#12 48000#32)) = .serve .ctrl ⟨0x00C#12, some 48000#32⟩ ∧
      regAt 0x00C#12 = some .fs ∧ Reg.fs.accepts 48000#32 = true := by decide
theorem witness_GatesChangeOnlyByGate :
    ∃ t, step (pending (.gate .ctrl 9#5 true)) = .next t ∧ (t.voice 9).gate = true ∧
      ((pending (.gate .ctrl 9#5 true)).voice 9).gate = false := ⟨_, rfl, by decide, by decide⟩
theorem witness_InterleavingConstraints :
    nextTurn (pending (.busRead .ctrl 0x004#12)) = .serve .ctrl ⟨0x004#12, none⟩ ∧
      nextTurn { running 2 with audio := ⟨[⟨0x004#12, none⟩], 1, []⟩, schedule := [.serve .audio] } =
        .serve .audio ⟨0x004#12, none⟩ := by decide
theorem witness_PendingWorkProceeds :
    State.reset.Inv ∧ State.reset.schedule = [] ∧ State.reset.seq = .idle ∧
      (pending (.nop .ctrl)).ctrl.queue ≠ [] := ⟨reset_inv, rfl, rfl, by decide⟩
theorem witness_PendingWorkProceeds_running : (running 2).schedule = [] ∧ (running 2).Inv := by
  have h : held.Inv := risingEdge_inv 9 reset_inv
  refine ⟨rfl, ⟨h.fs, h.seed, h.seed0, h.lfo, h.voices, ?_, ⟨by decide, by decide⟩, ⟨by decide, by decide⟩, Or.inl rfl⟩⟩
  intro p n active hr
  simp only [running, Seq.rendering.injEq] at hr
  obtain ⟨rfl, rfl, rfl⟩ := hr
  exact ⟨by decide, by decide, by decide, by decide, ⟨_, _, rfl, by decide⟩⟩
theorem witness_PortsKeepIssueOrder :
    let s := { State.reset with schedule := [.issue .audio ⟨0x004#12, none⟩] }
    ∃ t, step s = .next t ∧ nextTurn s = .issue .audio ⟨0x004#12, none⟩ ∧ t.audio.queue = [⟨0x004#12, none⟩] :=
  ⟨_, rfl, rfl, rfl⟩
/-- The other turns: nothing, an operation served, a `RENDER` whose block then runs, a block's last sample step, reset. -/
theorem witness_PortsKeepIssueOrder_turns :
    nextTurn State.reset = .nothing ∧ nextTurn (pending (.nop .ctrl)) = .serve .ctrl (encode (.nop .ctrl)) ∧
      nextTurn { held with ctrl := ⟨[encode (.render .ctrl 4#24)], 0, []⟩ } = .serve .ctrl (encode (.render .ctrl 4#24)) ∧
      (renderCommand .ctrl 4#24 held).seq = .rendering .ctrl 4 [9] ∧ nextTurn (running 1) = .sample ∧
      (running 1).seq = .rendering .ctrl 1 [9] ∧ nextTurn { running 1 with schedule := [.reset] } = .reset := by decide
theorem witness_OscillatorSumOutOfRange :
    (zeroF.add (((F32.inf false).mul Const.one).mul Const.one)).isFinite = false ∧
      (zeroF.add ((F32.ofInt (2 ^ 31)).mul Const.one |>.mul Const.one)).floor? = some (2 ^ 31) := by decide +kernel
theorem witness_PhaseStaysInUnitInterval :
    (Const.threeQuarters.add ((Const.half.mul Const.one).mul Const.one)).floor? = some 1 ∧ 4063200 < 4063201 ∧
      (let s := zeroF.add (((F32.ofBits 0xB089705F#32).mul Const.one).mul Const.one)
       s.floor? = some (-1) ∧ Const.one.le (s.sub (F32.ofInt (-1))) = true) := by decide +kernel
theorem witness_NyquistRule :
    Const.half.lt (F32.ofBits 0x3F19999A#32) = true ∧ (F32.ofBits 0x7FC00000#32).isNan = true ∧
      Const.negOne.lt zeroF = true := by decide +kernel
theorem witness_GeneratorsWriteOnlyTheirState : Const.half.lt Const.half = false := by decide +kernel
/-- A table wave's bounds at phase 0.95 and step 0.1, and a point on each side of an edge, on it and at the end of its
support. -/
theorem witness_GeneratorsWriteOnlyTheirState_corrections :
    let w := ((F32.ofBits 0x3DCCCCCD#32).mul Const.polyblepWidth).min Const.eight
    let p := F32.ofBits 0x3F733333#32
    (p.sub w).ceil? = some 1 ∧ (p.add w).floor? = some 1 ∧ Const.quarter.abs.lt Const.half = true ∧
      zeroF.lt Const.quarter = true ∧ Const.quarter.neg.abs.lt Const.half = true ∧ Const.quarter.neg.lt zeroF = true ∧
      zeroF.abs.lt Const.half = true ∧ zeroF.eq zeroF = true ∧ zeroF.lt zeroF = false ∧ Const.half.abs.lt Const.half = false := by
  decide +kernel
theorem witness_OpenFunctionProperties :
    (F32.num true 0 0#23).eq zeroF = true ∧ (F32.ofInt 128).le (F32.ofInt 128) = true ∧ Const.negThree.isFinite = true := by
  decide +kernel
theorem witness_LfsrPeriods : (0 < 1 ∧ 1 < 2 ^ 4 - 1) ∧ 0 < 131070 ∧ 131070 < 2 ^ 17 - 1 := by decide
theorem witness_EnvelopeAmplitudeStaysInRange :
    State.reset.cfg.fs ≠ 0#32 ∧ (⟨Const.one, Const.one, Const.half, Const.one⟩ : EnvCfg).Legal ∧
      (⟨.decay, Const.half⟩ : EnvState).InRange ⟨Const.one, Const.one, Const.half, Const.one⟩ :=
  ⟨by decide, ⟨by decide +kernel, by decide +kernel, by decide +kernel, by decide +kernel⟩,
    ⟨by decide +kernel, fun _ => by decide +kernel⟩⟩
/-- Updates that end their stage (43_envelope.md R232, R233, R235: the attack's example, a sustain raised in a decay, a
release from zero). -/
theorem witness_EnvelopeStages :
    let dt := F32.ofBits 0x3A83126F#32
    envUpdate ⟨F32.ofInt 1000, zeroF, Const.half, zeroF⟩ dt ⟨.attack, zeroF⟩ = ⟨.decay, Const.one⟩ ∧
      envUpdate ⟨zeroF, F32.ofInt 100, Const.one, zeroF⟩ dt ⟨.decay, Const.half⟩ = ⟨.sustain, Const.one⟩ ∧
      envUpdate ⟨zeroF, zeroF, Const.half, F32.ofInt 10⟩ dt ⟨.release, zeroF⟩ = ⟨.off, zeroF⟩ := by decide +kernel
theorem witness_FilterBypass : (⟨.none, zeroF, zeroF, zeroF, zeroF⟩ : FilterCfg).mode = .none := by rfl
theorem witness_FilterSetupClamps :
    (F32.ofBits 0xFF000000#32).lt ((F32.ofInt 1000).mul (F32.ofBits 0x37AEC33E#32)) = true ∧
      (F32.ofBits 0xFF000000#32).lt ((F32.inf false).mul Const.one) = true ∧
      ((F32.ofBits 0x7FC00000#32).mul Const.one).isNan = true := by decide +kernel
theorem witness_FilterStateThatCarries :
    (⟨.lowPass4, zeroF, zeroF, zeroF, zeroF⟩ : FilterCfg).mode ≠ .none ∧
      (let g := { FilterState.zero with a1 := Const.one, tune := Const.one, ytan0 := Const.one }
       FilterState.zero ≠ g ∧ FilterState.zero.y0 = g.y0 ∧ FilterState.zero.y4 = g.y4 ∧ FilterState.zero.ytan1 = g.ytan1 ∧
         FilterState.zero.ytan3 = g.ytan3) := by decide
theorem witness_SaturatorRules :
    Const.three.lt Const.four = true ∧ (F32.inf true).lt Const.negThree = true ∧ Const.three.lt Const.three = false ∧
      Const.three.lt Const.negThree = false ∧ Const.negThree.lt Const.negThree = false := by decide +kernel
theorem witness_OutputQuantizer :
    Const.three.lt (Const.four.mul Const.one) = true ∧ ((Const.four.neg).mul Const.one).lt Const.negThree = true ∧
      ((F32.num true 0 0#23).mul Const.one).eq zeroF = true ∧ (Const.one.mul Const.one).isNan = false := by decide +kernel

end Sys2Proof.Tests
end

section
/-! PROOF. The open functions (00_scope.md R11): where each is fixed, what it answers there, and the four properties. -/

namespace Sys2Proof.F32

theorem units_of_isFinite {x : F32} (h : x.isFinite = true) : x.units? = some x.place := by
  cases x with
  | nan => simp [isFinite] at h
  | inf => simp [isFinite] at h
  | num => rfl

/-- A value equal to zero is finite and has magnitude 0 (00_scope.md R9). -/
theorem exists_num_of_eq_zeroF {z : F32} (h : z.eq Machine.zeroF = true) :
    ∃ s e f, z = .num s e f ∧ magnitude e f = 0 := by
  have hp := (eq_iff_place (not_nan_of_eq h).1 rfl).1 h
  rw [Machine.place_zeroF] at hp
  cases z with
  | nan => simp [eq] at h
  | inf => simp [Machine.zeroF, eq] at h
  | num s e f =>
    refine ⟨s, e, f, rfl, ?_⟩
    rw [← natAbs_signed s (magnitude e f), ← place_num, hp, Int.natAbs_zero]

/-- Rounding keeps a representable whole number of units. -/
theorem roundPlace_exact {x : Int} {g : Nat} (hg : g ≤ 255 * 2 ^ 23) (h : x.natAbs = magOf g) : roundPlace x = x := by
  rcases lt_or_ge x 0 with hx | hx
  · rw [roundPlace_of_neg hx, h, roundMag_exact hg, ← h]; omega
  · rw [roundPlace_of_nonneg hx, h, roundMag_exact hg, ← h]; omega

/-- A power of two from 2^-149 to 2^127, in units of 2^-149, is the magnitude of a finite encoding. -/
theorem exists_magOf_eq_two_pow {k : Nat} (h : k ≤ 276) : ∃ g, g < 255 * 2 ^ 23 ∧ magOf g = 2 ^ k := by
  rcases Nat.lt_or_ge k 23 with hk | hk
  · have hlt : 2 ^ k < 2 ^ 23 := Nat.pow_lt_pow_right (by decide) hk
    exact ⟨2 ^ k, by omega, magOf_of_lt (by omega)⟩
  · obtain ⟨t, rfl⟩ := Nat.exists_eq_add_of_le hk
    exact ⟨t * 2 ^ 23 + 2 ^ 23, by omega, by rw [magOf_place (Or.inr le_rfl) (by decide), ← Nat.pow_add]⟩

/-- Every integer of at most 24 bits is a binary32 value, in units of 2^-149 (00_scope.md R10). -/
theorem units_ofInt {n : Int} (h : n.natAbs < 2 ^ 24) : (ofInt n).units? = some (n * 2 ^ 149) := by
  have habs : (n * 2 ^ 149).natAbs = n.natAbs * 2 ^ 149 := by omega
  have hle : (n * 2 ^ 149).natAbs ≤ magOf (158 * 2 ^ 23) := by
    rw [Machine.magOf_two_pow_180]; omega
  obtain ⟨g, hg⟩ := Machine.magOf_mul_two_pow 149 n.natAbs
  rw [magOf_of_lt h, ← habs] at hg
  have hg' : g ≤ 158 * 2 ^ 23 := by rwa [hg, magOf_le_magOf] at hle
  have hfin : (ofInt n).isFinite = true := Machine.isFinite_roundInt _ (by decide) hle
  rw [units_of_isFinite hfin, ofInt, place_roundInt, roundPlace_exact (by omega) hg]

/-- Rounding keeps a power of two from 2^-149 to 2^127. -/
theorem units_round_two_pow {k : Nat} (h : k ≤ 276) : (round false (2 ^ k) 1).units? = some (2 ^ k) := by
  obtain ⟨g, hlt, hg⟩ := exists_magOf_eq_two_pow h
  have hbits : roundBits (2 ^ k) 1 = g := by rw [← hg, ← Nat.mul_one (magOf g), roundBits_exact Nat.one_pos]
  obtain ⟨e, f, hnum, hef⟩ := ofMagnitudeBits_of_lt false hlt
  rw [round_eq, hbits, hnum, units?, signed_false, magnitude_eq_magOf, ← hef, hg, Nat.cast_pow, Nat.cast_ofNat]

theorem ofInt_one : ofInt 1 = Machine.Const.one := by decide

theorem round_two_pow_149 : round false (2 ^ 149) 1 = Machine.Const.one := by decide

end Sys2Proof.F32

namespace Sys2Proof

/-! `F_sin`. -/

theorem fSin_zero {s : Bool} {e : Fin 255} {f : BitVec 23} (h : F32.magnitude e f = 0) :
    ∃ t, fSin (.num s e f) = .num t 0 0#23 := ⟨_, if_pos h⟩

/-- At a nonzero finite argument `F_sin` is the value of the free sign and the free encoding (log 4). -/
theorem fSin_num {s : Bool} {e : Fin 255} {f : BitVec 23} (h : F32.magnitude e f ≠ 0) :
    fSin (.num s e f) =
      F32.ofMagnitudeBits (Config.sinSign (.num s e f)) (Config.sinMagnitude (.num s e f)).val := by
  have hlt : (Config.sinMagnitude (.num s e f)).val / 2 ^ 23 < 255 := by
    have := (Config.sinMagnitude (.num s e f)).isLt; omega
  rw [F32.ofMagnitudeBits, dif_pos hlt]
  exact if_neg h

/-- `F_sin` of a finite value is no NaN and at most 1 in magnitude (00_scope.md R11 (d)). -/
theorem fSin_bounded {x : F32} (hx : x.isFinite = true) :
    (fSin x).isNan = false ∧ (fSin x).place.natAbs ≤ 2 ^ 149 := by
  cases x with
  | nan => simp [F32.isFinite] at hx
  | inf => simp [F32.isFinite] at hx
  | num s e f =>
    by_cases hz : F32.magnitude e f = 0
    · obtain ⟨t, ht⟩ := fSin_zero (s := s) hz
      rw [ht, F32.place_zero]
      exact ⟨rfl, Nat.zero_le _⟩
    · have hk := (Config.sinMagnitude (.num s e f)).isLt
      rw [fSin_num hz, F32.place_ofMagnitudeBits, F32.natAbs_signed, ← F32.magOf_one, F32.magOf_le_magOf]
      exact ⟨F32.ofMagnitudeBits_not_nan _ _, by omega⟩

theorem fSin_mem_unit {x : F32} (hx : x.isFinite = true) :
    Machine.Const.negOne.le (fSin x) = true ∧ (fSin x).le Machine.Const.one = true := by
  obtain ⟨hnan, hle⟩ := fSin_bounded hx
  rw [F32.le_iff_place rfl hnan, F32.le_iff_place hnan rfl, Machine.place_negOne, Machine.place_one]
  omega

/-! `F_exp2`. -/

theorem fExp2_of_units {x : F32} {u : Int} (h : x.units? = some u) : fExp2 x = fExp2Finite x u := by
  cases x with
  | nan => simp [F32.units?] at h
  | inf => simp [F32.units?] at h
  | num s e f => rw [← Option.some.inj h]; rfl

/-- `F_exp2` is `2^n` at any encoding of an integer `n` from -149 to 127 (00_scope.md R11 (a), (b)). -/
theorem fExp2_of_int {x : F32} {n : Int} (hx : x.units? = some (n * 2 ^ 149)) (hlo : -149 ≤ n) (hhi : n ≤ 127) :
    fExp2 x = F32.round false (2 ^ (n + 149).toNat) 1 := by
  rw [fExp2_of_units hx, fExp2Finite, if_neg (by omega), if_pos (by omega), Int.mul_ediv_cancel _ (by decide)]

/-- `F_exp2` overflows from 128 on (00_scope.md R11 (c)). -/
theorem fExp2_of_ge {x : F32} (h : (F32.ofInt 128).le x = true) : fExp2 x = .inf false := by
  obtain ⟨hn, hx⟩ := F32.not_nan_of_le h
  have h128 : (F32.ofInt 128).place = 128 * 2 ^ 149 := (Machine.units_eq_place (F32.units_ofInt (by decide))).2
  rw [F32.le_iff_place hn hx, h128] at h
  cases x with
  | nan => simp [F32.isNan] at hx
  | inf s =>
    cases s with
    | false => rfl
    | true =>
      rw [F32.place, F32.signed_true] at h
      omega
  | num s e f => exact if_pos h

/-! The values at zero (00_scope.md R11 (b)). -/

theorem fSin_eq_zeroF {z : F32} (hz : z.eq Machine.zeroF = true) : (fSin z).eq Machine.zeroF = true := by
  obtain ⟨s, e, f, rfl, hm⟩ := F32.exists_num_of_eq_zeroF hz
  obtain ⟨t, ht⟩ := fSin_zero (s := s) hm
  rw [ht, F32.eq_iff_place rfl rfl, F32.place_zero, Machine.place_zeroF]

theorem fExp_of_zero {z : F32} (hz : z.eq Machine.zeroF = true) : fExp z = Machine.Const.one := by
  obtain ⟨s, e, f, rfl, hm⟩ := F32.exists_num_of_eq_zeroF hz
  rw [← F32.ofInt_one]
  exact if_pos hm

theorem fExp2_of_zero {z : F32} (hz : z.eq Machine.zeroF = true) : fExp2 z = Machine.Const.one := by
  obtain ⟨s, e, f, rfl, hm⟩ := F32.exists_num_of_eq_zeroF hz
  have hu : (F32.num s e f).units? = some (0 * 2 ^ 149) := by
    rw [F32.units?, hm, F32.signed_zero, Int.zero_mul]
  rw [fExp2_of_int hu (by decide) (by decide), ← F32.round_two_pow_149]
  rfl

end Sys2Proof

namespace Sys2Proof.Machine

/-- Settles O48: `F_exp2` at the integers, the values at zero, the overflow of `F_exp2`, and the range of `F_sin`. -/
theorem openFunctionProperties : Obligations.OpenFunctionProperties := by
  unfold Obligations.OpenFunctionProperties
  refine ⟨fun n hlo hhi => ?_, fun z hz => ⟨fSin_eq_zeroF hz, fExp_of_zero hz, fExp2_of_zero hz⟩,
    fun _ => fExp2_of_ge, rfl, fun _ => fSin_mem_unit⟩
  rw [fExp2_of_int (F32.units_ofInt (by omega)) hlo hhi]
  exact F32.units_round_two_pow (by omega)

end Sys2Proof.Machine
end

section
/-! PROOF. What reset gives, and that every step keeps the invariant of Safety.lean (10_state.md R45). -/

namespace Sys2Proof.Machine

/-- The parameter `NOISE_SEED0` is nonzero (00_scope.md R5; 10_state.md R35). -/
theorem noiseSeed0_ne_zero : noiseSeed0 ≠ 0#32 := by
  intro h
  have hpred := Config.noiseSeed0Pred.isLt
  have hnat : (Config.noiseSeed0Pred.val + 1) % 2 ^ 32 = 0 := by
    rw [← BitVec.toNat_ofNat]
    exact congrArg BitVec.toNat h
  omega

/-- Settles O30: reset with a nonzero noise seed parameter meets the invariant, and the parameter is nonzero. -/
theorem resetMeetsInvariant : Obligations.ResetMeetsInvariant := resetWith_inv noiseSeed0_ne_zero

theorem setSchedule_port (s : State) (l : List Event) (p : Port) :
    ({ s with schedule := l } : State).port p = s.port p := port_congr rfl rfl p

/-- A step keeps the invariant of the block: each of its cases (60_exceptions.md R412) does. -/
theorem step_inv {s t : State} (h : s.Inv) (hstep : step s = .next t) : t.Inv := by
  have h0 : ({ s with schedule := s.schedule.tail } : State).Inv := setSchedule_inv _ h
  obtain ⟨-, rfl⟩ | ⟨p, x, -, rfl⟩ | ⟨p, x, hturn, rfl⟩ | ⟨-, rfl⟩ | ⟨-, rfl⟩ := step_cases hstep
  · exact h0
  · exact issueTxn_inv p x h0
  · obtain ⟨-, q, hq⟩ := servable_some (nextTurn_serve hturn)
    exact completeUnlessRendering_inv p (effect_inv p h0 (by rw [setSchedule_port, hq]))
  · exact sampleStep_inv h0
  · exact applyReset_inv h0

/-- Settles O29: the case split over what a step does, each case by its operation's invariant lemma. -/
theorem stepKeepsInvariant : Obligations.StepKeepsInvariant := fun _ _ => step_inv

/-- Settles O27: each voice is `Voice.zero`, and the other fields are `State.resetWith`'s by definition. -/
theorem resetValues : Obligations.ResetValues := by
  have hvoice : ∀ k, State.reset.voice k = Voice.zero := resetWith_voice _
  refine ⟨rfl, fun k => ?_, rfl, rfl, rfl, rfl, rfl, rfl, rfl, rfl, rfl, rfl⟩
  rw [hvoice]
  exact ⟨rfl, rfl, rfl, rfl, rfl, rfl⟩

end Sys2Proof.Machine
end

section
/-! PROOF. The noise recurrence (41_waveforms.md R176): it is linear over exclusive or and sends only 0 to 0. -/

namespace Sys2Proof.Machine

theorem xor_shiftLeft_xor (x y : Word) (k : Nat) :
    (x ^^^ y) ^^^ ((x ^^^ y) <<< k) = (x ^^^ (x <<< k)) ^^^ (y ^^^ (y <<< k)) := by
  rw [BitVec.shiftLeft_xor_distrib]
  ac_rfl

theorem xor_ushiftRight_xor (x y : Word) (k : Nat) :
    (x ^^^ y) ^^^ ((x ^^^ y) >>> k) = (x ^^^ (x >>> k)) ^^^ (y ^^^ (y >>> k)) := by
  rw [BitVec.ushiftRight_xor_distrib]
  ac_rfl

/-- A step of the noise generator is linear over exclusive or (41_waveforms.md R176). -/
theorem xorshift32_xor (x y : Word) : xorshift32 (x ^^^ y) = xorshift32 x ^^^ xorshift32 y := by
  unfold xorshift32
  dsimp only
  rw [xor_shiftLeft_xor x y 13, xor_ushiftRight_xor _ _ 17, xor_shiftLeft_xor _ _ 5]

theorem xorshift32_injective : Function.Injective xorshift32 := by
  intro x y h
  have hzero : xorshift32 (x ^^^ y) = 0#32 := by rw [xorshift32_xor, h, BitVec.xor_self]
  exact BitVec.xor_eq_zero_iff.1 (xorshift32_eq_zero hzero)

/-- Settles O46: one-to-one because it is linear and only 0 leads to 0. -/
theorem noiseSeedNeverDies : Obligations.NoiseSeedNeverDies :=
  ⟨fun _ _ h => xorshift32_injective h, fun _ => ⟨xorshift32_eq_zero, fun h => by rw [h]; rfl⟩, by decide, by decide⟩

end Sys2Proof.Machine
end

section
/-! PROOF. The oscillator update and the envelope update keep their ranges (10_state.md R29, R31). -/

namespace Sys2Proof.Machine

/-- Where the sum's floor fits 32 bits, the phase is the difference and the advance the floor, with the fix-up of
42_oscillator_lfo.md R201. -/
theorem wrapPhase_of_floor {st : OscState} {s : F32} {a : Int} (hfloor : s.floor? = some a) (ha : a.natAbs < 2 ^ 31) :
    wrapPhase st s =
      if Const.one.le (s.sub (F32.ofInt a)) then { st with phase := zeroF, advance := a + 1 }
      else { st with phase := s.sub (F32.ofInt a), advance := a } := by
  unfold wrapPhase
  rw [hfloor]
  exact if_neg (by omega)

/-- Settles O43: the range by `wrapPhase_ok`, the value by `wrapPhase_of_floor`, the index because a generator keeps it in
its range. -/
theorem phaseStaysInUnitInterval : Obligations.PhaseStaysInUnitInterval := by
  intro aa cfg st seed scale dt s r
  have hst : r.st = wrapPhase (waveGen aa cfg.waveType cfg.width st seed (phaseStep cfg.frequency scale dt)).st s := rfl
  rw [hst]
  generalize hg : (waveGen aa cfg.waveType cfg.width st seed (phaseStep cfg.frequency scale dt)).st = g
  obtain ⟨hphase, -, -, hindex⟩ := wrapPhase_ok g s
  obtain ⟨hlo, hhi⟩ := (Bool.and_eq_true _ _).mp hphase
  refine ⟨hlo, hhi, fun a hfloor ha => ?_, fun hi => ?_⟩
  · rw [wrapPhase_of_floor hfloor ha]
    dsimp only
    split <;> exact ⟨rfl, rfl⟩
  · rw [hindex, ← hg]
    exact waveGen_index_lt hi

/-- Settles O54: the stages that move the amplitude keep its range over a finite positive sample interval, and the others
leave it. -/
theorem envelopeAmplitudeStaysInRange : Obligations.EnvelopeAmplitudeStaysInRange := by
  intro g c e hfs hlegal hrange
  obtain ⟨hfin, hpos⟩ := sampleInterval_ok hfs
  obtain ⟨stage, a⟩ := e
  cases stage with
  | attack => exact envAttack_inRange hlegal hfin hpos hrange.amplitude
  | decay => exact envDecay_inRange hlegal hfin hpos hrange.amplitude (hrange.decaying rfl)
  | release => exact envRelease_inRange hlegal hfin hpos hrange.amplitude
  | sustain => exact hrange
  | off => exact hrange

end Sys2Proof.Machine
end

section
/-! PROOF. The words of the display, status and hardware registers, field by field (10_state.md R23, R33 to R38). -/

namespace Sys2Proof.Machine

/-- A field of a word written out as a number: the quotient by the field's place, as far as the field is wide. -/
theorem extractLsb'_ofNat_eq {n c i w : Nat} (hn : n < 2 ^ 32) (hc : n / 2 ^ i % 2 ^ w = c % 2 ^ w) :
    (BitVec.ofNat 32 n).extractLsb' i w = BitVec.ofNat w c := by
  apply BitVec.eq_of_toNat_eq
  rw [BitVec.extractLsb'_toNat, BitVec.toNat_ofNat, BitVec.toNat_ofNat, Nat.mod_eq_of_lt hn, Nat.shiftRight_eq_div_pow, hc]

/-- A bit of a word written out as a number. -/
theorem getLsbD_ofNat_eq {n i : Nat} {b : Bool} (hi : i < 32) (hb : n / 2 ^ i % 2 = b.toNat) :
    (BitVec.ofNat 32 n).getLsbD i = b := by
  rw [BitVec.getLsbD_ofNat, decide_eq_true hi, Bool.true_and, Nat.testBit_eq_decide_div_mod_eq, hb]
  cases b <;> rfl

theorem EnvStage.code_lt (e : EnvStage) : e.code < 5 := by cases e <;> decide

theorem voiceStatusWord_fields (v : Voice) :
    (voiceStatusWord v).extractLsb' 0 3 = BitVec.ofNat 3 v.venv.stage.code ∧
      (voiceStatusWord v).extractLsb' 3 1 = 0#1 ∧
      (voiceStatusWord v).extractLsb' 4 3 = BitVec.ofNat 3 v.fenv.stage.code ∧
      (voiceStatusWord v).extractLsb' 7 1 = 0#1 ∧
      (voiceStatusWord v).getLsbD 8 = v.gate ∧ (voiceStatusWord v).extractLsb' 9 23 = 0#23 := by
  have hv := v.venv.stage.code_lt
  have hf := v.fenv.stage.code_lt
  have hg := v.gate.toNat_lt
  have hn : v.venv.stage.code + v.fenv.stage.code * 2 ^ 4 + v.gate.toNat * 2 ^ 8 < 2 ^ 32 := by omega
  exact ⟨extractLsb'_ofNat_eq hn (by omega), extractLsb'_ofNat_eq hn (by omega), extractLsb'_ofNat_eq hn (by omega),
    extractLsb'_ofNat_eq hn (by omega), getLsbD_ofNat_eq (by decide) (by omega), extractLsb'_ofNat_eq hn (by omega)⟩

/-- `BUSY` says that a block runs (10_state.md R50). -/
theorem busy_iff {s : State} : s.busy = true ↔ ∃ p n active, s.seq = .rendering p n active := by
  unfold State.busy
  cases s.seq with
  | idle => simp
  | rendering p n active => simp

theorem statusWord_fields (s : State) :
    (statusWord s).getLsbD 0 = s.status.errCmd ∧ (statusWord s).getLsbD 1 = s.status.errAddr ∧
      (statusWord s).getLsbD 2 = s.status.errValue ∧ (statusWord s).extractLsb' 3 5 = 0#5 ∧
      (statusWord s).extractLsb' 9 23 = 0#23 ∧ (statusWord s).getLsbD 8 = s.busy := by
  have hc := s.status.errCmd.toNat_lt
  have ha := s.status.errAddr.toNat_lt
  have hv := s.status.errValue.toNat_lt
  have hb := s.busy.toNat_lt
  have hn : s.status.errCmd.toNat + 2 * s.status.errAddr.toNat + 4 * s.status.errValue.toNat + 256 * s.busy.toNat
      < 2 ^ 32 := by omega
  exact ⟨getLsbD_ofNat_eq (by decide) (by omega), getLsbD_ofNat_eq (by decide) (by omega),
    getLsbD_ofNat_eq (by decide) (by omega), extractLsb'_ofNat_eq hn (by omega), extractLsb'_ofNat_eq hn (by omega),
    getLsbD_ofNat_eq (by decide) (by omega)⟩

/-- The most recent key is in bits 4:0, the rest is 0 (10_state.md R36). -/
theorem keyWord_fields (k : VoiceIx) :
    ((BitVec.ofNat 32 k.val).extractLsb' 0 5).toNat = k.val ∧ (BitVec.ofNat 32 k.val).extractLsb' 5 27 = 0#27 := by
  have hk := k.isLt
  refine ⟨?_, extractLsb'_ofNat_eq (by omega) (by omega)⟩
  rw [extractLsb'_ofNat_eq (by omega) (c := k.val) (by omega), BitVec.toNat_ofNat]
  omega

/-- Settles O18: each word's fields by its own lemma, each binary32 register by its encoding. -/
theorem displayAndStatusWords : Obligations.DisplayAndStatusWords := by
  intro s
  obtain ⟨hcmd, haddr, hvalue, hlow, hhigh, hbusy⟩ := statusWord_fields s
  refine ⟨fun k => voiceStatusWord_fields (s.voice k), fun k => ⟨F32.ofBits_toBits _, F32.ofBits_toBits _⟩,
    F32.ofBits_toBits _, keyWord_fields s.mostRecentKey, ⟨hcmd, haddr, hvalue, hlow, hhigh, ?_⟩, ?_⟩
  · exact (Bool.eq_iff_iff.1 hbusy).trans busy_iff
  · simp only [List.forall_mem_cons, List.not_mem_nil, false_implies, implies_true, and_true]
    exact ⟨⟨.der .s0 .width, rfl, F32.ofBits_toBits _⟩, ⟨.der .s0 .frequency, rfl, F32.ofBits_toBits _⟩,
      ⟨.der .s0 .amplitude, rfl, F32.ofBits_toBits _⟩, ⟨.der .s1 .width, rfl, F32.ofBits_toBits _⟩,
      ⟨.der .s1 .frequency, rfl, F32.ofBits_toBits _⟩, ⟨.der .s1 .amplitude, rfl, F32.ofBits_toBits _⟩⟩

theorem hwcfgWord_fields (hw : HwConfig) :
    (hwcfgWord hw).extractLsb' 0 5 = 0x18#5 ∧ (hwcfgWord hw).extractLsb' 5 3 = 0#3 ∧
      ((hwcfgWord hw).getLsbD 8 = true ↔ hw.filterCore = .nonlinear) ∧
      (hwcfgWord hw).extractLsb' 9 7 = 0#7 ∧ (hwcfgWord hw).extractLsb' 16 4 = 2#4 ∧
      (hwcfgWord hw).extractLsb' 20 12 = 0#12 := by
  unfold hwcfgWord
  cases hw.filterCore <;> decide

end Sys2Proof.Machine
end

section
/-! PROOF. What an operation and a step do to the block's parameters and to the error bits (10_state.md R37, R38;
60_exceptions.md R401, R407). -/

namespace Sys2Proof.Machine

/-- The status is kept, or one error bit is set (60_exceptions.md R401). -/
def Status.KeptOrRaised (st st' : Status) : Prop := st' = st ∨ ∃ e, st' = st.set e

/-- Everything a `RENDER` can do (46_host_commands.md R353; 45_voice_mixer.md R320, R321). -/
theorem renderCommand_cases (p : Port) (n : BitVec 24) (s : State) :
    (s.seq ≠ .idle ∧ renderCommand p n s = s) ∨
      (s.seq = .idle ∧ activeList s = [] ∧ renderCommand p n s = emptyBlock n.toNat (markOwed p s)) ∨
      (s.seq = .idle ∧ activeList s ≠ [] ∧ n.toNat = 0 ∧ renderCommand p n s = markOwed p s) ∨
      (s.seq = .idle ∧ activeList s ≠ [] ∧ n.toNat ≠ 0 ∧
        renderCommand p n s = { markOwed p s with seq := .rendering p n.toNat (activeList s) }) := by
  have hlist : activeList (markOwed p s) = activeList s := by
    simp only [activeList, voice_congr (markOwed_voices p s)]
  unfold renderCommand startBlock
  rw [hlist]
  cases s.seq with
  | rendering => exact Or.inl ⟨nofun, rfl⟩
  | idle =>
    cases activeList s with
    | nil => exact Or.inr (Or.inl ⟨rfl, rfl, rfl⟩)
    | cons k ks =>
      by_cases hn : n.toNat = 0
      · exact Or.inr (Or.inr (Or.inl ⟨rfl, nofun, hn, if_pos hn⟩))
      · exact Or.inr (Or.inr (Or.inr ⟨rfl, nofun, hn, if_neg hn⟩))

theorem renderCommand_hw (p : Port) (n : BitVec 24) (s : State) : (renderCommand p n s).hw = s.hw := by
  obtain ⟨-, h⟩ | ⟨-, -, h⟩ | ⟨-, -, -, h⟩ | ⟨-, -, -, h⟩ := renderCommand_cases p n s <;> rw [h]
  all_goals exact markOwed_hw p s

theorem renderCommand_status (p : Port) (n : BitVec 24) (s : State) : (renderCommand p n s).status = s.status := by
  obtain ⟨-, h⟩ | ⟨-, -, h⟩ | ⟨-, -, -, h⟩ | ⟨-, -, -, h⟩ := renderCommand_cases p n s <;> rw [h]
  all_goals exact markOwed_status p s

@[simp] theorem risingEdge_hw (k : VoiceIx) (s : State) : (risingEdge k s).hw = s.hw := by
  rw [risingEdge_eq]
  rfl

@[simp] theorem risingEdge_status (k : VoiceIx) (s : State) : (risingEdge k s).status = s.status := by
  rw [risingEdge_eq]
  rfl

theorem gateCommand_hw (v : BitVec 5) (d : Bool) (s : State) : (gateCommand v d s).hw = s.hw := by
  obtain ⟨-, h⟩ | ⟨_, ⟨-, h⟩ | ⟨-, -, h⟩ | ⟨-, -, h⟩⟩ := gateCommand_cases v d s <;> rw [h]
  · exact raiseError_hw _ _
  · exact risingEdge_hw _ s
  · exact setVoice_hw _ _ _

theorem gateCommand_status (v : BitVec 5) (d : Bool) (s : State) : s.status.KeptOrRaised (gateCommand v d s).status := by
  obtain ⟨-, h⟩ | ⟨_, ⟨-, h⟩ | ⟨-, -, h⟩ | ⟨-, -, h⟩⟩ := gateCommand_cases v d s <;> rw [h]
  · exact Or.inr ⟨.value, rfl⟩
  · exact Or.inl rfl
  · exact Or.inl (risingEdge_status _ s)
  · exact Or.inl (setVoice_status _ _ _)

theorem commandWord_hw (p : Port) (w : Word) (s : State) : (commandWord p w s).hw = s.hw := by
  obtain h | ⟨v, d, -, h⟩ | ⟨n, -, h⟩ | ⟨e, -, h⟩ := commandWord_cases p w s <;> rw [h]
  · exact gateCommand_hw v d s
  · exact renderCommand_hw p n s
  · exact raiseError_hw _ _

theorem commandWord_status (p : Port) (w : Word) (s : State) : s.status.KeptOrRaised (commandWord p w s).status := by
  obtain h | ⟨v, d, -, h⟩ | ⟨n, -, h⟩ | ⟨e, -, h⟩ := commandWord_cases p w s <;> rw [h]
  · exact Or.inl rfl
  · exact gateCommand_status v d s
  · exact Or.inl (renderCommand_status p n s)
  · exact Or.inr ⟨.cmd, rfl⟩

theorem memWrite_hw (p : Port) (off : BitVec 12) (v : Word) (s : State) : (memWrite p off v s).hw = s.hw := by
  obtain ⟨e, h⟩ | ⟨-, h⟩ | ⟨-, h⟩ | ⟨r, -, -, -, -, -, h⟩ := memWrite_cases p off v s <;> rw [h]
  · exact raiseError_hw e s
  · exact commandWord_hw p v s
  · exact clearErrors_hw v s
  · exact storeReg_hw r v s

/-- A bus write keeps the error bits or sets one, but for a write to `STATUS` (20_memory.md R72). -/
theorem memWrite_status (p : Port) (off : BitVec 12) (v : Word) (s : State) :
    s.status.KeptOrRaised (memWrite p off v s).status ∨
      (off = 4#12 ∧ (memWrite p off v s).status = s.status.clear v) := by
  obtain ⟨e, h⟩ | ⟨-, h⟩ | ⟨hoff, h⟩ | ⟨r, -, -, -, -, -, h⟩ := memWrite_cases p off v s <;> rw [h]
  · exact Or.inl (Or.inr ⟨e, rfl⟩)
  · exact Or.inl (commandWord_status p v s)
  · exact Or.inr ⟨hoff, rfl⟩
  · exact Or.inl (Or.inl rfl)

theorem memRead_hw (off : BitVec 12) (s : State) : (memRead off s).2.hw = s.hw := by
  obtain h | ⟨r, -, h⟩ := memRead_cases off s <;> rw [h]
  exact raiseError_hw _ _

theorem memRead_status (off : BitVec 12) (s : State) : s.status.KeptOrRaised (memRead off s).2.status := by
  obtain h | ⟨r, -, h⟩ := memRead_cases off s <;> rw [h]
  · exact Or.inr ⟨.addr, rfl⟩
  · exact Or.inl rfl

/-- No operation changes the block's parameters (00_scope.md R5). -/
theorem effect_hw (i : Instr) (s : State) : (effect i s).hw = s.hw := by
  cases i with
  | nop p => rfl
  | gate p v d => exact gateCommand_hw v d s
  | render p n => exact renderCommand_hw p n s
  | busWrite p off v => exact memWrite_hw p off v s
  | busRead p off => exact (respond_hw _ _ _).trans (memRead_hw off s)

/-- Every operation keeps the error bits or sets one, but for a write to `STATUS` (60_exceptions.md R401, R407). -/
theorem effect_status (i : Instr) (s : State) :
    s.status.KeptOrRaised (effect i s).status ∨
      ∃ p m, i = .busWrite p 4#12 m ∧ (effect i s).status = s.status.clear m := by
  cases i with
  | nop p => exact Or.inl (Or.inl rfl)
  | gate p v d => exact Or.inl (gateCommand_status v d s)
  | render p n => exact Or.inl (Or.inl (renderCommand_status p n s))
  | busWrite p off v =>
    obtain h | ⟨rfl, h⟩ := memWrite_status p off v s
    · exact Or.inl h
    · exact Or.inr ⟨p, v, rfl, h⟩
  | busRead p off =>
    refine Or.inl ?_
    rw [effect, respond_status]
    exact memRead_status off s

theorem completeUnlessRendering_hw (p : Port) (s : State) : (completeUnlessRendering p s).hw = s.hw := by
  obtain h | h := completeUnlessRendering_cases p s <;> rw [h]
  exact completeTxn_hw p s

theorem completeUnlessRendering_status (p : Port) (s : State) : (completeUnlessRendering p s).status = s.status := by
  obtain h | h := completeUnlessRendering_cases p s <;> rw [h]
  exact completeTxn_status p s

/-- While no block runs a sample step does nothing. -/
theorem sampleStep_of_idle {s : State} (h : s.seq = .idle) : sampleStep s = s := by
  unfold sampleStep
  rw [h]

/-- Steps a to e of a sample step leave the parameters, the error bits and the ports alone (45_voice_mixer.md R324). -/
theorem renderFrame_kept (active : List VoiceIx) (s : State) :
    (renderFrame active s).1.hw = s.hw ∧ (renderFrame active s).1.status = s.status ∧
      ∀ p, (renderFrame active s).1.port p = s.port p := by
  obtain ⟨q, h, -⟩ := renderFrame_frame active s
  exact ⟨(congrArg State.hw h).trans rfl, (congrArg State.status h).trans rfl,
    port_congr ((congrArg State.ctrl h).trans rfl) ((congrArg State.audio h).trans rfl)⟩

theorem sampleStep_hw_status (s : State) : (sampleStep s).hw = s.hw ∧ (sampleStep s).status = s.status := by
  cases hs : s.seq with
  | idle => rw [sampleStep_of_idle hs]; exact ⟨rfl, rfl⟩
  | rendering p n active =>
    obtain ⟨hhw, hstatus, -⟩ := renderFrame_kept active s
    obtain ⟨-, h⟩ | ⟨-, h⟩ := sampleStep_cases hs <;> rw [h]
    · rw [completeTxn_hw, completeTxn_status]
      exact ⟨hhw, hstatus⟩
    · exact ⟨hhw, hstatus⟩

/-- A step never changes the block's parameters (00_scope.md R5). -/
theorem step_hw {s t : State} (h : step s = .next t) : t.hw = s.hw := by
  obtain ⟨-, rfl⟩ | ⟨p, x, -, rfl⟩ | ⟨p, x, -, rfl⟩ | ⟨-, rfl⟩ | ⟨-, rfl⟩ := step_cases h
  · rfl
  · exact issueTxn_hw p x _
  · rw [completeUnlessRendering_hw, effect_hw]
  · exact (sampleStep_hw_status _).1
  · rfl

/-- A step that is no reset and serves no write to `STATUS` keeps the error bits or sets one (10_state.md R37). -/
theorem step_status {s t : State} (h : step s = .next t) :
    nextTurn s = .reset ∨ s.status.KeptOrRaised t.status ∨
      ∃ p m, nextTurn s = .serve p ⟨4#12, some m⟩ ∧ t.status = s.status.clear m := by
  obtain ⟨-, rfl⟩ | ⟨p, x, -, rfl⟩ | ⟨p, x, hturn, rfl⟩ | ⟨-, rfl⟩ | ⟨hturn, -⟩ := step_cases h
  · exact Or.inr (Or.inl (Or.inl rfl))
  · exact Or.inr (Or.inl (Or.inl (issueTxn_status p x _)))
  · rw [completeUnlessRendering_status]
    obtain heff | ⟨q, m, hdecode, heff⟩ := effect_status (decodeTxn p x) { s with schedule := s.schedule.tail }
    · exact Or.inr (Or.inl heff)
    · obtain ⟨-, rfl, -⟩ := decodeTxn_busWrite hdecode
      exact Or.inr (Or.inr ⟨p, m, hturn, heff⟩)
  · exact Or.inr (Or.inl (Or.inl (sampleStep_hw_status _).2))
  · exact Or.inl hturn

/-- Settles O19: the fields by `hwcfgWord_fields`; a read-only offset refuses the write, and no step changes `hw`. -/
theorem hwcfgIsConstant : Obligations.HwcfgIsConstant := by
  intro p v s w
  obtain ⟨hvoices, hlow, hcore, hmid, hover, hhigh⟩ := hwcfgWord_fields s.hw
  exact ⟨hvoices, hlow, hcore, hmid, hover, hhigh, rfl, rfl, fun t ht => congrArg hwcfgWord (step_hw ht)⟩

/-- `get` reads the error bit that stands at bit `b` of `STATUS` (10_state.md R37). -/
def IsErrorBit (b : Nat) (get : Status → Bool) : Prop :=
  (b = 0 ∧ get = Status.errCmd) ∨ (b = 1 ∧ get = Status.errAddr) ∨ (b = 2 ∧ get = Status.errValue)

theorem IsErrorBit.get_clear {b : Nat} {get : Status → Bool} (hb : IsErrorBit b get) (m : Word) (st : Status) :
    get (st.clear m) = (get st && !m.getLsbD b) := by
  obtain ⟨rfl, rfl⟩ | ⟨rfl, rfl⟩ | ⟨rfl, rfl⟩ := hb <;> rfl

theorem IsErrorBit.get_set {b : Nat} {get : Status → Bool} (hb : IsErrorBit b get) {st : Status} (h : get st = true)
    (e : ErrorBit) : get (st.set e) = true := by
  obtain ⟨rfl, rfl⟩ | ⟨rfl, rfl⟩ | ⟨rfl, rfl⟩ := hb <;> cases e <;> simp [Status.set, h]

/-- An error bit that is set stays where the status is kept or a bit is set. -/
theorem IsErrorBit.get_keptOrRaised {b : Nat} {get : Status → Bool} (hb : IsErrorBit b get) {st st' : Status}
    (hst : st.KeptOrRaised st') (h : get st = true) : get st' = true := by
  obtain rfl | ⟨e, rfl⟩ := hst
  · exact h
  · exact hb.get_set h e

/-- Settles O26: by `step_status` only reset or a write to `STATUS` can lower a bit, and such a write lowers those it
names. -/
theorem errorBitsAreSticky : Obligations.ErrorBitsAreSticky := by
  intro s t hstep b get hb hset hclear
  replace hb : IsErrorBit b get := hb
  obtain hreset | hkept | ⟨p, m, hturn, hstatus⟩ := step_status hstep
  · exact Or.inl hreset
  · rw [hb.get_keptOrRaised hkept hset] at hclear
    cases hclear
  · rw [hstatus, hb.get_clear, hset, Bool.true_and, Bool.not_eq_false'] at hclear
    exact Or.inr ⟨p, m, hturn, hclear⟩

end Sys2Proof.Machine
end

section
/-! PROOF. Each port is a queue: what each kind of step does to it (10_state.md R51; 60_exceptions.md R412 item 1). -/

namespace Sys2Proof.Machine

theorem issueTxn_queue (s : State) (p r : Port) (x : BusTxn) :
    ((issueTxn r x s).port p).queue = if p = r then (s.port p).queue ++ [x] else (s.port p).queue := by
  rw [issueTxn_port]
  by_cases h : p = r
  · subst h; simp
  · rw [if_neg (Ne.symm h), if_neg h]

theorem completeTxn_queue (s : State) (p r : Port) :
    ((completeTxn r s).port p).queue = if p = r then (s.port p).queue.tail else (s.port p).queue := by
  rw [completeTxn_port]
  by_cases h : p = r
  · subst h; simp
  · rw [if_neg (Ne.symm h), if_neg h]

@[simp] theorem completeUnlessRendering_seq (p : Port) (s : State) : (completeUnlessRendering p s).seq = s.seq := by
  obtain h | h := completeUnlessRendering_cases p s <;> rw [h]
  exact completeTxn_seq p s

/-- A `RENDER` whose block runs stays at the head of its port (46_host_commands.md R350). -/
theorem completeUnlessRendering_of_rendering {p : Port} {s : State} {n : Nat} {active : List VoiceIx}
    (h : s.seq = .rendering p n active) : completeUnlessRendering p s = s := by
  unfold completeUnlessRendering
  rw [h]
  exact if_pos rfl

theorem completeUnlessRendering_of_not_rendering {p : Port} {s : State}
    (h : ∀ n active, s.seq ≠ .rendering p n active) : completeUnlessRendering p s = completeTxn p s := by
  unfold completeUnlessRendering
  cases hs : s.seq with
  | idle => rfl
  | rendering q n active =>
    refine if_neg ?_
    rintro rfl
    exact h n active hs

/-- What follows an operation of port `r` takes the head of that port away, unless it is the `RENDER` whose block now
runs, and touches no other queue (46_host_commands.md R350). -/
theorem completeUnlessRendering_queue (s : State) (p r : Port) :
    (p ≠ r ∨ (∃ n active, s.seq = .rendering r n active) →
        ((completeUnlessRendering r s).port p).queue = (s.port p).queue) ∧
      (p = r → (∀ n active, s.seq ≠ .rendering r n active) →
        ((completeUnlessRendering r s).port p).queue = (s.port p).queue.tail) := by
  constructor
  · rintro (hne | ⟨n, active, hseq⟩)
    · obtain h | h := completeUnlessRendering_cases r s <;> rw [h]
      rw [completeTxn_queue, if_neg hne]
    · rw [completeUnlessRendering_of_rendering hseq]
  · intro hpr hseq
    rw [completeUnlessRendering_of_not_rendering hseq, completeTxn_queue, if_pos hpr]

theorem sampleStep_queue {s : State} {r : Port} {n : Nat} {active : List VoiceIx} (hs : s.seq = .rendering r n active)
    (p : Port) :
    ((sampleStep s).port p).queue = if p = r ∧ n ≤ 1 then (s.port p).queue.tail else (s.port p).queue := by
  obtain ⟨-, -, hport⟩ := renderFrame_kept active s
  have hseq : ∀ q, ({ (renderFrame active s).1 with seq := q } : State).port p = s.port p :=
    fun q => (port_congr rfl rfl p).trans (hport p)
  obtain ⟨hn, h⟩ | ⟨hn, h⟩ := sampleStep_cases hs <;> rw [h]
  · rw [completeTxn_queue, hseq]
    simp [hn]
  · rw [hseq, if_neg (by omega)]

theorem applyReset_queue (s : State) (p : Port) : ((applyReset s).port p).queue = [] := by cases p <;> rfl

/-- Settles O39: the case split over what a step does, each case by its operation's queue lemma. -/
theorem portsKeepIssueOrder : Obligations.PortsKeepIssueOrder := by
  refine ⟨fun s t hstep p => ?_, fun s p x rest hsched => ?_⟩
  · have hq : ∀ r, (({ s with schedule := s.schedule.tail } : State).port r).queue = (s.port r).queue :=
      fun r => by rw [setSchedule_port]
    obtain ⟨hturn, rfl⟩ | ⟨r, x, hturn, rfl⟩ | ⟨r, x, hturn, rfl⟩ | ⟨hturn, rfl⟩ | ⟨hturn, rfl⟩ := step_cases hstep
    all_goals
      rw [hturn]
      dsimp only
    · exact hq p
    · rw [issueTxn_queue, hq]
    · obtain ⟨-, rest, hhead⟩ := servable_some (nextTurn_serve hturn)
      have hqueue := completeUnlessRendering_queue (effect (decodeTxn r x) { s with schedule := s.schedule.tail }) p r
      rw [effect_queue, hq] at hqueue
      rw [completeUnlessRendering_seq]
      exact ⟨by rw [hhead]; rfl, hqueue⟩
    · obtain ⟨r, n, active, hseq⟩ := nextTurn_sample hturn
      refine ⟨r, n, active, hseq, ?_⟩
      rw [sampleStep_queue (s := { s with schedule := s.schedule.tail }) hseq, hq]
    · exact applyReset_queue _ p
  · unfold nextTurn
    rw [hsched]

end Sys2Proof.Machine
end

section
/-! PROOF. The register map, bus reads of mapped registers and writes to `CMD` (20_memory.md R71, R72, R75, R78). -/

namespace Sys2Proof.Machine

/-- The offsets the map lists (20_memory.md R78). -/
abbrev MappedOffset (n : Nat) : Prop :=
  n % 4 = 0 ∧
    (n ≤ 0x018 ∨ (0x020 ≤ n ∧ n ≤ 0x038) ∨ (0x040 ≤ n ∧ n ≤ 0x058) ∨ (0x060 ≤ n ∧ n ≤ 0x0A0) ∨
      (0x100 ≤ n ∧ n ≤ 0x104) ∨ (0x110 ≤ n ∧ n ≤ 0x118) ∨ (0x120 ≤ n ∧ n ≤ 0x128) ∨ (0x200 ≤ n ∧ n ≤ 0x25C) ∨
      (0x300 ≤ n ∧ n ≤ 0x35C) ∨ (0x380 ≤ n ∧ n ≤ 0x3DC))

theorem Reg.mappedOffset_offset (r : Reg) : MappedOffset r.offset := by
  cases r with
  | osc o f => cases o <;> cases f <;> decide
  | lfo f => cases f <;> decide
  | env e f => cases e <;> cases f <;> decide
  | flt f => cases f <;> decide
  | der o f => cases o <;> cases f <;> decide
  | voiceStatus k => have := k.isLt; simp only [Reg.offset]; omega
  | venvAmp k => have := k.isLt; simp only [Reg.offset]; omega
  | fenvAmp k => have := k.isLt; simp only [Reg.offset]; omega
  | _ => decide

/-- Below the voices' registers every listed offset has its register (20_memory.md R78). -/
theorem regAtNat_isSome_of_low : ∀ m < 75, MappedOffset (4 * m) → (regAtNat (4 * m)).isSome = true := by decide

/-- Every listed offset is that of a register (20_memory.md R78). -/
theorem exists_offset_eq {n : Nat} (h : MappedOffset n) : ∃ r : Reg, n = r.offset := by
  rcases Nat.lt_or_ge n 0x12C with hlow | hhigh
  · obtain ⟨m, rfl⟩ : ∃ m, n = 4 * m := ⟨n / 4, by omega⟩
    obtain ⟨r, hr⟩ := Option.isSome_iff_exists.1 (regAtNat_isSome_of_low m (by omega) h)
    exact ⟨r, offset_of_regAtNat hr⟩
  · obtain ⟨hal, hn⟩ := h
    rcases Nat.lt_or_ge n 0x300 with h2 | h2
    · exact ⟨.voiceStatus ⟨(n - 0x200) / 4, by omega⟩, by simp only [Reg.offset]; omega⟩
    · rcases Nat.lt_or_ge n 0x380 with h3 | h3
      · exact ⟨.venvAmp ⟨(n - 0x300) / 4, by omega⟩, by simp only [Reg.offset]; omega⟩
      · exact ⟨.fenvAmp ⟨(n - 0x380) / 4, by omega⟩, by simp only [Reg.offset]; omega⟩

theorem regAt_eq_some_iff_offset {off : BitVec 12} {r : Reg} : regAt off = some r ↔ off.toNat = r.offset := by
  refine ⟨offset_of_regAtNat, fun h => ?_⟩
  rw [regAt, h]
  exact regAtNat_offset r

theorem regAt_isSome_iff (off : BitVec 12) : (regAt off).isSome = true ↔ MappedOffset off.toNat := by
  rw [Option.isSome_iff_exists]
  constructor
  · rintro ⟨r, hr⟩
    rw [regAt_eq_some_iff_offset.1 hr]
    exact r.mappedOffset_offset
  · intro h
    obtain ⟨r, hr⟩ := exists_offset_eq h
    exact ⟨r, regAt_eq_some_iff_offset.2 hr⟩

/-- The read-only registers are `HWCFG` and all from offset 0x100 on (20_memory.md R78). -/
theorem Reg.readOnly_iff (r : Reg) : r.readOnly = true ↔ r = .hwcfg ∨ 0x100 ≤ r.offset := by
  cases r with
  | osc o f => cases o <;> cases f <;> decide
  | lfo f => cases f <;> decide
  | env e f => cases e <;> cases f <;> decide
  | flt f => cases f <;> decide
  | der o f => cases o <;> cases f <;> decide
  | voiceStatus k => exact iff_of_true rfl (Or.inr (by simp only [Reg.offset]; omega))
  | venvAmp k => exact iff_of_true rfl (Or.inr (by simp only [Reg.offset]; omega))
  | fenvAmp k => exact iff_of_true rfl (Or.inr (by simp only [Reg.offset]; omega))
  | _ => decide

/-- Settles O16: an offset has a register exactly where it is some register's own, and those are the offsets listed. -/
theorem registerMap : Obligations.RegisterMap :=
  ⟨regAt_isSome_iff, fun _ _ => regAt_eq_some_iff_offset, Reg.readOnly_iff⟩

theorem regAt_offset (r : Reg) : regAt (BitVec.ofNat 12 r.offset) = some r := regAt_eq_some_iff.2 rfl

/-- A read at a register's offset answers its word and leaves the state (20_memory.md R71, R75). -/
theorem memRead_offset (r : Reg) (s : State) : memRead (BitVec.ofNat 12 r.offset) s = (readReg s r, s) := by
  unfold memRead
  rw [if_neg (not_not.2 (aligned_of_regAt (regAt_offset r))), regAt_offset]

/-- A write at a register's offset is the write of that register (20_memory.md R72). -/
theorem memWrite_offset (p : Port) (r : Reg) (v : Word) (s : State) :
    memWrite p (BitVec.ofNat 12 r.offset) v s = writeMapped p r v s := by
  unfold memWrite
  rw [if_neg (not_not.2 (aligned_of_regAt (regAt_offset r))), regAt_offset]

theorem respond_frame (p : Port) (v : Word) (s : State) :
    respond p v s = { s with ctrl := (respond p v s).ctrl, audio := (respond p v s).audio } := by
  cases p <;> rfl

/-- Settles O17: the read answers the register's word, and `respond` touches only the list of its own port. -/
theorem busReadOfMapped : Obligations.BusReadOfMapped := by
  intro p r s
  refine ⟨rfl, respond p (readReg s r) s, ?_, respond_frame p _ s, ?_, ?_⟩
  · rw [exec_eq, effect, memRead_offset]
  · rw [respond_port, if_pos rfl]
  · rw [respond_port, if_neg (ne_other p)]

/-- A word written to `CMD` that the decoder reads is the command's own operation (30_encoding.md R111). -/
theorem decodeTxn_cmd_ok {p : Port} {w : Word} {c : Cmd} (h : decodeCmd w = .ok c) :
    decodeTxn p ⟨0#12, some w⟩ = c.toInstr p := by
  unfold decodeTxn
  dsimp only
  rw [if_pos rfl, h]

/-- A word written to `CMD` that the decoder rejects stays a bus write (46_host_commands.md R357). -/
theorem decodeTxn_cmd_error {p : Port} {w : Word} {e : DecodeError} (h : decodeCmd w = .error e) :
    decodeTxn p ⟨0#12, some w⟩ = .busWrite p 0#12 w := by
  unfold decodeTxn
  dsimp only
  rw [if_pos rfl, h]

theorem commandWord_ok {p : Port} {w : Word} {c : Cmd} {s : State} (h : decodeCmd w = .ok c) :
    commandWord p w s = effect (c.toInstr p) s := by
  unfold commandWord
  rw [h]
  cases c <;> rfl

/-- Settles O22: a command the decoder reads runs as its own operation, and a word it rejects is the bus write itself. -/
theorem commandRegisterExecutes : Obligations.CommandRegisterExecutes := by
  intro p w s
  cases hw : decodeCmd w with
  | ok c =>
    have hwrite : exec (.busWrite p 0x000#12 w) s = .next (commandWord p w s) := rfl
    rw [hwrite, commandWord_ok hw, decodeTxn_cmd_ok hw, exec_eq]
  | error e => rw [decodeTxn_cmd_error hw]

end Sys2Proof.Machine
end

section
/-! PROOF. A write of an acceptable value, read back: the register gives the value and every other register what it gave
before (20_memory.md R72; 30_encoding.md R106, R107, R110). -/

namespace Sys2Proof.Machine

/-! The codes of the enumerations. -/

theorem waveTypeOfCode_code (w : WaveType) : waveTypeOfCode (BitVec.ofNat 32 w.code) = some w := by cases w <;> rfl

theorem filterModeOfCode_code (m : FilterMode) : filterModeOfCode (BitVec.ofNat 32 m.code) = some m := by cases m <;> rfl

/-- Different wave types have different codes (30_encoding.md R106). -/
theorem waveType_eq_iff_code {w w' : WaveType} : w = w' ↔ BitVec.ofNat 32 w.code = BitVec.ofNat 32 w'.code := by
  refine ⟨fun h => by rw [h], fun h => Option.some.inj ?_⟩
  rw [← waveTypeOfCode_code w, ← waveTypeOfCode_code w', h]

/-- Different filter modes have different codes (30_encoding.md R107). -/
theorem filterMode_eq_iff_code {m m' : FilterMode} : m = m' ↔ BitVec.ofNat 32 m.code = BitVec.ofNat 32 m'.code := by
  refine ⟨fun h => by rw [h], fun h => Option.some.inj ?_⟩
  rw [← filterModeOfCode_code m, ← filterModeOfCode_code m', h]

/-- The codes 0 to 10 are those of the wave types (30_encoding.md R106). -/
theorem exists_waveType_code {v : Word} (h : v.toNat ≤ 10) : ∃ w : WaveType, v = BitVec.ofNat 32 w.code := by
  have hcodes : ∀ n < 11, ∃ w : WaveType, n = w.code := by
    intro n hn
    interval_cases n
    exacts [⟨.sine, rfl⟩, ⟨.pulse, rfl⟩, ⟨.sawtooth, rfl⟩, ⟨.triangle, rfl⟩, ⟨.noise, rfl⟩, ⟨.poly4, rfl⟩, ⟨.poly5, rfl⟩,
      ⟨.poly17, rfl⟩, ⟨.pulsePoly5, rfl⟩, ⟨.poly4Poly5, rfl⟩, ⟨.poly17Poly5, rfl⟩]
  obtain ⟨w, hw⟩ := hcodes v.toNat (by omega)
  exact ⟨w, by rw [← hw, BitVec.ofNat_toNat, BitVec.setWidth_eq]⟩

/-- The codes 0 to 20 are those of the filter modes (30_encoding.md R107). -/
theorem exists_filterMode_code {v : Word} (h : v.toNat ≤ 20) : ∃ m : FilterMode, v = BitVec.ofNat 32 m.code := by
  have hcodes : ∀ n < 21, ∃ m : FilterMode, n = m.code := by
    intro n hn
    interval_cases n
    exacts [⟨.none, rfl⟩, ⟨.peak, rfl⟩, ⟨.lowPass1, rfl⟩, ⟨.lowPass2, rfl⟩, ⟨.lowPass3, rfl⟩, ⟨.lowPass4, rfl⟩,
      ⟨.highPass1, rfl⟩, ⟨.highPass2, rfl⟩, ⟨.highPass3, rfl⟩, ⟨.highPass4, rfl⟩, ⟨.bandPass1, rfl⟩,
      ⟨.bandPass1LowPass1, rfl⟩, ⟨.bandPass1LowPass2, rfl⟩, ⟨.bandPass1HighPass1, rfl⟩, ⟨.bandPass1HighPass2, rfl⟩,
      ⟨.bandPass2, rfl⟩, ⟨.notch, rfl⟩, ⟨.notchLowPass1, rfl⟩, ⟨.notchLowPass2, rfl⟩, ⟨.phaseShift, rfl⟩,
      ⟨.phaseShiftLowPass1, rfl⟩]
  obtain ⟨m, hm⟩ := hcodes v.toNat (by omega)
  exact ⟨m, by rw [← hm, BitVec.ofNat_toNat, BitVec.setWidth_eq]⟩

/-- What a register can hold: a code of its enumeration, and any nonzero sample rate (20_memory.md R72). -/
structure Reg.Holds (r : Reg) (v : Word) : Prop where
  wave : r = .osc .s0 .waveType ∨ r = .osc .s1 .waveType ∨ r = .lfo .waveType → v.toNat ≤ 10
  mode : r = .flt .mode → v.toNat ≤ 20
  fs   : r = .fs → v ≠ 0#32

theorem Reg.Holds.oscWave {o : Slot} {v : Word} (h : (Reg.osc o .waveType).Holds v) : v.toNat ≤ 10 :=
  h.wave (by cases o <;> simp)

theorem waveTypeOfCode_isSome {v : Word} (h : v.toNat ≤ 10) : (waveTypeOfCode v).isSome = true := by
  obtain ⟨w, rfl⟩ := exists_waveType_code h
  rw [waveTypeOfCode_code]
  rfl

theorem filterModeOfCode_isSome {v : Word} (h : v.toNat ≤ 20) : (filterModeOfCode v).isSome = true := by
  obtain ⟨m, rfl⟩ := exists_filterMode_code h
  rw [filterModeOfCode_code]
  rfl

/-- A register accepts every value it can hold (20_memory.md R72; 30_encoding.md R110). -/
theorem Reg.Holds.accepts {r : Reg} {v : Word} (h : r.Holds v) : r.accepts v = true := by
  cases r with
  | fs => exact bne_iff_ne.2 (h.fs rfl)
  | osc o f =>
    cases f with
    | waveType => exact waveTypeOfCode_isSome h.oscWave
    | _ => rfl
  | lfo f =>
    cases f with
    | waveType => exact waveTypeOfCode_isSome (h.wave (Or.inr (Or.inr rfl)))
    | _ => rfl
  | flt f =>
    cases f with
    | mode => exact filterModeOfCode_isSome (h.mode rfl)
    | _ => rfl
  | _ => rfl

theorem writeMapped_of_accepts {p : Port} {r : Reg} {v : Word} {s : State} (hro : r.readOnly = false) (hc : r ≠ .cmd)
    (hs : r ≠ .status) (ha : r.accepts v = true) : writeMapped p r v s = storeReg r v s := by
  simp [writeMapped, hro, hc, hs, ha]

/-! Reading back. -/

theorem code_waveTypeOfCode_getD {v : Word} (h : v.toNat ≤ 10) (d : WaveType) :
    BitVec.ofNat 32 ((waveTypeOfCode v).getD d).code = v := by
  obtain ⟨w, rfl⟩ := exists_waveType_code h
  rw [waveTypeOfCode_code, Option.getD_some]

theorem code_filterModeOfCode_getD {v : Word} (h : v.toNat ≤ 20) (d : FilterMode) :
    BitVec.ofNat 32 ((filterModeOfCode v).getD d).code = v := by
  obtain ⟨m, rfl⟩ := exists_filterMode_code h
  rw [filterModeOfCode_code, Option.getD_some]

/-- The number of bit 0 is the word with the other bits cleared. -/
theorem ofNat_toNat_getLsbD_zero (v : Word) : BitVec.ofNat 32 (v.getLsbD 0).toNat = v &&& 1#32 := by
  apply BitVec.eq_of_toNat_eq
  rw [BitVec.toNat_and, BitVec.toNat_ofNat, BitVec.toNat_ofNat, BitVec.getLsbD, Nat.testBit_zero]
  have hand := Nat.and_one_is_mod v.toNat
  rcases Nat.mod_two_eq_zero_or_one v.toNat with h | h <;> simp [h, hand]

@[simp] theorem osc_setOsc (c : Cfg) (o o' : Slot) (x : NoteOscCfg) :
    (c.setOsc o x).osc o' = if o' = o then x else c.osc o' := by cases o <;> cases o' <;> rfl

@[simp] theorem env_setEnv (c : Cfg) (e e' : EnvSel) (x : EnvCfg) :
    (c.setEnv e x).env e' = if e' = e then x else c.env e' := by cases e <;> cases e' <;> rfl

theorem NoteOscCfg.word_store_self {v : Word} {f : OscField} (c : NoteOscCfg) (h : f = .waveType → v.toNat ≤ 10) :
    (c.store v f).word f = v := by
  cases f with
  | waveType => exact code_waveTypeOfCode_getD (h rfl) _
  | _ => exact F32.toBits_ofBits v

theorem LfoCfg.word_store_self {v : Word} {f : LfoField} (c : LfoCfg) (h : f = .waveType → v.toNat ≤ 10) :
    (c.store v f).word f = v := by
  cases f with
  | waveType => exact code_waveTypeOfCode_getD (h rfl) _
  | _ => exact F32.toBits_ofBits v

theorem EnvCfg.word_store_self (c : EnvCfg) (v : Word) (f : EnvField) : (c.store v f).word f = v := by
  cases f <;> exact F32.toBits_ofBits v

theorem FilterCfg.word_store_self {v : Word} {f : FltField} (c : FilterCfg) (h : f = .mode → v.toNat ≤ 20) :
    (c.store v f).word f = v := by
  cases f with
  | mode => exact code_filterModeOfCode_getD (h rfl) _
  | _ => exact F32.toBits_ofBits v

theorem NoteOscCfg.word_store_of_ne {f g : OscField} (c : NoteOscCfg) (v : Word) (h : g ≠ f) :
    (c.store v f).word g = c.word g := by
  cases f <;> cases g <;> trivial

theorem LfoCfg.word_store_of_ne {f g : LfoField} (c : LfoCfg) (v : Word) (h : g ≠ f) :
    (c.store v f).word g = c.word g := by
  cases f <;> cases g <;> trivial

theorem EnvCfg.word_store_of_ne {f g : EnvField} (c : EnvCfg) (v : Word) (h : g ≠ f) :
    (c.store v f).word g = c.word g := by
  cases f <;> cases g <;> trivial

theorem FilterCfg.word_store_of_ne {f g : FltField} (c : FilterCfg) (v : Word) (h : g ≠ f) :
    (c.store v f).word g = c.word g := by
  cases f <;> cases g <;> trivial

/-- A stored value reads back, as far as the register keeps it (20_memory.md R71, R72). -/
theorem readReg_storeReg_self {r : Reg} {v : Word} (s : State) (hro : r.readOnly = false) (hc : r ≠ .cmd)
    (hs : r ≠ .status) (hv : r.Holds v) :
    readReg (storeReg r v s) r = if r = .useAntialias then v &&& 1#32 else v := by
  cases r with
  | cmd => exact absurd rfl hc
  | status => exact absurd rfl hs
  | fs => rfl
  | useAntialias => exact ofNat_toNat_getLsbD_zero v
  | outputScale => exact F32.toBits_ofBits v
  | keyboardTimescale => exact F32.toBits_ofBits v
  | osc o f =>
    rw [if_neg nofun, readReg, storeReg_cfg, Cfg.store, osc_setOsc, if_pos rfl]
    exact NoteOscCfg.word_store_self _ (by rintro rfl; exact hv.oscWave)
  | lfo f => exact LfoCfg.word_store_self _ (by rintro rfl; exact hv.wave (Or.inr (Or.inr rfl)))
  | env e f =>
    rw [if_neg nofun, readReg, storeReg_cfg, Cfg.store, env_setEnv, if_pos rfl]
    exact EnvCfg.word_store_self _ v f
  | flt f => exact FilterCfg.word_store_self _ (by rintro rfl; exact hv.mode rfl)
  | _ => cases hro

/-- Storing in a register changes what no other register reads as (20_memory.md R72). -/
theorem readReg_storeReg_of_ne {r r' : Reg} (v : Word) (s : State) (h : r' ≠ r) :
    readReg (storeReg r v s) r' = readReg s r' := by
  cases r with
  | fs => cases r' <;> trivial
  | outputScale => cases r' <;> trivial
  | useAntialias => cases r' <;> trivial
  | keyboardTimescale => cases r' <;> trivial
  | osc o f =>
    cases r' with
    | osc o' f' =>
      rw [readReg, readReg, storeReg_cfg, Cfg.store, osc_setOsc]
      by_cases ho : o' = o
      · subst ho
        rw [if_pos rfl]
        exact NoteOscCfg.word_store_of_ne _ v (by rintro rfl; exact h rfl)
      · rw [if_neg ho]
    | _ => cases o <;> rfl
  | lfo f =>
    cases r' with
    | lfo f' => exact LfoCfg.word_store_of_ne _ v (by rintro rfl; exact h rfl)
    | _ => rfl
  | env e f =>
    cases r' with
    | env e' f' =>
      rw [readReg, readReg, storeReg_cfg, Cfg.store, env_setEnv]
      by_cases he : e' = e
      · subst he
        rw [if_pos rfl]
        exact EnvCfg.word_store_of_ne _ v (by rintro rfl; exact h rfl)
      · rw [if_neg he]
    | _ => cases e <;> rfl
  | flt f =>
    cases r' with
    | flt f' => exact FilterCfg.word_store_of_ne _ v (by rintro rfl; exact h rfl)
    | _ => rfl
  | _ => rfl

/-- Settles O20: the write is `storeReg`, read back by `readReg_storeReg_self` and `readReg_storeReg_of_ne`; each word is
the encoding or the code of what the engine uses, and both are one-to-one. -/
theorem busWriteStores : Obligations.BusWriteStores := by
  intro p r v s hro hc hs hwave hmode hfs
  have hv : r.Holds v := ⟨hwave, hmode, hfs⟩
  refine ⟨storeReg r v s, ?_, rfl, readReg_storeReg_self s hro hc hs hv, fun _ => readReg_storeReg_of_ne v s, ?_⟩
  · rw [exec_eq, effect, memWrite_offset, writeMapped_of_accepts hro hc hs hv.accepts]
  · generalize storeReg r v s = t
    refine ⟨rfl, ?_, ?_, fun e he => ?_, fun e he => ?_⟩
    · rw [readReg]
      cases t.cfg.useAntialias <;> rfl
    · have hnum : ∀ (g : Reg) (x : F32), readReg t g = x.toBits → x = F32.ofBits (readReg t g) :=
        fun g x h => by rw [h, F32.ofBits_toBits]
      simp only [List.forall_mem_append, List.forall_mem_cons, List.not_mem_nil, false_implies, implies_true, and_true]
      and_intros <;> exact hnum _ _ rfl
    · have hcode : e.1 = BitVec.ofNat 32 e.2.code := by revert e; decide
      rw [hcode]
      exact ⟨waveType_eq_iff_code, waveType_eq_iff_code, waveType_eq_iff_code⟩
    · have hcode : e.1 = BitVec.ofNat 32 e.2.code := by revert e; decide
      rw [hcode]
      exact filterMode_eq_iff_code

end Sys2Proof.Machine
end

section
/-! PROOF. What an operation and a step do to the configuration and to the PCM stream (20_memory.md R70, R75, R76, R83;
45_voice_mixer.md R331). -/

namespace Sys2Proof.Machine

/-! The configuration. -/

/-- A gate command touches only voices, the most recent key and the error bits (46_host_commands.md R352). -/
theorem gateCommand_frame (v : BitVec 5) (d : Bool) (s : State) :
    gateCommand v d s =
      { s with
        voices := (gateCommand v d s).voices
        mostRecentKey := (gateCommand v d s).mostRecentKey
        status := (gateCommand v d s).status } := by
  obtain ⟨-, h⟩ | ⟨_, ⟨-, h⟩ | ⟨-, -, h⟩ | ⟨-, -, h⟩⟩ := gateCommand_cases v d s <;> rw [h]
  · rfl
  · rw [risingEdge_eq]
    rfl
  · rfl

theorem gateCommand_cfg (v : BitVec 5) (d : Bool) (s : State) : (gateCommand v d s).cfg = s.cfg := by
  rw [gateCommand_frame]

theorem gateCommand_pcm (v : BitVec 5) (d : Bool) (s : State) : (gateCommand v d s).pcm = s.pcm := by
  rw [gateCommand_frame]

theorem renderCommand_cfg (p : Port) (n : BitVec 24) (s : State) : (renderCommand p n s).cfg = s.cfg := by
  obtain ⟨-, h⟩ | ⟨-, -, h⟩ | ⟨-, -, -, h⟩ | ⟨-, -, -, h⟩ := renderCommand_cases p n s <;> rw [h]
  all_goals exact markOwed_cfg p s

theorem commandWord_cfg (p : Port) (w : Word) (s : State) : (commandWord p w s).cfg = s.cfg := by
  obtain h | ⟨v, d, -, h⟩ | ⟨n, -, h⟩ | ⟨e, -, h⟩ := commandWord_cases p w s <;> rw [h]
  · exact gateCommand_cfg v d s
  · exact renderCommand_cfg p n s
  · exact raiseError_cfg _ s

theorem memRead_cfg_pcm (off : BitVec 12) (s : State) :
    (memRead off s).2.cfg = s.cfg ∧ (memRead off s).2.pcm = s.pcm := by
  obtain h | ⟨r, -, h⟩ := memRead_cases off s <;> rw [h]
  · exact ⟨rfl, rfl⟩
  · exact ⟨rfl, rfl⟩

/-- An operation changes the configuration only as a bus write that a writable register accepts (20_memory.md R72, R75). -/
theorem effect_cfg (i : Instr) (s : State) :
    (effect i s).cfg = s.cfg ∨
      ∃ p off v r, i = .busWrite p off v ∧ regAt off = some r ∧ r.readOnly = false ∧ r.accepts v = true ∧
        (effect i s).cfg = s.cfg.store r v := by
  cases i with
  | nop p => exact Or.inl rfl
  | gate p v d => exact Or.inl (gateCommand_cfg v d s)
  | render p n => exact Or.inl (renderCommand_cfg p n s)
  | busRead p off => exact Or.inl ((respond_cfg _ _ _).trans (memRead_cfg_pcm off s).1)
  | busWrite p off v =>
    rw [effect]
    obtain ⟨e, h⟩ | ⟨-, h⟩ | ⟨-, h⟩ | ⟨r, hr, hro, -, -, ha, h⟩ := memWrite_cases p off v s <;> rw [h]
    · exact Or.inl rfl
    · exact Or.inl (commandWord_cfg p v s)
    · exact Or.inl rfl
    · exact Or.inr ⟨p, off, v, r, rfl, hr, hro, ha, rfl⟩

theorem completeUnlessRendering_cfg (p : Port) (s : State) : (completeUnlessRendering p s).cfg = s.cfg := by
  obtain h | h := completeUnlessRendering_cases p s <;> rw [h]
  exact completeTxn_cfg p s

theorem sampleStep_cfg (s : State) : (sampleStep s).cfg = s.cfg := by
  cases hs : s.seq with
  | idle => rw [sampleStep_of_idle hs]
  | rendering p n active =>
    obtain ⟨q, hframe, -⟩ := renderFrame_frame active s
    have hcfg : (renderFrame active s).1.cfg = s.cfg := (congrArg State.cfg hframe).trans rfl
    obtain ⟨-, h⟩ | ⟨-, h⟩ := sampleStep_cases hs <;> rw [h]
    · rw [completeTxn_cfg]
      exact hcfg
    · exact hcfg

/-- Settles O37: no step changes `hw`, and of its cases only reset and an operation as in `effect_cfg` touch `cfg`. -/
theorem configurationChangesOnlyByWrites : Obligations.ConfigurationChangesOnlyByWrites := by
  intro s t hstep
  refine ⟨step_hw hstep, ?_⟩
  obtain ⟨-, rfl⟩ | ⟨p, x, -, rfl⟩ | ⟨p, x, hturn, rfl⟩ | ⟨-, rfl⟩ | ⟨hturn, -⟩ := step_cases hstep
  · exact Or.inl rfl
  · exact Or.inl (issueTxn_cfg p x _)
  · rw [completeUnlessRendering_cfg]
    obtain h | ⟨q, off, v, r, hdecode, hr, hro, ha, h⟩ :=
      effect_cfg (decodeTxn p x) { s with schedule := s.schedule.tail }
    · exact Or.inl h
    · obtain ⟨-, rfl, -⟩ := decodeTxn_busWrite hdecode
      exact Or.inr (Or.inr ⟨p, off, v, r, hturn, hr, hro, ha, h⟩)
  · exact Or.inl (sampleStep_cfg _)
  · exact Or.inr (Or.inl hturn)

/-! The PCM stream. -/

/-- The stream of `t` is that of `s` with frames of equal channels behind (45_voice_mixer.md R331). -/
def State.PcmGrows (s t : State) : Prop := ∃ f : List Frame, t.pcm = s.pcm ++ f ∧ ∀ x ∈ f, x.l = x.r

theorem State.PcmGrows.of_eq {s t : State} (h : t.pcm = s.pcm) : s.PcmGrows t := ⟨[], by simp [h], by simp⟩

theorem renderCommand_pcm (p : Port) (n : BitVec 24) (s : State) :
    (renderCommand p n s).pcm = s.pcm ∨
      (renderCommand p n s).pcm = s.pcm ++ List.replicate n.toNat ⟨0#16, 0#16⟩ := by
  obtain ⟨-, h⟩ | ⟨-, -, h⟩ | ⟨-, -, -, h⟩ | ⟨-, -, -, h⟩ := renderCommand_cases p n s <;> rw [h]
  · exact Or.inl rfl
  · exact Or.inr (congrArg (· ++ _) (markOwed_pcm p s))
  · exact Or.inl (markOwed_pcm p s)
  · exact Or.inl (markOwed_pcm p s)

theorem renderCommand_pcmGrows (p : Port) (n : BitVec 24) (s : State) : s.PcmGrows (renderCommand p n s) := by
  obtain h | h := renderCommand_pcm p n s
  · exact .of_eq h
  · exact ⟨_, h, fun x hx => by rw [List.eq_of_mem_replicate hx]⟩

theorem memWrite_pcmGrows (p : Port) (off : BitVec 12) (v : Word) (s : State) : s.PcmGrows (memWrite p off v s) := by
  obtain ⟨e, h⟩ | ⟨-, h⟩ | ⟨-, h⟩ | ⟨r, -, -, -, -, -, h⟩ := memWrite_cases p off v s <;> rw [h]
  · exact .of_eq rfl
  · obtain h | ⟨v', d, -, h⟩ | ⟨n, -, h⟩ | ⟨e, -, h⟩ := commandWord_cases p v s <;> rw [h]
    · exact .of_eq rfl
    · exact .of_eq (gateCommand_pcm v' d s)
    · exact renderCommand_pcmGrows p n s
    · exact .of_eq rfl
  · exact .of_eq rfl
  · exact .of_eq rfl

theorem effect_pcmGrows (i : Instr) (s : State) : s.PcmGrows (effect i s) := by
  cases i with
  | nop p => exact .of_eq rfl
  | gate p v d => exact .of_eq (gateCommand_pcm v d s)
  | render p n => exact renderCommand_pcmGrows p n s
  | busWrite p off v => exact memWrite_pcmGrows p off v s
  | busRead p off => exact .of_eq ((respond_pcm _ _ _).trans (memRead_cfg_pcm off s).2)

theorem completeUnlessRendering_pcm (p : Port) (s : State) : (completeUnlessRendering p s).pcm = s.pcm := by
  obtain h | h := completeUnlessRendering_cases p s <;> rw [h]
  exact completeTxn_pcm p s

/-- A sample step of a running block emits one frame, with equal channels (45_voice_mixer.md R331). -/
theorem sampleStep_pcm {s : State} {p : Port} {n : Nat} {active : List VoiceIx} (hs : s.seq = .rendering p n active) :
    ∃ q, (sampleStep s).pcm = s.pcm ++ [⟨q, q⟩] := by
  obtain ⟨q, hframe, -⟩ := renderFrame_frame active s
  have hpcm : (renderFrame active s).1.pcm = s.pcm ++ [⟨q, q⟩] := (congrArg State.pcm hframe).trans rfl
  refine ⟨q, ?_⟩
  obtain ⟨-, h⟩ | ⟨-, h⟩ := sampleStep_cases hs <;> rw [h]
  · rw [completeTxn_pcm]
    exact hpcm
  · exact hpcm

theorem sampleStep_pcmGrows (s : State) : s.PcmGrows (sampleStep s) := by
  cases hs : s.seq with
  | idle => exact .of_eq (by rw [sampleStep_of_idle hs])
  | rendering p n active =>
    obtain ⟨q, hq⟩ := sampleStep_pcm hs
    exact ⟨_, hq, by simp⟩

/-- Settles O36: the case split over what a step does; only a `RENDER` of silence and a sample step emit frames. -/
theorem pcmStreamOnlyGrows : Obligations.PcmStreamOnlyGrows := by
  intro s t hstep
  have hgrows : ({ s with schedule := s.schedule.tail } : State).PcmGrows t := by
    obtain ⟨-, rfl⟩ | ⟨p, x, -, rfl⟩ | ⟨p, x, -, rfl⟩ | ⟨-, rfl⟩ | ⟨-, rfl⟩ := step_cases hstep
    · exact .of_eq rfl
    · exact .of_eq (issueTxn_pcm p x _)
    · obtain ⟨f, hf, heq⟩ := effect_pcmGrows (decodeTxn p x) { s with schedule := s.schedule.tail }
      exact ⟨f, (completeUnlessRendering_pcm p _).trans hf, heq⟩
    · exact sampleStep_pcmGrows _
    · exact .of_eq rfl
  exact hgrows

end Sys2Proof.Machine
end

section
/-! PROOF. A block runs to its end: its start, its sample steps, and the bytes it leaves in the PCM stream
(20_memory.md R76; 45_voice_mixer.md R320 to R322; 46_host_commands.md R353). -/

namespace Sys2Proof.Machine

/-! The bytes of frames. -/

/-- Frames behind the stream are four bytes each behind its bytes (20_memory.md R76). -/
theorem pcmBytes_of_pcm_append {s t : State} {f : List Frame} (h : t.pcm = s.pcm ++ f) :
    ∃ bytes, t.pcmBytes = s.pcmBytes ++ bytes ∧ bytes.length = 4 * f.length := by
  refine ⟨f.flatMap Frame.bytes, ?_, ?_⟩
  · rw [State.pcmBytes, h, List.flatMap_append, State.pcmBytes]
  · simp [List.length_flatMap, Frame.bytes, Nat.mul_comm]

/-! Steps and runs. -/

theorem run_succ {s t : State} (h : step s = .next t) (k : Nat) :
    Sys2Proof.core.run (k + 1) s = Sys2Proof.core.run k t := by
  have hcore : Sys2Proof.core.step s = .next t := h
  simp only [Host.Core.run, hcore]

/-- While a block runs and the environment has made no choice, the next step is a sample step (log 9). -/
theorem step_of_rendering {s : State} {p : Port} {n : Nat} {active : List VoiceIx} (hs : s.seq = .rendering p n active)
    (hsched : s.schedule = []) : step s = .next (sampleStep s) := by
  have hturn : nextTurn s = .sample := by
    unfold nextTurn defaultTurn
    rw [hsched, hs]
  have htail : ({ s with schedule := s.schedule.tail } : State) = s := by
    rw [hsched, List.tail_nil, ← hsched]
  unfold step
  rw [hturn, htail]

/-- With the sequencer idle a port's head is served when chosen, unless the other port is owed a transaction
(60_exceptions.md R412). -/
theorem step_of_serve {s : State} {p : Port} {x : BusTxn} {q : List BusTxn} {rest : List Event} (hs : s.seq = .idle)
    (hsched : s.schedule = .serve p :: rest) (hq : (s.port p).queue = x :: q) (howed : (s.port p.other).owed = 0) :
    step s = .next (completeUnlessRendering p (effect (decodeTxn p x) { s with schedule := rest })) := by
  have hmay : mayServe s p x = true := by
    unfold mayServe
    rw [hs, howed]
    rfl
  have hservable : servable s p = some x := by
    unfold servable
    rw [hq]
    exact if_pos hmay
  have hturn : nextTurn s = .serve p x := by
    unfold nextTurn
    rw [hsched]
    dsimp only
    rw [hservable]
  unfold step
  rw [hturn, hsched]
  dsimp only
  rw [exec_eq]
  rfl

/-! The sample steps of a block. -/

theorem sampleStep_schedule (s : State) : (sampleStep s).schedule = s.schedule := by
  cases hs : s.seq with
  | idle => rw [sampleStep_of_idle hs]
  | rendering p n active =>
    obtain ⟨q, hframe, -⟩ := renderFrame_frame active s
    have hsched : (renderFrame active s).1.schedule = s.schedule := (congrArg State.schedule hframe).trans rfl
    obtain ⟨-, h⟩ | ⟨-, h⟩ := sampleStep_cases hs <;> rw [h]
    · rw [completeTxn_schedule]
      exact hsched
    · exact hsched

/-- From `s` to `t` the last `n` frames of a block of port `p` are produced and the block ends: the sequencer is idle and
the `RENDER` at the head of the port is complete (10_state.md R50; 46_host_commands.md R350). -/
structure State.BlockEnds (p : Port) (n : Nat) (s t : State) : Prop where
  frames   : ∃ f, t.pcm = s.pcm ++ f ∧ f.length = n
  idle     : t.seq = .idle
  queue    : (t.port p).queue = (s.port p).queue.tail
  schedule : t.schedule = s.schedule

theorem sampleStep_blockEnds {s : State} {p : Port} {active : List VoiceIx} (hs : s.seq = .rendering p 1 active) :
    s.BlockEnds p 1 (sampleStep s) where
  frames := by
    obtain ⟨q, hq⟩ := sampleStep_pcm hs
    exact ⟨_, hq, rfl⟩
  idle := by
    obtain ⟨-, h⟩ | ⟨hn, -⟩ := sampleStep_cases hs
    · rw [h, completeTxn_seq]
    · omega
  queue := by rw [sampleStep_queue hs, if_pos ⟨rfl, le_refl 1⟩]
  schedule := sampleStep_schedule s

theorem sampleStep_seq_of_two_le {s : State} {p : Port} {n : Nat} {active : List VoiceIx}
    (hs : s.seq = .rendering p n active) (hn : 2 ≤ n) : ∃ l, (sampleStep s).seq = .rendering p (n - 1) l := by
  obtain ⟨h1, -⟩ | ⟨-, h⟩ := sampleStep_cases hs
  · omega
  · exact ⟨_, congrArg State.seq h⟩

/-- A sample step that is not the last, then the block from there on, is the block (45_voice_mixer.md R322). -/
theorem State.BlockEnds.of_sampleStep {s t : State} {p : Port} {n : Nat} {active : List VoiceIx}
    (hs : s.seq = .rendering p n active) (hn : 2 ≤ n) (h : (sampleStep s).BlockEnds p (n - 1) t) : s.BlockEnds p n t where
  frames := by
    obtain ⟨q, hq⟩ := sampleStep_pcm hs
    obtain ⟨f, hf, hlen⟩ := h.frames
    exact ⟨⟨q, q⟩ :: f, by rw [hf, hq, List.append_assoc]; rfl, by rw [List.length_cons, hlen]; omega⟩
  idle := h.idle
  queue := by rw [h.queue, sampleStep_queue hs, if_neg (by omega)]
  schedule := h.schedule.trans (sampleStep_schedule s)

/-- With no choice of the environment, a block with `n + 1` frames to go ends in as many steps (45_voice_mixer.md R322). -/
theorem run_rendering {p : Port} (n : Nat) : ∀ {s : State} {active : List VoiceIx},
    s.seq = .rendering p (n + 1) active → s.schedule = [] →
    ∃ t, Sys2Proof.core.run (n + 1) s = .next t ∧ s.BlockEnds p (n + 1) t := by
  induction n with
  | zero =>
    intro s active hs hsched
    exact ⟨sampleStep s, run_succ (step_of_rendering hs hsched) 0, sampleStep_blockEnds hs⟩
  | succ n ih =>
    intro s active hs hsched
    obtain ⟨l, hl⟩ := sampleStep_seq_of_two_le hs (by omega)
    obtain ⟨t, hrun, hends⟩ := ih hl ((sampleStep_schedule s).trans hsched)
    exact ⟨t, (run_succ (step_of_rendering hs hsched) _).trans hrun, .of_sampleStep hs (by omega) hends⟩

/-! The start of a block. -/

theorem decodeTxn_encode_render (p q : Port) (n : BitVec 24) : decodeTxn p (encode (.render q n)) = .render p n :=
  decodeTxn_cmd_ok (decodeCmd_encodeCmd (.render n))

theorem renderCommand_schedule (p : Port) (n : BitVec 24) (s : State) :
    (renderCommand p n s).schedule = s.schedule := by
  obtain ⟨-, h⟩ | ⟨-, -, h⟩ | ⟨-, -, -, h⟩ | ⟨-, -, -, h⟩ := renderCommand_cases p n s <;> rw [h]
  all_goals exact markOwed_schedule p s

/-- A `RENDER` that leaves the sequencer idle completes at once (46_host_commands.md R350). -/
theorem completeUnlessRendering_of_idle {p : Port} {s : State} (h : s.seq = .idle) :
    completeUnlessRendering p s = completeTxn p s :=
  completeUnlessRendering_of_not_rendering fun n active => by rw [h]; nofun

/-- A `RENDER` that emits its frames in its own transition is a block at its end when it completes (45_voice_mixer.md
R321). -/
theorem blockEnds_of_renderCommand_idle {p : Port} {n : BitVec 24} {s : State} {f : List Frame}
    (hidle : (renderCommand p n s).seq = .idle) (hpcm : (renderCommand p n s).pcm = s.pcm ++ f) :
    s.BlockEnds p f.length (completeUnlessRendering p (renderCommand p n s)) := by
  rw [completeUnlessRendering_of_idle hidle]
  exact
    { frames := ⟨f, by rw [completeTxn_pcm, hpcm], rfl⟩
      idle := by rw [completeTxn_seq, hidle]
      queue := by rw [completeTxn_queue, if_pos rfl, renderCommand_queue]
      schedule := by rw [completeTxn_schedule, renderCommand_schedule] }

/-- A block that ends from where a `RENDER` started it ends from where the `RENDER` found it (45_voice_mixer.md R320). -/
theorem State.BlockEnds.of_renderCommand {s t : State} {p : Port} {n : BitVec 24} {m : Nat}
    (hpcm : (renderCommand p n s).pcm = s.pcm) (h : (renderCommand p n s).BlockEnds p m t) : s.BlockEnds p m t where
  frames := by
    rw [← hpcm]
    exact h.frames
  idle := h.idle
  queue := by rw [h.queue, renderCommand_queue]
  schedule := by rw [h.schedule, renderCommand_schedule]

/-- A `RENDER` served on an idle block runs to the block's end: in one step where no voice is active, and in one step more
than it has frames otherwise (45_voice_mixer.md R320 to R322; log 10). -/
theorem run_render {s : State} {p : Port} {n : BitVec 24} {q : List BusTxn} (hs : s.seq = .idle)
    (hsched : s.schedule = [.serve p]) (hq : (s.port p).queue = encode (.render p n) :: q)
    (howed : (s.port p.other).owed = 0) :
    ∃ t, Sys2Proof.core.run (if activeList s = [] then 1 else n.toNat + 1) s = .next t ∧
      State.BlockEnds p n.toNat { s with schedule := [] } t := by
  have hstep := step_of_serve hs hsched hq howed
  rw [decodeTxn_encode_render, effect] at hstep
  generalize hs0 : ({ s with schedule := [] } : State) = s0 at hstep ⊢
  have hlist : activeList s = activeList s0 := by rw [← hs0]; rfl
  have hidle0 : s0.seq = .idle := by rw [← hs0]; exact hs
  have hsched0 : s0.schedule = [] := by rw [← hs0]
  rw [hlist]
  obtain ⟨hne, -⟩ | ⟨-, hnil, h⟩ | ⟨-, hact, hn, h⟩ | ⟨-, hact, hn, h⟩ := renderCommand_cases p n s0
  · exact absurd hidle0 hne
  · rw [if_pos hnil]
    have hpcm : (renderCommand p n s0).pcm = s0.pcm ++ List.replicate n.toNat ⟨0#16, 0#16⟩ := by
      rw [h]
      exact congrArg (· ++ _) (markOwed_pcm p s0)
    have hends := blockEnds_of_renderCommand_idle (by rw [h]; exact (markOwed_seq p s0).trans hidle0) hpcm
    rw [List.length_replicate] at hends
    exact ⟨_, run_succ hstep 0, hends⟩
  · rw [if_neg hact, hn]
    have hpcm : (renderCommand p n s0).pcm = s0.pcm ++ [] := by rw [h, markOwed_pcm, List.append_nil]
    exact ⟨_, run_succ hstep 0, blockEnds_of_renderCommand_idle (by rw [h, markOwed_seq, hidle0]) hpcm⟩
  · rw [if_neg hact]
    have hseq : (renderCommand p n s0).seq = .rendering p n.toNat (activeList s0) := by rw [h]
    have hpcm : (renderCommand p n s0).pcm = s0.pcm := by rw [h]; exact markOwed_pcm p s0
    rw [completeUnlessRendering_of_rendering hseq] at hstep
    obtain ⟨m, hm⟩ := Nat.exists_eq_succ_of_ne_zero hn
    rw [hm] at hseq ⊢
    obtain ⟨t, hrun, hends⟩ := run_rendering m hseq ((renderCommand_schedule p n s0).trans hsched0)
    exact ⟨t, (run_succ hstep _).trans hrun, .of_renderCommand hpcm hends⟩

/-- Settles O35: by `run_render`, each frame four bytes. -/
theorem blockProducesItsFrames : Obligations.BlockProducesItsFrames := by
  intro s p n q hs hsched hq howed
  obtain ⟨t, hrun, hends⟩ := run_render hs hsched hq howed
  obtain ⟨f, hf, hlen⟩ := hends.frames
  obtain ⟨bytes, hbytes, hcount⟩ := pcmBytes_of_pcm_append hf
  refine ⟨t, bytes, hrun, hbytes, by rw [hcount, hlen], hends.idle, ?_, hends.schedule⟩
  rw [hends.queue, setSchedule_port, hq]
  rfl

end Sys2Proof.Machine
end

section
/-! PROOF. The command decoder and its words, the transactions and their bytes, and the operation a step runs
(30_encoding.md R100 to R105, R111, R112; 46_host_commands.md R350, R357; 60_exceptions.md R412). -/

namespace Sys2Proof.Machine

/-! The command decoder. -/

/-- The decoder reads a command from its own word and from no other (30_encoding.md R111). -/
theorem decodeCmd_eq_ok_iff {w : Word} {c : Cmd} : decodeCmd w = .ok c ↔ w = encodeCmd c := by
  refine ⟨fun h => ?_, fun h => h ▸ decodeCmd_encodeCmd c⟩
  obtain ⟨hw, hd⟩ | ⟨hw, hd⟩ | ⟨hw, hd⟩ | ⟨-, e, hd⟩ := decodeCmd_cases w <;> rw [hd] at h <;> cases h
  · exact hw
  · exact (encodeCmd_gate_of_fields w hw).symm
  · exact (encodeCmd_render_of_fields w hw).symm

theorem eq_encodeCmd_gate_iff {w : Word} {v : BitVec 5} {d : Bool} :
    w = encodeCmd (.gate v d) ↔ w &&& 0xFFFFE0FE#32 = 0x01000000#32 ∧ v = w.extractLsb' 8 5 ∧ d = w.getLsbD 0 := by
  constructor
  · rintro rfl
    obtain ⟨hmask, hv, hd⟩ := encodeCmd_gate_fields v d
    exact ⟨hmask, hv.symm, hd.symm⟩
  · rintro ⟨hmask, rfl, rfl⟩
    exact (encodeCmd_gate_of_fields w hmask).symm

theorem eq_encodeCmd_render_iff {w : Word} {n : BitVec 24} :
    w = encodeCmd (.render n) ↔ w &&& 0xFF000000#32 = 0x02000000#32 ∧ n = w.extractLsb' 0 24 := by
  constructor
  · rintro rfl
    obtain ⟨hmask, hn⟩ := encodeCmd_render_fields n
    exact ⟨hmask, hn.symm⟩
  · rintro ⟨hmask, rfl⟩
    exact (encodeCmd_render_of_fields w hmask).symm

theorem isCommandWord_eq_false_iff {w : Word} :
    isCommandWord w = false ↔
      w ≠ 0x00000000#32 ∧ w &&& 0xFFFFE0FE#32 ≠ 0x01000000#32 ∧ w &&& 0xFF000000#32 ≠ 0x02000000#32 := by
  simp only [isCommandWord, Bool.or_eq_false_iff, beq_eq_false_iff_ne, and_assoc]

/-- The decoder rejects exactly the words with none of the three patterns (30_encoding.md R105, R111). -/
theorem decodeCmd_error_iff {w : Word} : (∃ e, decodeCmd w = .error e) ↔ isCommandWord w = false := by
  refine ⟨?_, decodeCmd_error⟩
  rintro ⟨e, he⟩
  obtain ⟨-, hd⟩ | ⟨-, hd⟩ | ⟨-, hd⟩ | ⟨hw, -⟩ := decodeCmd_cases w
  · nomatch hd.symm.trans he
  · nomatch hd.symm.trans he
  · nomatch hd.symm.trans he
  · exact hw

/-- Settles O3: each command has one word, and the rest is no command word. -/
theorem commandDecoder : Obligations.CommandDecoder :=
  ⟨fun _ => decodeCmd_eq_ok_iff, fun _ _ _ => decodeCmd_eq_ok_iff.trans eq_encodeCmd_gate_iff,
    fun _ _ => decodeCmd_eq_ok_iff.trans eq_encodeCmd_render_iff,
    fun _ => decodeCmd_error_iff.trans isCommandWord_eq_false_iff⟩

/-! Transactions. -/

theorem decodeTxn_of_addr_ne {p : Port} {off : BitVec 12} {v : Word} (h : off ≠ 0#12) :
    decodeTxn p ⟨off, some v⟩ = .busWrite p off v := by
  unfold decodeTxn
  exact if_neg h

theorem wellFormed_toInstr (c : Cmd) (p : Port) : (c.toInstr p).wellFormed = true := by cases c <;> rfl

theorem port_toInstr (c : Cmd) (p : Port) : (c.toInstr p).port = p := by cases c <;> rfl

theorem encode_toInstr (c : Cmd) (p : Port) : encode (c.toInstr p) = ⟨0#12, some (encodeCmd c)⟩ := by cases c <;> rfl

/-- The transaction of a command is read as that command (30_encoding.md R100, R111). -/
theorem decodeTxn_encode_toInstr (c : Cmd) (p : Port) : decodeTxn p (encode (c.toInstr p)) = c.toInstr p := by
  rw [encode_toInstr]
  exact decodeTxn_cmd_ok (decodeCmd_encodeCmd c)

theorem wellFormed_busWrite_iff {p : Port} {off : BitVec 12} {v : Word} :
    (Instr.busWrite p off v).wellFormed = true ↔ (off = 0#12 → isCommandWord v = false) := by
  simp [Instr.wellFormed, imp_iff_not_or]

/-- Settles O2: a read is itself, a write to `CMD` is its command or no command word, and any other write is itself. -/
theorem everyTransactionIsOneOperation : Obligations.EveryTransactionIsOneOperation := by
  rintro p ⟨off, data⟩
  cases data with
  | none => exact ⟨rfl, rfl, rfl⟩
  | some w =>
    by_cases hoff : off = 0#12
    · subst hoff
      cases hw : decodeCmd w with
      | ok c =>
        rw [decodeTxn_cmd_ok hw, encode_toInstr, ← decodeCmd_eq_ok_iff.1 hw]
        exact ⟨wellFormed_toInstr c p, port_toInstr c p, rfl⟩
      | error e =>
        rw [decodeTxn_cmd_error hw]
        exact ⟨wellFormed_busWrite_iff.2 fun _ => decodeCmd_error_iff.1 ⟨e, hw⟩, rfl, rfl⟩
    · rw [decodeTxn_of_addr_ne hoff]
      exact ⟨wellFormed_busWrite_iff.2 fun h => absurd h hoff, rfl, rfl⟩

/-- A well-formed operation is read back from the transaction that issues it (30_encoding.md R100, R111, R112). -/
theorem decodeTxn_encode {i : Instr} (hi : i.wellFormed = true) : decodeTxn i.port (encode i) = i := by
  cases i with
  | nop p => exact decodeTxn_encode_toInstr .nop p
  | gate p v d => exact decodeTxn_encode_toInstr (.gate v d) p
  | render p n => exact decodeTxn_encode_toInstr (.render n) p
  | busWrite p off v =>
    by_cases hoff : off = 0#12
    · subst hoff
      obtain ⟨e, he⟩ := decodeCmd_error (wellFormed_busWrite_iff.1 hi rfl)
      exact decodeTxn_cmd_error he
    · exact decodeTxn_of_addr_ne hoff
  | busRead p off => rfl

/-! Bytes. -/

/-- A word is read back from its bytes (20_memory.md R74). -/
theorem bytesWord_wordBytes (w : Word) :
    bytesWord (w.extractLsb' 0 8) (w.extractLsb' 8 8) (w.extractLsb' 16 8) (w.extractLsb' 24 8) = w := by
  unfold bytesWord
  rw [BitVec.extractLsb'_append_extractLsb'_eq_extractLsb' (show 24 = 16 + 8 from rfl),
    BitVec.extractLsb'_append_extractLsb'_eq_extractLsb' (show 16 = 8 + 8 from rfl)]
  exact BitVec.extractLsb'_append_extractLsb'

/-- An address is read back from its two bytes (log 7). -/
theorem bytesTxn_addr (a : BitVec 12) (data : Option Word) :
    bytesTxn ((a.setWidth 16).extractLsb' 0 8) ((a.setWidth 16).extractLsb' 8 8) data = .ok ⟨a, data⟩ := by
  have hhigh : (a.setWidth 16).extractLsb' 12 4 = 0#4 := by
    rw [BitVec.setWidth_eq_append (by omega)]
    exact BitVec.extractLsb'_append_eq_left
  have hlow : (a.setWidth 16).extractLsb' 0 12 = a := by
    rw [BitVec.setWidth_eq_append (by omega)]
    exact BitVec.extractLsb'_append_eq_right
  unfold bytesTxn
  dsimp only
  rw [BitVec.extractLsb'_append_extractLsb', if_pos hhigh, hlow]

/-- Every transaction is read back from its bytes (log 7). -/
theorem decodeBytes_encodeBytes (t : BusTxn) : decodeBytes (encodeBytes t) = .ok t := by
  obtain ⟨a, data⟩ := t
  cases data with
  | none => exact bytesTxn_addr a none
  | some w =>
    have hdata := bytesTxn_addr a (some w)
    nth_rw 1 [← bytesWord_wordBytes w] at hdata
    exact hdata

/-- Settles O1: the transaction gives the operation back, and the bytes give the transaction back. -/
theorem decodeEncodeRoundTrip : Obligations.DecodeEncodeRoundTrip :=
  fun i hi => ⟨decodeTxn_encode hi, decodeBytes_encodeBytes (encode i)⟩

/-! Illegal command words. -/

/-- A word is its `OP` and the 24 bits below it (30_encoding.md R101). -/
theorem word_eq_iff_opcode_low {x y : Word} :
    x = y ↔ x.extractLsb' 24 8 = y.extractLsb' 24 8 ∧ x.extractLsb' 0 24 = y.extractLsb' 0 24 := by
  have hsplit (z : Word) : z.extractLsb' 24 8 ++ z.extractLsb' 0 24 = z :=
    BitVec.extractLsb'_append_extractLsb' (w := 8) (len := 24)
  refine ⟨fun h => by rw [h]; exact ⟨rfl, rfl⟩, ?_⟩
  rintro ⟨hop, hlow⟩
  rw [← hsplit x, ← hsplit y, hop, hlow]

/-- A word is the five fields of the `GATE` pattern (30_encoding.md R103). -/
theorem word_eq_iff_gateFields {x y : Word} :
    x = y ↔ x.extractLsb' 24 8 = y.extractLsb' 24 8 ∧ x.extractLsb' 13 11 = y.extractLsb' 13 11 ∧
      x.extractLsb' 8 5 = y.extractLsb' 8 5 ∧ x.extractLsb' 1 7 = y.extractLsb' 1 7 ∧
      x.extractLsb' 0 1 = y.extractLsb' 0 1 := by
  have hlow (z : Word) :
      z.extractLsb' 13 11 ++ z.extractLsb' 8 5 ++ z.extractLsb' 1 7 ++ z.extractLsb' 0 1 = z.extractLsb' 0 24 := by
    rw [BitVec.extractLsb'_append_extractLsb'_eq_extractLsb' (show 13 = 8 + 5 from rfl),
      BitVec.extractLsb'_append_extractLsb'_eq_extractLsb' (show 8 = 1 + 7 from rfl)]
    exact BitVec.extractLsb'_append_extractLsb'_eq_extractLsb' rfl
  refine ⟨fun h => by rw [h]; exact ⟨rfl, rfl, rfl, rfl, rfl⟩, ?_⟩
  rintro ⟨hop, hhigh, hvoice, hmid, hdown⟩
  refine word_eq_iff_opcode_low.2 ⟨hop, ?_⟩
  rw [← hlow x, ← hlow y, hhigh, hvoice, hmid, hdown]

theorem opcode_eq_iff {w : Word} {n : Nat} (hn : n < 2 ^ 8) :
    w.extractLsb' 24 8 = BitVec.ofNat 8 n ↔ w.toNat / 2 ^ 24 = n := by
  rw [← BitVec.toNat_inj, BitVec.extractLsb'_toNat, BitVec.toNat_ofNat, Nat.shiftRight_eq_div_pow]
  omega

theorem word_eq_zero_iff {w : Word} : w = 0#32 ↔ w.toNat / 2 ^ 24 = 0 ∧ w.extractLsb' 0 24 = 0#24 := by
  rw [← opcode_eq_iff (by decide), word_eq_iff_opcode_low]
  rfl

/-- The `GATE` pattern, field by field (30_encoding.md R103). -/
theorem gatePattern_iff {w : Word} :
    w &&& 0xFFFFE0FE#32 = 0x01000000#32 ↔
      w.toNat / 2 ^ 24 = 1 ∧ w.extractLsb' 13 11 = 0#11 ∧ w.extractLsb' 1 7 = 0#7 := by
  rw [← opcode_eq_iff (by decide), word_eq_iff_gateFields]
  have hop (x : BitVec 8) : x &&& 255#8 = x := BitVec.and_allOnes
  have hhigh (x : BitVec 11) : x &&& 2047#11 = x := BitVec.and_allOnes
  have hmid (x : BitVec 7) : x &&& 127#7 = x := BitVec.and_allOnes
  simp [BitVec.extractLsb'_and, hop, hhigh, hmid]

/-- The `RENDER` pattern fixes `OP` alone (30_encoding.md R104). -/
theorem renderPattern_iff {w : Word} : w &&& 0xFF000000#32 = 0x02000000#32 ↔ w.toNat / 2 ^ 24 = 2 := by
  rw [← opcode_eq_iff (by decide), word_eq_iff_opcode_low]
  have hop (x : BitVec 8) : x &&& 255#8 = x := BitVec.and_allOnes
  simp [BitVec.extractLsb'_and, hop]

/-- The words with none of the three patterns, by `OP` and the reserved bits (30_encoding.md R105). -/
theorem isCommandWord_eq_false_iff_fields {w : Word} :
    isCommandWord w = false ↔ 3 ≤ w.toNat / 2 ^ 24 ∨ (w.toNat / 2 ^ 24 = 0 ∧ w.extractLsb' 0 24 ≠ 0#24) ∨
      (w.toNat / 2 ^ 24 = 1 ∧ (w.extractLsb' 13 11 ≠ 0#11 ∨ w.extractLsb' 1 7 ≠ 0#7)) := by
  simp only [isCommandWord_eq_false_iff, ne_eq, word_eq_zero_iff, gatePattern_iff, renderPattern_iff]
  generalize w.toNat / 2 ^ 24 = op
  obtain rfl | rfl | rfl | hop : op = 0 ∨ op = 1 ∨ op = 2 ∨ 3 ≤ op := by omega
  · simp
  · simp [imp_iff_not_or]
  · simp
  · exact iff_of_true ⟨by omega, by omega, by omega⟩ (Or.inl hop)

/-- A word that the decoder rejects only sets `ERR_CMD` (46_host_commands.md R357). -/
theorem exec_illegalCommand {p : Port} {w : Word} {e : DecodeError} (h : decodeCmd w = .error e) (s : State) :
    exec (decodeTxn p ⟨0#12, some w⟩) s = .next (raiseError .cmd s) := by
  have hwrite : exec (.busWrite p 0#12 w) s = .next (commandWord p w s) := rfl
  rw [decodeTxn_cmd_error h, hwrite, commandWord, h]

/-- Settles O5: by the fields of the three patterns; a rejected word raises `ERR_CMD`. -/
theorem illegalCommandWords : Obligations.IllegalCommandWords := by
  intro p w s
  refine ⟨decodeCmd_error_iff.trans isCommandWord_eq_false_iff_fields, ?_⟩
  rintro ⟨e, he⟩
  exact exec_illegalCommand he s

/-! The operation a step runs. -/

theorem servable_of_mayServe {s : State} {p : Port} {x : BusTxn} {q : List BusTxn} (hq : (s.port p).queue = x :: q)
    (hmay : mayServe s p x = true) : servable s p = some x := by
  unfold servable
  rw [hq]
  exact if_pos hmay

/-- The environment's choice of a port whose head may take effect is that head's turn (60_exceptions.md R412). -/
theorem nextTurn_of_serve {s : State} {p : Port} {x : BusTxn} {q : List BusTxn} {rest : List Event}
    (hsched : s.schedule = .serve p :: rest) (hq : (s.port p).queue = x :: q) (hmay : mayServe s p x = true) :
    nextTurn s = .serve p x := by
  unfold nextTurn
  rw [hsched]
  dsimp only
  rw [servable_of_mayServe hq hmay]

/-- A step runs the operation of the transaction whose turn it is (46_host_commands.md R350). -/
theorem step_of_nextTurn_serve {s : State} {p : Port} {x : BusTxn} (h : nextTurn s = .serve p x) :
    step s = .next
      (completeUnlessRendering p (effect (decodeTxn p x) { s with schedule := s.schedule.tail })) := by
  unfold step
  rw [h]
  dsimp only
  rw [exec_eq]
  rfl

/-- Settles O6: the operation's state is its `effect`. -/
theorem stepRunsDecodedOperation : Obligations.StepRunsDecodedOperation := by
  refine ⟨fun s i hi hturn => ⟨effect i { s with schedule := s.schedule.tail }, exec_eq i _, ?_⟩, ?_⟩
  · have hstep := step_of_nextTurn_serve hturn
    rw [decodeTxn_encode hi] at hstep
    exact hstep
  · exact fun s p x q rest hsched hq hmay => nextTurn_of_serve hsched hq hmay

/-- A numbered table word that the decoder reads stands for the transaction of that operation on `CTRL` (log 7). -/
theorem tableTxn_of_decodeTableWord {nbits w : Nat} {i : Instr} (h : decodeTableWord nbits w = some i) :
    tableTxn nbits w = .ok (encode i) ∧ decodeTxn .ctrl (encode i) = i := by
  obtain ⟨t, ht, rfl⟩ : ∃ t, tableTxn nbits w = .ok t ∧ decodeTxn .ctrl t = i := by
    unfold decodeTableWord at h
    split at h
    · rename_i hbits
      refine ⟨⟨0#12, some (BitVec.ofNat 32 w)⟩, if_pos hbits, ?_⟩
      cases hw : decodeCmd (BitVec.ofNat 32 w) with
      | ok c =>
        rw [hw] at h
        rw [decodeTxn_cmd_ok hw]
        exact Option.some.inj h
      | error e =>
        rw [hw] at h
        cases h
    · cases ht : tableTxn nbits w with
      | ok t =>
        rw [ht] at h
        exact ⟨t, rfl, Option.some.inj h⟩
      | error e =>
        rw [ht] at h
        cases h
  obtain ⟨-, -, hencode⟩ := everyTransactionIsOneOperation .ctrl t
  rw [hencode]
  exact ⟨ht, rfl⟩

/-- A placed transaction has the next turn (log 14). -/
theorem nextTurn_placeTxn (t : BusTxn) (s : State) : nextTurn (placeTxn t s) = .serve .ctrl t :=
  nextTurn_of_serve (p := .ctrl) rfl rfl rfl

/-- Settles O7: the word's transaction is placed, has the next turn, and decodes to the operation. -/
theorem placedWordRunsNext : Obligations.PlacedWordRunsNext := by
  intro s nbits w i h
  obtain ⟨htxn, hdecode⟩ := tableTxn_of_decodeTableWord h
  have hplaced : s.withFetchWord nbits w = placeTxn (encode i) s := by rw [State.withFetchWord, htxn]
  have hstep := step_of_nextTurn_serve (nextTurn_placeTxn (encode i) s)
  rw [hdecode] at hstep
  rw [hplaced]
  exact ⟨_, exec_eq i _, hstep⟩

end Sys2Proof.Machine
end

section
/-! PROOF. The LFSR recurrence is linear over exclusive or; the period of each table follows from one return to the seed
(40_noise_tables.md R140 to R144). -/

namespace Sys2Proof.Machine

theorem lfsrStep_lt {size : Nat} (tap : Nat) {x : Nat} (hsize : 0 < size) (hx : x < 2 ^ size) :
    lfsrStep size tap x < 2 ^ size := by
  refine Nat.or_lt_two_pow ?_ ((Nat.shiftRight_le x 1).trans_lt hx)
  have hbit : ((x >>> tap) ^^^ x) &&& 1 < 2 ^ 1 := Nat.and_lt_two_pow _ (by decide)
  rw [Nat.shiftLeft_eq, ← Nat.two_pow_pred_mul_two hsize, Nat.mul_comm]
  exact Nat.mul_lt_mul_of_pos_left hbit (Nat.two_pow_pos _)

/-- The new top bit and the shifted register overlap nowhere, so the step is an exclusive or. -/
theorem lfsrStep_eq_xor {size : Nat} (tap : Nat) {x : Nat} (hsize : 0 < size) (hx : x < 2 ^ size) :
    lfsrStep size tap x = ((((x >>> tap) ^^^ x) &&& 1) <<< (size - 1)) ^^^ (x >>> 1) := by
  have hlow : x >>> 1 < 2 ^ (size - 1) := by
    rw [← Nat.two_pow_pred_mul_two hsize] at hx
    exact Nat.div_lt_of_lt_mul (Nat.mul_comm _ 2 ▸ hx)
  refine Nat.eq_of_testBit_eq fun j => ?_
  rw [lfsrStep, Nat.testBit_or, Nat.testBit_xor, Nat.testBit_shiftLeft]
  by_cases hj : size - 1 ≤ j
  · rw [Nat.testBit_lt_two_pow (hlow.trans_le (Nat.pow_le_pow_right (by decide) hj)), Bool.or_false, Bool.xor_false]
  · rw [decide_eq_false hj, Bool.false_and, Bool.false_or, Bool.false_xor]

theorem lfsrStep_xor {size : Nat} (tap : Nat) {x y : Nat} (hsize : 0 < size) (hx : x < 2 ^ size) (hy : y < 2 ^ size) :
    lfsrStep size tap (x ^^^ y) = lfsrStep size tap x ^^^ lfsrStep size tap y := by
  rw [lfsrStep_eq_xor tap hsize (Nat.xor_lt_two_pow hx hy), lfsrStep_eq_xor tap hsize hx, lfsrStep_eq_xor tap hsize hy]
  simp only [Nat.shiftRight_xor_distrib, Nat.and_xor_distrib_right, Nat.shiftLeft_xor_distrib]
  ac_rfl

theorem lfsrState_eq_iterate (size tap seed n : Nat) : lfsrState size tap seed n = (lfsrStep size tap)^[n] seed := by
  induction n with
  | zero => rfl
  | succ n ih => rw [lfsrState, ih, Function.iterate_succ_apply']

theorem lfsrState_add (size tap seed m n : Nat) :
    lfsrState size tap seed (m + n) = lfsrState size tap (lfsrState size tap seed n) m := by
  simp only [lfsrState_eq_iterate, Function.iterate_add_apply]

/-- A register that is back at the seed runs through the same states again. -/
theorem lfsrBit_periodic {size tap seed len : Nat} (invert : Bool) (h : lfsrState size tap seed len = seed) :
    Function.Periodic (lfsrBit size tap seed invert) len := by
  intro n
  rw [lfsrBit, lfsrState_add, h, lfsrBit]

/-! `2^k` steps `T` of the 17-bit register, by repeated squaring: a polynomial in `T` is the list of its exponents. -/

/-- One step `T` of the register of `POLY17` (40_noise_tables.md R143). -/
abbrev step17 : Nat → Nat := lfsrStep 17 5

/-- The polynomial in `T` with the exponents `es`, applied to the register `x`. -/
def lfsrPoly (es : List Nat) (x : Nat) : Nat := es.foldr (fun e acc => step17^[e] x ^^^ acc) 0

theorem step17_iterate_lt {x : Nat} (hx : x < 2 ^ 17) (n : Nat) : step17^[n] x < 2 ^ 17 := by
  induction n with
  | zero => exact hx
  | succ n ih =>
    rw [Function.iterate_succ_apply']
    exact lfsrStep_lt 5 (by decide) ih

theorem lfsrPoly_lt {x : Nat} (hx : x < 2 ^ 17) (es : List Nat) : lfsrPoly es x < 2 ^ 17 := by
  induction es with
  | nil => exact Nat.two_pow_pos 17
  | cons e es ih => exact Nat.xor_lt_two_pow (step17_iterate_lt hx e) ih

theorem step17_lfsrPoly {x : Nat} (hx : x < 2 ^ 17) (es : List Nat) :
    step17 (lfsrPoly es x) = lfsrPoly es (step17 x) := by
  induction es with
  | nil => exact (by decide : step17 0 = 0)
  | cons e es ih =>
    calc step17 (step17^[e] x ^^^ lfsrPoly es x)
        = step17 (step17^[e] x) ^^^ step17 (lfsrPoly es x) :=
          lfsrStep_xor 5 (by decide) (step17_iterate_lt hx e) (lfsrPoly_lt hx es)
      _ = step17^[e] (step17 x) ^^^ lfsrPoly es (step17 x) := by
          rw [ih, Function.Commute.iterate_self step17 e x]

/-- Polynomials in the step commute with it. -/
theorem step17_iterate_lfsrPoly {x : Nat} (hx : x < 2 ^ 17) (es : List Nat) (n : Nat) :
    step17^[n] (lfsrPoly es x) = lfsrPoly es (step17^[n] x) := by
  induction n with
  | zero => rfl
  | succ n ih =>
    rw [Function.iterate_succ_apply', ih, step17_lfsrPoly (step17_iterate_lt hx n), Function.iterate_succ_apply']

/-- `T^(2^k)` modulo `T^17 + T^5 + 1`, for `k` up to 17. -/
def squarings : List (List Nat) :=
  [[1], [2], [4], [8], [16], [3, 8, 15], [1, 13, 16], [2, 3, 8, 9, 14, 15], [4, 6, 11, 13], [5, 8, 9, 10, 12, 14],
    [1, 3, 6, 7, 8, 10, 11, 12], [2, 3, 5, 6, 7, 8, 10, 14, 16], [4, 6, 10, 11, 12, 14, 15],
    [1, 3, 5, 6, 7, 10, 11, 13, 16], [2, 5, 6, 9, 12, 15], [4, 7, 10, 13], [3, 9], [1]]

/-- The register two steps before the seed of `POLY17`. -/
def beforeSeed17 : Nat := 0x1FFFC

theorem squarings_square :
    ∀ k < 17, lfsrPoly (squarings.getD k []) (lfsrPoly (squarings.getD k []) beforeSeed17) =
      lfsrPoly (squarings.getD (k + 1) []) beforeSeed17 := by decide +kernel

/-- `2^k` steps are the `k`-th squaring: `2^(k+1)` steps apply its polynomial twice, since it commutes with the step. -/
theorem step17_iterate_two_pow {k : Nat} (hk : k ≤ 17) :
    step17^[2 ^ k] beforeSeed17 = lfsrPoly (squarings.getD k []) beforeSeed17 := by
  induction k with
  | zero => decide +kernel
  | succ k ih =>
    specialize ih (by omega)
    rw [Nat.pow_succ, Nat.mul_two, Function.iterate_add_apply, ih, step17_iterate_lfsrPoly (by decide), ih]
    exact squarings_square k hk

/-- The last state of `POLY17` before the register is back at the seed (40_noise_tables.md R143). -/
theorem lfsrState_poly17_last : lfsrState 17 5 0x1FFFF 131070 = 0x1FFFE := by
  have hseed : step17^[2] beforeSeed17 = 0x1FFFF := by decide +kernel
  have hsteps : 131070 + 2 = 2 ^ 17 := by norm_num
  rw [lfsrState_eq_iterate, ← hseed, ← Function.iterate_add_apply, hsteps, step17_iterate_two_pow le_rfl]
  decide +kernel

theorem poly4Bit_periodic : Function.Periodic poly4Bit 15 := lfsrBit_periodic false (by decide)

theorem poly5Bit_periodic : Function.Periodic poly5Bit 31 := lfsrBit_periodic true (by decide +kernel)

theorem poly17Bit_periodic : Function.Periodic poly17Bit 131071 := by
  refine lfsrBit_periodic false ?_
  rw [lfsrState, lfsrState_poly17_last]
  decide

/-- A periodic table of length `len` that also repeats cyclically after a `d` prime to `len` is constant: some multiple
of `d` is 1 modulo `len`. -/
theorem eq_apply_zero_of_cyclic_coprime {f : Nat → Bool} {len d : Nat} (hf : Function.Periodic f len) (hlen : 1 < len)
    (hd : d.Coprime len) (hcyc : ∀ i < len, f i = f ((i + d) % len)) (i : Nat) : f i = f 0 := by
  have hper : Function.Periodic f d := fun i =>
    calc f (i + d) = f ((i % len + d) % len) := by rw [Nat.mod_add_mod, hf.map_mod_nat]
      _ = f (i % len) := (hcyc _ (Nat.mod_lt i (by omega))).symm
      _ = f i := hf.map_mod_nat i
  obtain ⟨m, -, hm⟩ := Nat.exists_mul_mod_eq_one_of_coprime hd hlen
  have hone : f.Periodic 1 := fun i =>
    calc f (i + 1) = f ((i + d * m % len) % len) := by rw [hm, hf.map_mod_nat]
      _ = f (i + m * d) := by rw [Nat.add_mod_mod, hf.map_mod_nat, Nat.mul_comm]
      _ = f i := hper.nat_mul m i
  rw [← hone.map_mod_nat, Nat.mod_one]

/-- A table of prime length that is not constant has no shorter cyclic period. -/
theorem exists_ne_cyclic_of_prime {f : Nat → Bool} {len : Nat} (hf : Function.Periodic f len) (hlen : len.Prime)
    {j : Nat} (hj : f j ≠ f 0) {d : Nat} (hpos : 0 < d) (hlt : d < len) :
    ∃ i, i < len ∧ f i ≠ f ((i + d) % len) := by
  have hcoprime : d.Coprime len := (hlen.coprime_iff_not_dvd.mpr (Nat.not_dvd_of_pos_of_lt hpos hlt)).symm
  by_contra! hcyc
  exact hj (eq_apply_zero_of_cyclic_coprime hf hlen.one_lt hcoprime hcyc j)

theorem poly4Bit_no_shorter : ∀ d < 15, 0 < d → ∃ i, i < 15 ∧ poly4Bit i ≠ poly4Bit ((i + d) % 15) := by decide

/-- Settles O50: each register is back at its seed after `2^n - 1` steps; 31 and 131071 are prime, and the 15 entries of
`POLY4` are compared. -/
theorem lfsrPeriods : Obligations.LfsrPeriods := by
  unfold Obligations.LfsrPeriods
  simp only [List.forall_mem_cons, List.not_mem_nil]
  refine ⟨⟨poly4Bit_periodic, fun d hpos hlt => poly4Bit_no_shorter d hlt hpos⟩,
    ⟨poly5Bit_periodic, fun d hpos hlt => ?_⟩, ⟨poly17Bit_periodic, fun d hpos hlt => ?_⟩, fun _ h => h.elim⟩
  · exact exists_ne_cyclic_of_prime (j := 5) poly5Bit_periodic (by norm_num) (by decide) hpos hlt
  · exact exists_ne_cyclic_of_prime (j := 17) poly17Bit_periodic (by norm_num) (by decide) hpos hlt

end Sys2Proof.Machine
end

section
/-! PROOF. The composite walks, the contents of the small tables and the key frequencies (40_noise_tables.md R141 to
R151). -/

namespace Sys2Proof.Machine

/-- The clock of a composite walk has period 31, so shifting by a multiple of 31 changes none of its bits. -/
theorem clock_add {len : Nat} (h : 31 ∣ len) (n : Nat) : poly5Bit ((n + len) % 31) = poly5Bit (n % 31) := by
  obtain ⟨m, rfl⟩ := h
  rw [Nat.add_mul_mod_self_left]

theorem toggleHeld_periodic : Function.Periodic toggleHeld 62 := by
  intro n
  induction n with
  | zero => decide +kernel
  | succ n ih => rw [Nat.add_right_comm, toggleHeld, clock_add (by decide), ih, toggleHeld]

/-- At the end of 31 rounds of the second table the walk holds that table's last entry: the last bit of the clock is 1. -/
theorem sampleHeld_end (second : Nat → Bool) (m : Nat) :
    sampleHeld second (m + 1) (31 * (m + 1)) = second m := by
  have hclock : (31 * m + 30) % 31 = 30 := by omega
  have hsecond : (31 * m + 30) % (m + 1) = m := by
    rw [show 31 * m + 30 = m + (m + 1) * 30 by ring, Nat.add_mul_mod_self_left, Nat.mod_eq_of_lt m.lt_succ_self]
  have hlast : poly5Bit 30 = true := by decide +kernel
  rw [show 31 * (m + 1) = 31 * m + 30 + 1 by ring, sampleHeld, hclock, hsecond, hlast, cond_true]

/-- A sampling walk whose second table ends in 0, the value held at the start, repeats. -/
theorem sampleHeld_periodic {second : Nat → Bool} {m : Nat} (hend : second m = false) :
    Function.Periodic (sampleHeld second (m + 1)) (31 * (m + 1)) := by
  intro n
  induction n with
  | zero => rw [Nat.zero_add, sampleHeld_end, hend, sampleHeld]
  | succ n ih =>
    rw [Nat.add_right_comm, sampleHeld, clock_add (Nat.dvd_mul_right 31 _), Nat.add_mul_mod_self_right, ih, sampleHeld]

theorem poly17Bit_last : poly17Bit 131070 = false := by
  rw [poly17Bit, lfsrBit, lfsrState_poly17_last]
  decide

/-- Settles O51: the clock and the second table repeat, and each walk ends with the value it starts with. -/
theorem compositeTablesRepeat : Obligations.CompositeTablesRepeat := by
  have hpoly4 : poly4Bit 14 = false := by decide
  exact ⟨toggleHeld_periodic.add_const 1, (sampleHeld_periodic hpoly4).add_const 1,
    (sampleHeld_periodic poly17Bit_last).add_const 1⟩

/-- Settles O49: the entries of the three tables, evaluated. -/
theorem tableContents : Obligations.TableContents := by
  refine ⟨?_, ?_, ?_, ?_, ?_⟩ <;> decide +kernel

/-- The exponent field of `KEYFREQ[k]` (40_noise_tables.md R151). -/
def keyExp (k : VoiceIx) : Fin 255 := Fin.ofNat 255 ((keyFreqBits.getD k.val 0#32).toNat / 2 ^ 23)

/-- The fraction field of `KEYFREQ[k]` (40_noise_tables.md R151). -/
def keyFrac (k : VoiceIx) : BitVec 23 := (keyFreqBits.getD k.val 0#32).setWidth 23

/-- Every entry is a positive normal number with these fields. -/
theorem keyFreq_eq_num : ∀ k, keyFreq k = .num false (keyExp k) (keyFrac k) ∧ 0 < (keyExp k).val := by decide +kernel

/-- The exact value lies less than half a unit in the last place from the entry, by twelfth powers. -/
theorem keyFreq_nearest : ∀ k : VoiceIx,
    (2 * F32.magnitude (keyExp k) (keyFrac k) - 2 ^ ((keyExp k).val - 1)) ^ 12 <
        2 ^ (k.val + 3) * (2 * 220 * 2 ^ 149) ^ 12 ∧
      2 ^ (k.val + 3) * (2 * 220 * 2 ^ 149) ^ 12 <
        (2 * F32.magnitude (keyExp k) (keyFrac k) + 2 ^ ((keyExp k).val - 1)) ^ 12 := by decide +kernel

/-- The A above middle C is 440 Hz exactly. -/
theorem keyFreq_nine : keyFreq 9 = F32.ofInt 440 := by decide +kernel

/-- Settles O52: with the entry's own fields for exponent and fraction. -/
theorem keyFrequencies : Obligations.KeyFrequencies := by
  intro k
  obtain ⟨hnum, hpos⟩ := keyFreq_eq_num k
  obtain ⟨hbelow, habove⟩ := keyFreq_nearest k
  refine ⟨keyExp k, keyFrac k, hnum, hpos, hbelow, habove, fun hk => ?_⟩
  obtain rfl : k = 9 := Fin.ext hk
  exact keyFreq_nine

end Sys2Proof.Machine
end

section
/-! PROOF. The Nyquist rule and the noise sample (41_waveforms.md R161, R176, R180). -/

namespace Sys2Proof.Machine

/-- A NaN step and a negative one are not above the Nyquist limit (41_waveforms.md R161). -/
theorem half_lt_eq_false {step : F32} (h : step.isNan = true ∨ step.lt zeroF = true) : Const.half.lt step = false := by
  refine Bool.eq_false_iff.2 fun habove => ?_
  have hnan := (F32.not_nan_of_lt habove).2
  rcases h with h | h
  · rw [hnan] at h; cases h
  · have hhalf : Const.half.place = 2 ^ 148 := by decide
    rw [F32.lt_iff_place rfl hnan, hhalf] at habove
    rw [F32.lt_iff_place hnan rfl, place_zeroF] at h
    omega

/-- Settles O44: by `waveGen_nyquist` above the limit, by `waveGen_run` where the comparison is false. -/
theorem nyquistRule : Obligations.NyquistRule := by
  intro aa wt width st seed step
  refine ⟨fun h => ?_, fun h => ?_⟩
  · rw [waveGen_nyquist h]
    exact ⟨rfl, rfl, rfl⟩
  · have hrun := half_lt_eq_false h
    obtain ⟨hst, hseed⟩ := waveGen_run (aa := aa) (wt := wt) (width := width) (st := st) (seed := seed) hrun
    refine ⟨hrun, fun hwt => ?_, fun hwt => ?_⟩
    · rw [hseed, if_pos hwt]
    · rw [hst, if_pos hwt]

/-- The uniform random number of a noise state is finite and in `[0, 1]` (41_waveforms.md R176). -/
theorem ofWordFraction_mem_unit (seed : Word) :
    (F32.ofWordFraction seed).isFinite = true ∧ 0 ≤ (F32.ofWordFraction seed).place ∧
      (F32.ofWordFraction seed).place ≤ 2 ^ 149 := by
  have hseed := seed.isLt
  have hone := F32.magOf_one
  have hplace : (F32.ofWordFraction seed).place = F32.roundPlace (seed.toNat * 2 ^ 117) := F32.place_roundInt _ _
  have hbounds := F32.roundPlace_bounds (x := seed.toNat * 2 ^ 117) (g := 0) (h := 127 * 2 ^ 23) (by decide) (by decide)
    (by rw [magOf_zero]; omega) (by rw [hone]; omega)
  rw [magOf_zero, hone] at hbounds
  refine ⟨isFinite_roundInt (g := 127 * 2 ^ 23) _ (by decide) (by rw [hone]; omega), ?_, ?_⟩ <;> rw [hplace] <;> omega

/-- Settles O47: doubling is exact on `[0, 1]`, and rounding the difference from 1 stays between representable bounds. -/
theorem noiseSampleRange : Obligations.NoiseSampleRange := by
  intro seed
  obtain ⟨hfin, hlo, hhi⟩ := ofWordFraction_mem_unit seed
  obtain ⟨htwo, hdouble⟩ := two_mul_place hfin (by omega)
  obtain ⟨hnan, hplace⟩ := F32.sub_finite htwo one_isFinite
  rw [hdouble, place_one] at hplace
  have hone := F32.magOf_one
  have hbounds := F32.roundPlace_bounds (x := 2 * (F32.ofWordFraction seed).place - 2 ^ 149) (g := 127 * 2 ^ 23)
    (h := 127 * 2 ^ 23) (by decide) (by decide) (by rw [hone]; omega) (by rw [hone]; omega)
  rw [hone, ← hplace] at hbounds
  rw [noiseSample, F32.le_iff_place rfl hnan, F32.le_iff_place hnan rfl, place_negOne, place_one]
  exact hbounds

end Sys2Proof.Machine
end

section
/-! PROOF. The PolyBLEP corrections (41_waveforms.md R162, R163, R179): an equation per branch, the range on the right of
the edge, and the left side as the mirror of the right. -/

namespace Sys2Proof.F32

theorem abs_neg (t : F32) : t.neg.abs = t.abs := by cases t <;> rfl

/-- The order is strict (00_scope.md R9). -/
theorem not_eq_of_lt {a b : F32} (h : a.lt b = true) : a.eq b = false ∧ b.eq a = false ∧ b.lt a = false := by
  obtain ⟨ha, hb⟩ := not_nan_of_lt h
  rw [lt_iff_place ha hb] at h
  simp only [← Bool.not_eq_true]
  rw [eq_iff_place ha hb, eq_iff_place hb ha, lt_iff_place hb ha]
  omega

/-- A value that is no NaN is below zero, zero, or above it (00_scope.md R9). -/
theorem sign_cases {t : F32} (h : t.isNan = false) :
    t.lt Machine.zeroF = true ∨ t.eq Machine.zeroF = true ∨ Machine.zeroF.lt t = true := by
  rw [lt_iff_place h rfl, eq_iff_place h rfl, lt_iff_place rfl h]
  exact lt_trichotomy _ _

theorem zeroF_lt_neg {t : F32} (h : t.lt Machine.zeroF = true) : Machine.zeroF.lt t.neg = true := by
  have hnan := (not_nan_of_lt h).1
  rw [lt_iff_place hnan rfl, Machine.place_zeroF] at h
  rw [lt_iff_place rfl (by rw [isNan_neg, hnan]), Machine.place_zeroF, place_neg]
  omega

theorem neg_lt_zeroF {t : F32} (h : Machine.zeroF.lt t = true) : t.neg.lt Machine.zeroF = true := by
  have hnan := (not_nan_of_lt h).2
  rw [lt_iff_place rfl hnan, Machine.place_zeroF] at h
  rw [lt_iff_place (by rw [isNan_neg, hnan]) rfl, Machine.place_zeroF, place_neg]
  omega

theorem neg_eq_zeroF {t : F32} (h : t.eq Machine.zeroF = true) : t.neg.eq Machine.zeroF = true := by
  have hnan := (not_nan_of_eq h).1
  rw [eq_iff_place hnan rfl, Machine.place_zeroF] at h
  rw [eq_iff_place (by rw [isNan_neg, hnan]) rfl, Machine.place_zeroF, place_neg, h]
  rfl

end Sys2Proof.F32

namespace Sys2Proof.Machine

variable {t w : F32}

/-! The branches. -/

theorem polyBlep_outside (h : t.abs.lt w = false) : polyBlep t w = zeroF := by
  rw [polyBlep, h]; rfl

theorem polyBlepEdge_outside (h : t.abs.lt w = false) : polyBlepEdge t w = zeroF := by
  rw [polyBlepEdge, h]; rfl

theorem integratedPolyBlep_outside (h : t.abs.lt w = false) : integratedPolyBlep t w = zeroF := by
  rw [integratedPolyBlep, h]; rfl

theorem polyBlep_zero (h0 : t.eq zeroF = true) : polyBlep t w = zeroF := by
  rw [polyBlep, if_pos h0, ite_self]

theorem polyBlepEdge_zero (h : t.abs.lt w = true) (h0 : t.eq zeroF = true) : polyBlepEdge t w = Const.negOne := by
  rw [polyBlepEdge, h, if_pos h0]; rfl

/-- Off the edge itself the edge residual is the residual (41_waveforms.md R179). -/
theorem polyBlepEdge_eq_polyBlep (h0 : t.eq zeroF = false) : polyBlepEdge t w = polyBlep t w := by
  cases h : t.abs.lt w with
  | false => rw [polyBlepEdge_outside h, polyBlep_outside h]
  | true => rw [polyBlepEdge, h, h0]; rfl

theorem polyBlep_right (h : t.abs.lt w = true) (h0 : zeroF.lt t = true) :
    polyBlep t w = ((Const.two.mul (t.div w)).sub ((t.div w).mul (t.div w))).sub Const.one := by
  obtain ⟨-, hne, -⟩ := F32.not_eq_of_lt h0
  rw [polyBlep, h, hne, h0]; rfl

theorem polyBlep_left (h : t.abs.lt w = true) (h0 : t.lt zeroF = true) :
    polyBlep t w = (((t.div w).mul (t.div w)).add (Const.two.mul (t.div w))).add Const.one := by
  obtain ⟨hne, -, hnlt⟩ := F32.not_eq_of_lt h0
  rw [polyBlep, h, hne, hnlt]; rfl

theorem integratedPolyBlep_right (h : t.abs.lt w = true) (h0 : zeroF.lt t = true) :
    integratedPolyBlep t w =
      (((Const.oneThird.sub (t.div w)).add ((t.div w).mul (t.div w))).sub
        ((((t.div w).mul (t.div w)).mul (t.div w)).div Const.three)).mul (Const.four.mul w) := by
  rw [integratedPolyBlep, h, h0]; rfl

theorem integratedPolyBlep_left (h : t.abs.lt w = true) (h0 : zeroF.lt t = false) :
    integratedPolyBlep t w =
      (((Const.oneThird.add (t.div w)).add ((t.div w).mul (t.div w))).add
        ((((t.div w).mul (t.div w)).mul (t.div w)).div Const.three)).mul (Const.four.mul w) := by
  rw [integratedPolyBlep, h, h0]; rfl

/-! Range and oddness. -/

/-- Inside the support the sign goes through `t / w`, an infinite `w` included. -/
theorem neg_div_support (h : t.abs.lt w = true) : t.neg.div w = (t.div w).neg := by
  obtain ⟨-, -, -, -, hfin⟩ := support_quotient h
  cases t with
  | nan => cases hfin
  | inf => cases hfin
  | num s e f =>
    cases w with
    | nan => cases h
    | inf s' => cases s <;> cases s' <;> rfl
    | num s' e' f' =>
      refine neg_div_left _ _ rfl rfl fun hw => ?_
      rw [F32.lt_iff_place rfl rfl, hw, F32.abs, F32.place_num, F32.signed_false] at h
      omega

/-- Two residuals, neither a NaN, that are each other's negation up to the sign of a zero. -/
def Opposite (x y : F32) : Prop := x.isNan = false ∧ y.isNan = false ∧ x.place = -y.place

theorem Opposite.symm {x y : F32} (h : Opposite x y) : Opposite y x := by
  obtain ⟨hx, hy, hxy⟩ := h
  exact ⟨hy, hx, by omega⟩

theorem Opposite.eq_neg {x y : F32} (h : Opposite x y) : x.eq y.neg = true := by
  obtain ⟨hx, hy, hxy⟩ := h
  rw [F32.eq_iff_place hx (by rw [F32.isNan_neg, hy]), F32.place_neg, hxy]

theorem opposite_zeroF : Opposite zeroF zeroF := ⟨rfl, rfl, by decide⟩

/-- Right of the edge the residual is in `[-1, 0]`, and on the left it stands opposite (41_waveforms.md R162). -/
theorem polyBlep_of_pos (h0 : zeroF.lt t = true) :
    Opposite (polyBlep t.neg w) (polyBlep t w) ∧ -(2 ^ 149) ≤ (polyBlep t w).place ∧ (polyBlep t w).place ≤ 0 := by
  cases h : t.abs.lt w with
  | false =>
    rw [polyBlep_outside h, polyBlep_outside (by rw [F32.abs_neg, h]), place_zeroF]
    exact ⟨opposite_zeroF, by decide, le_rfl⟩
  | true =>
    have hpos : 0 < t.place := (F32.lt_iff_place rfl (F32.not_nan_of_lt h0).2).1 h0
    obtain ⟨hfin, hone, hnonneg, -, -⟩ := support_quotient h
    obtain ⟨hright, hleft, hopp, hlo, hhi⟩ := residual_branches hfin (hnonneg (le_of_lt hpos)) hone
    rw [polyBlep_right h h0, polyBlep_left (by rw [F32.abs_neg, h]) (F32.neg_lt_zeroF h0), neg_div_support h]
    exact ⟨⟨hleft, hright, hopp⟩, hlo, hhi⟩

theorem polyBlep_neg_of_neg (h0 : t.lt zeroF = true) : Opposite (polyBlep t w) (polyBlep t.neg w) := by
  have hmirror := (polyBlep_of_pos (w := w) (F32.zeroF_lt_neg h0)).1
  rwa [F32.neg_neg] at hmirror

/-- The residual is odd up to the sign of a zero, for all operands (41_waveforms.md R162). -/
theorem polyBlep_odd (t w : F32) : Opposite (polyBlep t.neg w) (polyBlep t w) := by
  cases h : t.abs.lt w with
  | false =>
    rw [polyBlep_outside h, polyBlep_outside (by rw [F32.abs_neg, h])]
    exact opposite_zeroF
  | true =>
    obtain ⟨-, -, -, -, hfin⟩ := support_quotient h
    rcases F32.sign_cases (F32.isNan_of_isFinite hfin) with h0 | h0 | h0
    · exact (polyBlep_neg_of_neg h0).symm
    · rw [polyBlep_zero h0, polyBlep_zero (F32.neg_eq_zeroF h0)]
      exact opposite_zeroF
    · exact (polyBlep_of_pos h0).1

theorem polyBlep_range_right (h0 : zeroF.lt t = true) :
    Const.negOne.le (polyBlep t w) = true ∧ (polyBlep t w).le zeroF = true := by
  obtain ⟨⟨-, hnan, -⟩, hlo, hhi⟩ := polyBlep_of_pos (w := w) h0
  rw [F32.le_iff_place rfl hnan, F32.le_iff_place hnan rfl, place_negOne, place_zeroF]
  exact ⟨hlo, hhi⟩

theorem polyBlep_range_left (h0 : t.lt zeroF = true) :
    zeroF.le (polyBlep t w) = true ∧ (polyBlep t w).le Const.one = true := by
  obtain ⟨-, hlo, hhi⟩ := polyBlep_of_pos (w := w) (F32.zeroF_lt_neg h0)
  obtain ⟨hnan, -, hopp⟩ := polyBlep_neg_of_neg (w := w) h0
  rw [F32.le_iff_place rfl hnan, F32.le_iff_place hnan rfl, place_zeroF, place_one]
  omega

end Sys2Proof.Machine
end

section
/-! PROOF. The samples of the generators at or below the Nyquist limit (41_waveforms.md R160, R164 to R169, R176). -/

namespace Sys2Proof.Machine

variable {aa : Bool} {wt : WaveType} {width : F32} {st : OscState} {seed : Word} {step : F32}

/-- The samples of the waves without a table. -/
theorem waveGen_value (h : Const.half.lt step = false) :
    (waveGen aa .sine width st seed step).value = sineWave st.phase ∧
      (waveGen aa .pulse width st seed step).value = pulseWave aa width st.phase step ∧
      (waveGen aa .sawtooth width st seed step).value = sawtoothWave aa st.phase step ∧
      (waveGen aa .triangle width st seed step).value = triangleWave aa st.phase step ∧
      (waveGen aa .noise width st seed step).value = noiseSample (waveGen aa .noise width st seed step).seed := by
  unfold waveGen
  rw [h]
  exact ⟨rfl, rfl, rfl, rfl, rfl⟩

theorem waveGen_table (h : Const.half.lt step = false) (hwt : wt.tableDriven = true) :
    waveGen aa wt width st seed step = tableWave aa wt st seed step := by
  unfold waveGen
  rw [h]
  cases wt with
  | sine | pulse | sawtooth | triangle | noise => cases hwt
  | _ => rfl

/-- A table wave steps its index by the advance, within its cycle (41_waveforms.md R168). -/
theorem tableWave_index (aa : Bool) (wt : WaveType) (st : OscState) (seed : Word) (step : F32) :
    (tableWave aa wt st seed step).st.index < waveCycle wt ∧
      ∃ c : Int, ((tableWave aa wt st seed step).st.index : Int) = st.index + st.advance + c * waveCycle wt := by
  have hcycle : (waveCycle wt : Int) ≠ 0 := by have := waveCycle_pos wt; omega
  refine ⟨tableIndex_lt wt _, -((st.index + st.advance) / (waveCycle wt : Int)), ?_⟩
  have hdiv := Int.emod_add_mul_ediv (st.index + st.advance) (waveCycle wt : Int)
  have hcast : ((tableWave aa wt st seed step).st.index : Int) = (st.index + st.advance) % (waveCycle wt : Int) :=
    Int.toNat_of_nonneg (Int.emod_nonneg _ hcycle)
  rw [hcast, Int.neg_mul, Int.mul_comm (_ / _)]
  omega

/-- An index within the cycle is its own table address (41_waveforms.md R168). -/
theorem romBitAt_of_lt {i : Nat} (h : i < waveCycle wt) : romBitAt wt i = romBit wt i := by
  rw [romBitAt, ← Int.natCast_emod, Int.toNat_natCast, Nat.mod_eq_of_lt h]

/-- A table wave's sample is the level of its new table bit, corrected with anti-aliasing on (41_waveforms.md R168). -/
theorem tableWave_value (aa : Bool) (wt : WaveType) (st : OscState) (seed : Word) (step : F32) :
    let g := tableWave aa wt st seed step
    g.value = if aa then (bitLevel (romBitAt wt g.st.index)).add (polyCorr wt g.st step)
      else bitLevel (romBitAt wt g.st.index) := by
  intro g
  have hlt : g.st.index < waveCycle wt := (tableWave_index aa wt st seed step).1
  rw [romBitAt_of_lt hlt]
  rfl

theorem polyCorrTerm_eq (wt : WaveType) (p : F32) (i : Nat) (w : F32) (m : Int) (c : F32) :
    polyCorrTerm wt p i w m c =
      if (p.sub (F32.ofInt m)).abs.lt w = true ∧ romBitAt wt (i + m) ≠ romBitAt wt (i + m - 1) then
        c.add ((F32.ofInt (bitInt (romBitAt wt (i + m)) - bitInt (romBitAt wt (i + m - 1)))).mul
          (polyBlepEdge (p.sub (F32.ofInt m)) w))
      else c := by
  rw [ite_and]
  simp only [polyCorrTerm, bne_iff_ne]

/-- Between finite bounds the table correction is the sum of the boundaries' terms, ascending (41_waveforms.md R169). -/
theorem polyCorr_of_bounds {lo hi : Int} (hlo : (st.phase.sub (tableCorrectionWidth step)).ceil? = some lo)
    (hhi : (st.phase.add (tableCorrectionWidth step)).floor? = some hi) :
    polyCorr wt st step =
      ((List.range (hi - lo + 1).toNat).map fun j : Nat => lo + (j : Int)).foldl
        (fun c m => polyCorrTerm wt st.phase st.index (tableCorrectionWidth step) m c) zeroF := by
  rw [← polyCorrFrom_eq_foldl]
  simp only [polyCorr, hlo, hhi]

end Sys2Proof.Machine
end

section
/-! PROOF. What each generator writes and returns, with the corrections (41_waveforms.md R160 to R179). -/

namespace Sys2Proof.Machine

/-- Settles O45: what is written by `waveGen_run` and `tableWave_index`, the samples by `waveGen_value` and
`tableWave_value`, the corrections by an equation per branch; range and oddness from `residual_branches`. -/
theorem generatorsWriteOnlyTheirState : Obligations.GeneratorsWriteOnlyTheirState := by
  refine ⟨fun aa wt width st seed step h => ?_, fun t w => ?_⟩
  · intro g p w wT bit num
    obtain ⟨hst, hseed⟩ := waveGen_run (aa := aa) (wt := wt) (width := width) (st := st) (seed := seed) h
    obtain ⟨hsine, hpulse, hsaw, htri, hnoise⟩ := waveGen_value (aa := aa) (width := width) (st := st) (seed := seed) h
    refine ⟨waveGen_phase _ _ _ _ _ _, fun hwt => ?_, fun hwt => ?_, hseed, ?_, ?_, ?_, ?_, ?_, fun hwt => ?_⟩
    · have hg : g = tableWave aa wt st seed step := waveGen_table h hwt
      rw [hg]
      obtain ⟨hlt, hstep⟩ := tableWave_index aa wt st seed step
      exact ⟨rfl, hlt, rfl, hstep⟩
    · exact hst.trans (if_neg (by rw [hwt]; decide))
    · rintro rfl; exact hsine
    · rintro rfl; exact hpulse
    · rintro rfl; exact hsaw
    · rintro rfl; exact htri
    · rintro rfl; exact hnoise
    · have hg : g = tableWave aa wt st seed step := waveGen_table h hwt
      have hvalue := tableWave_value aa wt st seed step
      have hphase : g.st.phase = p := waveGen_phase _ _ _ _ _ _
      dsimp only at hvalue
      rw [← hg] at hvalue
      refine ⟨fun haa => ?_, fun lo hi hlo hhi haa => ?_⟩
      · rw [hvalue, haa]; rfl
      · rw [← hphase] at hlo hhi
        rw [hvalue, if_pos haa, polyCorr_of_bounds hlo hhi, hphase]
        simp only [polyCorrTerm_eq]
        rfl
  · refine ⟨fun h => ⟨polyBlep_outside h, polyBlepEdge_outside h, integratedPolyBlep_outside h⟩,
      fun h0 => ⟨polyBlep_zero h0, fun h => polyBlepEdge_zero h h0⟩, fun h h0 => ?_, fun h h0 => ?_,
      fun h h0 => integratedPolyBlep_left h h0, (polyBlep_odd t w).eq_neg, polyBlep_range_right, polyBlep_range_left⟩
    · obtain ⟨-, hne, -⟩ := F32.not_eq_of_lt h0
      exact ⟨polyBlep_right h h0, polyBlepEdge_eq_polyBlep hne, integratedPolyBlep_right h h0⟩
    · obtain ⟨hne, -, -⟩ := F32.not_eq_of_lt h0
      exact ⟨polyBlep_left h h0, polyBlepEdge_eq_polyBlep hne⟩

end Sys2Proof.Machine
end

section
/-! PROOF. The range rule of the oscillator update (42_oscillator_lfo.md R202). -/

namespace Sys2Proof.F32

theorem floor_of_not_isFinite {x : F32} (h : x.isFinite = false) : x.floor? = none := by
  cases x with
  | num => cases h
  | inf => rfl
  | nan => rfl

end Sys2Proof.F32

namespace Sys2Proof.Machine

/-- Where the sum has no floor, or one of 2^31 or more in magnitude, phase and advance are reset. -/
theorem wrapPhase_outOfRange (st : OscState) {s : F32}
    (h : s.isFinite = false ∨ ∃ a, s.floor? = some a ∧ 2 ^ 31 ≤ a.natAbs) :
    wrapPhase st s = { st with phase := zeroF, advance := 0 } := by
  unfold wrapPhase
  obtain h | ⟨a, hfloor, ha⟩ := h
  · rw [F32.floor_of_not_isFinite h]
  · rw [hfloor]
    exact if_pos ha

/-- Settles O42: the reset by `wrapPhase_outOfRange`, the bounds of the advance by `wrapPhase_ok`; the value is the
generator's by definition. -/
theorem oscillatorSumOutOfRange : Obligations.OscillatorSumOutOfRange := by
  intro aa cfg st seed scale dt d s r
  have hst : r.st = wrapPhase (waveGen aa cfg.waveType cfg.width st seed d).st s := rfl
  obtain ⟨-, hlo, hhi, -⟩ := wrapPhase_ok (waveGen aa cfg.waveType cfg.width st seed d).st s
  rw [hst]
  refine ⟨fun h => ?_, rfl, hlo, hhi⟩
  rw [wrapPhase_outOfRange _ h]
  exact ⟨rfl, rfl⟩

end Sys2Proof.Machine
end

section
/-! PROOF. What a sample step does to the LFO and the derived registers, and the frame of a block with one voice
(42_oscillator_lfo.md R203 to R208; 45_voice_mixer.md R323 to R330). -/

namespace Sys2Proof.Machine

/-! From a step to its frame. -/

/-- Steps a to e apart, a sample step moves the sequencer and the ports only (10_state.md R50; 46_host_commands.md R350). -/
theorem sampleStep_eq_renderFrame {s : State} {p : Port} {n : Nat} {active : List VoiceIx}
    (hs : s.seq = .rendering p n active) :
    ∃ seq ctrl audio,
      sampleStep s = { (renderFrame active s).1 with seq := seq, ctrl := ctrl, audio := audio } := by
  obtain ⟨-, h⟩ | ⟨-, h⟩ := sampleStep_cases hs <;> rw [h]
  · cases p <;> exact ⟨_, _, _, rfl⟩
  · exact ⟨_, _, _, rfl⟩

/-- A step whose turn is a sample step renders a frame over the active list (60_exceptions.md R412; 45_voice_mixer.md R324).
The schedule, which moves on first, is nothing the frame reads. -/
theorem step_of_nextTurn_sample {s : State} {p : Port} {n : Nat} {active : List VoiceIx}
    (hs : s.seq = .rendering p n active) (hturn : nextTurn s = .sample) :
    ∃ seq ctrl audio, step s = .next
      { (renderFrame active { s with schedule := s.schedule.tail }).1 with seq := seq, ctrl := ctrl, audio := audio } := by
  obtain ⟨seq, ctrl, audio, h⟩ := sampleStep_eq_renderFrame (s := { s with schedule := s.schedule.tail }) hs
  refine ⟨seq, ctrl, audio, ?_⟩
  unfold step
  rw [hturn, ← h]

/-! The LFO. -/

/-- A frame leaves the LFO and the derived registers where the LFO's update and `Recompute` put them
(45_voice_mixer.md R324). -/
theorem renderFrame_lfo (active : List VoiceIx) (s : State) :
    let s1 := recompute (lfoUpdate (sampleInterval s.cfg) s)
    let t := (renderFrame active s).1
    t.lfoSt = s1.lfoSt ∧ t.lfoValue = s1.lfoValue ∧ t.der0 = s1.der0 ∧ t.der1 = s1.der1 := by
  obtain ⟨q, h, -⟩ := renderFrame_frame active s
  exact ⟨(congrArg State.lfoSt h).trans rfl, (congrArg State.lfoValue h).trans rfl,
    (congrArg State.der0 h).trans rfl, (congrArg State.der1 h).trans rfl⟩

/-- Settles O33: the step renders a frame, and by `renderFrame_lfo` the frame keeps what `lfoUpdate` and `recompute` give. -/
theorem sampleStepMovesTheLfo : Obligations.SampleStepMovesTheLfo := by
  intro s p n active hs hturn g der
  obtain ⟨seq, ctrl, audio, hstep⟩ := step_of_nextTurn_sample hs hturn
  exact ⟨_, hstep, renderFrame_lfo active { s with schedule := s.schedule.tail }⟩

/-! A frame over one voice. -/

theorem voiceStep_of_off {k : VoiceIx} {dt : F32} {s : State}
    (h : (voiceEnvelopes s.cfg dt (s.voice k)).venv.stage = .off) :
    voiceStep k dt s = (s.setVoice k (voiceEnvelopes s.cfg dt (s.voice k)), none) := if_pos h

theorem voiceStep_of_not_off {k : VoiceIx} {dt : F32} {s : State}
    (h : (voiceEnvelopes s.cfg dt (s.voice k)).venv.stage ≠ .off) :
    voiceStep k dt s =
      ((voiceSound k dt (voiceEnvelopes s.cfg dt (s.voice k)) s).1,
        some (voiceSound k dt (voiceEnvelopes s.cfg dt (s.voice k)) s).2) := if_neg h

/-- The voice loop over one entry is one voice step, and what the voice gives, if it sounds, is added
(45_voice_mixer.md R324). -/
theorem mixVoices_singleton (dt : F32) (k : VoiceIx) (s : State) (c : F32) :
    (mixVoices dt 1 0 ⟨s, [k], c⟩).s = (voiceStep k dt s).1 ∧
      (mixVoices dt 1 0 ⟨s, [k], c⟩).sample = (voiceStep k dt s).2.elim c c.add := by
  simp only [mixVoices, List.getElem?_cons_zero]
  obtain ⟨t, o⟩ := voiceStep k dt s
  cases o with
  | none => exact ⟨rfl, rfl⟩
  | some x => exact ⟨rfl, rfl⟩

theorem voiceStep_cfg (k : VoiceIx) (dt : F32) (s : State) : (voiceStep k dt s).1.cfg = s.cfg := by
  obtain ⟨v, seed, h, -⟩ := voiceStep_spec k dt s
  rw [h]
  rfl

/-- A frame over one voice: the voice's step after the LFO and the derived registers, and the saturated sample of what it
gives (45_voice_mixer.md R324, R330). -/
theorem renderFrame_singleton (k : VoiceIx) (s : State) :
    let r := voiceStep k (sampleInterval s.cfg) (recompute (lfoUpdate (sampleInterval s.cfg) s))
    let q := pcmQuantize s.cfg.outputScale (r.2.elim zeroF zeroF.add)
    (renderFrame [k] s).1 = pcmEmit q q r.1 := by
  intro r q
  obtain ⟨hs, hsample⟩ := mixVoices_singleton (sampleInterval s.cfg) k
    (recompute (lfoUpdate (sampleInterval s.cfg) s)) zeroF
  have hcfg : r.1.cfg = s.cfg := voiceStep_cfg _ _ _
  simp only [renderFrame, List.length_singleton, hs, hsample]
  rw [hcfg]

/-- A voice reaped in its frame has its envelopes updated, and the frame is the saturated +0.0
(45_voice_mixer.md R324, R325). -/
theorem renderFrame_singleton_of_off {k : VoiceIx} {s : State}
    (h : (voiceEnvelopes s.cfg (sampleInterval s.cfg) (s.voice k)).venv.stage = .off) :
    let q := pcmQuantize s.cfg.outputScale zeroF
    (renderFrame [k] s).1 = pcmEmit q q
      ((recompute (lfoUpdate (sampleInterval s.cfg) s)).setVoice k
        (voiceEnvelopes s.cfg (sampleInterval s.cfg) (s.voice k))) := by
  have hstep := voiceStep_of_off (s := recompute (lfoUpdate (sampleInterval s.cfg) s)) h
  rw [renderFrame_singleton, hstep]
  rfl

/-- A voice not reaped in its frame sounds, and the frame is the saturated sum of +0.0 and what it gives
(45_voice_mixer.md R325, R327, R330). -/
theorem renderFrame_singleton_of_not_off {k : VoiceIx} {s : State}
    (h : (voiceEnvelopes s.cfg (sampleInterval s.cfg) (s.voice k)).venv.stage ≠ .off) :
    let r := voiceSound k (sampleInterval s.cfg) (voiceEnvelopes s.cfg (sampleInterval s.cfg) (s.voice k))
      (recompute (lfoUpdate (sampleInterval s.cfg) s))
    let q := pcmQuantize s.cfg.outputScale (zeroF.add r.2)
    (renderFrame [k] s).1 = pcmEmit q q r.1 := by
  have hstep := voiceStep_of_not_off (s := recompute (lfoUpdate (sampleInterval s.cfg) s)) h
  rw [renderFrame_singleton, hstep]
  rfl

theorem setVoice_voice_self (s : State) (k : VoiceIx) (v : Voice) : (s.setVoice k v).voice k = v :=
  (setVoice_voice s k k v).trans (if_pos rfl)

/-- Both cases of a one-voice frame occur at a sample step: a voice that is `OFF` stays so, one that starts does not. -/
theorem sampleOfOneVoice_cases_occur :
    let off := { State.reset with seq := .rendering .ctrl 1 [7] }
    let on := { risingEdge 7 State.reset with seq := .rendering .ctrl 1 [7] }
    nextTurn off = .sample ∧ (envUpdate off.cfg.venv (sampleInterval off.cfg) (off.voice 7).venv).stage = .off ∧
      nextTurn on = .sample ∧ (envUpdate on.cfg.venv (sampleInterval on.cfg) (on.voice 7).venv).stage ≠ .off := by
  decide

/-- Settles O34: the frame over one voice by its two cases, `renderFrame_singleton_of_off` and
`renderFrame_singleton_of_not_off`. -/
theorem sampleOfOneVoice : Obligations.SampleOfOneVoice := by
  intro s p n k hs hturn dt s1 fe ve kf g0 g1 cutoff f
  obtain ⟨seq, ctrl, audio, hstep⟩ := step_of_nextTurn_sample hs hturn
  refine ⟨_, hstep, ?_⟩
  split
  · rename_i hoff
    rw [renderFrame_singleton_of_off (s := { s with schedule := s.schedule.tail }) hoff]
    exact ⟨setVoice_voice_self _ _ _, rfl, rfl⟩
  · rename_i hon
    rw [renderFrame_singleton_of_not_off (s := { s with schedule := s.schedule.tail }) hon]
    exact ⟨setVoice_voice_self _ _ _, rfl, rfl⟩

end Sys2Proof.Machine
end

section
/-! PROOF. The gate's edges, which steps move a gate, and what an envelope update does in each stage (43_envelope.md R230 to
R238; 45_voice_mixer.md R311; 46_host_commands.md R352). -/

namespace Sys2Proof.Machine

/-! Edges. -/

theorem gateCommand_of_rise {v : BitVec 5} {s : State} (hv : v.toNat < 24) (h : (s.voice ⟨v.toNat, hv⟩).gate = false) :
    gateCommand v true s = risingEdge ⟨v.toNat, hv⟩ s := by
  simp [gateCommand, gateVoice, hv, h]

theorem gateCommand_of_fall {v : BitVec 5} {s : State} (hv : v.toNat < 24) (h : (s.voice ⟨v.toNat, hv⟩).gate = true) :
    gateCommand v false s = fallingEdge ⟨v.toNat, hv⟩ s := by
  simp [gateCommand, gateVoice, hv, h]

theorem setVoice_voice_of_ne (s : State) {k j : VoiceIx} (v : Voice) (h : j ≠ k) : (s.setVoice k v).voice j = s.voice j :=
  (setVoice_voice s k j v).trans (if_neg h.symm)

/-- A rising edge touches only voices and the most recent key (43_envelope.md R237; 45_voice_mixer.md R311). -/
theorem risingEdge_frame (k : VoiceIx) (s : State) :
    risingEdge k s =
      { s with voices := (risingEdge k s).voices, mostRecentKey := (risingEdge k s).mostRecentKey } := by
  rw [risingEdge_eq]
  rfl

theorem risingEdge_voice_of_ne {k j : VoiceIx} (s : State) (h : j ≠ k) : (risingEdge k s).voice j = s.voice j := by
  rw [risingEdge_eq]
  exact setVoice_voice_of_ne s _ h

/-- A rising edge of a voice whose volume envelope is `OFF` starts the voice (43_envelope.md R237; 45_voice_mixer.md R311). -/
theorem risingEdge_of_off {k : VoiceIx} {s : State} (h : (s.voice k).venv.stage = .off) :
    (risingEdge k s).voice k =
        { osc0 := oscReset (s.voice k).osc0
          osc1 := oscReset (s.voice k).osc1
          fenv := ⟨.attack, (s.voice k).fenv.amplitude⟩
          venv := ⟨.attack, (s.voice k).venv.amplitude⟩
          flt := filterClear (s.voice k).flt
          gate := true } ∧
      (risingEdge k s).mostRecentKey = k := by
  rw [risingEdge_eq]
  simp only [h, decide_true, if_true, and_true]
  exact setVoice_voice_self s k _

/-- A rising edge of a voice that still sounds restarts its envelopes only (43_envelope.md R237). -/
theorem risingEdge_of_not_off {k : VoiceIx} {s : State} (h : (s.voice k).venv.stage ≠ .off) :
    (risingEdge k s).voice k =
        { s.voice k with
          fenv := ⟨.attack, (s.voice k).fenv.amplitude⟩
          venv := ⟨.attack, (s.voice k).venv.amplitude⟩
          gate := true } ∧
      (risingEdge k s).mostRecentKey = s.mostRecentKey := by
  rw [risingEdge_eq]
  simp only [h, decide_false, Bool.false_eq_true, if_false, and_true]
  exact setVoice_voice_self s k _

/-- A rising edge raises the gate and sends both envelopes to `ATTACK` from the amplitudes they have (43_envelope.md R237). -/
theorem risingEdge_gate_envelopes (k : VoiceIx) (s : State) :
    ((risingEdge k s).voice k).gate = true ∧
      ((risingEdge k s).voice k).fenv = ⟨.attack, (s.voice k).fenv.amplitude⟩ ∧
      ((risingEdge k s).voice k).venv = ⟨.attack, (s.voice k).venv.amplitude⟩ := by
  by_cases h : (s.voice k).venv.stage = .off
  · rw [(risingEdge_of_off h).1]
    exact ⟨rfl, rfl, rfl⟩
  · rw [(risingEdge_of_not_off h).1]
    exact ⟨rfl, rfl, rfl⟩

theorem fallingEdge_voice_self (k : VoiceIx) (s : State) :
    (fallingEdge k s).voice k =
      { s.voice k with
        gate := false
        fenv := ⟨.release, (s.voice k).fenv.amplitude⟩
        venv := ⟨.release, (s.voice k).venv.amplitude⟩ } :=
  setVoice_voice_self s k _

/-- A voice's status word where both envelopes are in one stage (10_state.md R33). -/
theorem readReg_voiceStatus_of_stage {k : VoiceIx} {s : State} {e : EnvStage} {g : Bool} (hg : (s.voice k).gate = g)
    (hf : (s.voice k).fenv.stage = e) (hv : (s.voice k).venv.stage = e) :
    readReg s (.voiceStatus k) = BitVec.ofNat 32 (e.code + e.code * 2 ^ 4 + g.toNat * 2 ^ 8) := by
  rw [readReg, voiceStatusWord, hv, hf, hg]

theorem EnvStage.ne_off_of_held {e : EnvStage} (h : e.held = true) : e ≠ .off := by
  rintro rfl
  cases h

/-- In a sound state no envelope of a voice whose key is held is `OFF` (43_envelope.md R238). -/
theorem Voice.Ok.ne_off_of_gate {v : Voice} (h : v.Ok) (hgate : v.gate = true) :
    v.fenv.stage ≠ .off ∧ v.venv.stage ≠ .off :=
  ⟨EnvStage.ne_off_of_held (h.fenvGate.trans hgate), EnvStage.ne_off_of_held (h.venvGate.trans hgate)⟩

/-- Settles O10: the command is `risingEdge`, the gate and the envelopes are the same in both branches, and the rest of the
voice is `risingEdge_of_off`'s or `risingEdge_of_not_off`'s. -/
theorem risingGateEdge : Obligations.RisingGateEdge := by
  intro p v s hv k hlow
  obtain ⟨hgate, hfenv, hvenv⟩ := risingEdge_gate_envelopes k s
  have hword : readReg (risingEdge k s) (.voiceStatus k) = _ :=
    readReg_voiceStatus_of_stage (e := .attack) hgate (by rw [hfenv]) (by rw [hvenv])
  refine ⟨risingEdge k s, congrArg Host.Outcome.next (gateCommand_of_rise hv hlow), risingEdge_frame k s,
    fun j => risingEdge_voice_of_ne s, hgate, hfenv, hvenv, hword, ?_⟩
  split
  · rename_i hoff
    obtain ⟨hvoice, hkey⟩ := risingEdge_of_off hoff
    rw [hvoice]
    exact ⟨rfl, rfl, rfl, hkey⟩
  · rename_i hon
    obtain ⟨hvoice, hkey⟩ := risingEdge_of_not_off hon
    rw [hvoice]
    exact ⟨rfl, rfl, rfl, hkey⟩

/-- Settles O11: the command is `fallingEdge`, one voice replaced; that neither envelope was `OFF` is
`Voice.Ok.ne_off_of_gate`. -/
theorem fallingGateEdge : Obligations.FallingGateEdge := by
  intro p v s hv k hhigh
  have hvoice := fallingEdge_voice_self k s
  have hword : readReg (fallingEdge k s) (.voiceStatus k) = _ :=
    readReg_voiceStatus_of_stage (e := .release) (g := false) (by rw [hvoice]) (by rw [hvoice]) (by rw [hvoice])
  exact ⟨⟨fallingEdge k s, congrArg Host.Outcome.next (gateCommand_of_fall hv hhigh), rfl,
    fun j => setVoice_voice_of_ne s _, hvoice, hword⟩, fun hinv => (hinv.voices k).ne_off_of_gate hhigh⟩

/-! Which steps move a gate. -/

theorem sampleStep_gate (s : State) (k : VoiceIx) : ((sampleStep s).voice k).gate = (s.voice k).gate := by
  cases hs : s.seq with
  | idle => rw [sampleStep_of_idle hs]
  | rendering p n active =>
    obtain ⟨seq, ctrl, audio, h⟩ := sampleStep_eq_renderFrame hs
    obtain ⟨-, -, hgate⟩ := renderFrame_frame active s
    rw [h]
    exact hgate k

theorem completeUnlessRendering_voices (p : Port) (s : State) : (completeUnlessRendering p s).voices = s.voices := by
  obtain h | h := completeUnlessRendering_cases p s <;> rw [h]
  exact completeTxn_voices p s

/-- Settles O38: of a step's cases only reset and a served `GATE`, as in `effect_gate`, move a gate. -/
theorem gatesChangeOnlyByGate : Obligations.GatesChangeOnlyByGate := by
  intro s t hstep k hne
  obtain ⟨-, rfl⟩ | ⟨p, x, -, rfl⟩ | ⟨p, x, hturn, rfl⟩ | ⟨-, rfl⟩ | ⟨hturn, -⟩ := step_cases hstep
  · exact absurd rfl hne
  · rw [voice_congr (issueTxn_voices p x _)] at hne
    exact absurd rfl hne
  · rw [voice_congr (completeUnlessRendering_voices p _)] at hne ⊢
    exact Or.inr ⟨p, x, hturn, effect_gate p x _ k hne⟩
  · exact absurd (sampleStep_gate _ k) hne
  · exact Or.inl hturn

/-! Envelope updates. -/

/-- The biases and the attack target as encodings (40_noise_tables.md R150; 43_envelope.md R231). -/
theorem envelopeBias_toBits :
    Const.attackBias.toBits = 0x3F14FC6D#32 ∧ attackTarget.toBits = 0x3FCA7E36#32 ∧
      Const.decayBias.toBits = 0xBD569CDF#32 := by
  decide

/-- An attack that reaches 1 goes on to `DECAY` where the sustain level is below 1, else to `SUSTAIN` (43_envelope.md R232). -/
theorem envAttack_eq (c : EnvCfg) (dt a : F32) :
    let a' := approach a attackTarget c.attackRate dt
    envAttack c dt a =
      if Const.one.le a' then (if c.sustain.lt Const.one then ⟨.decay, Const.one⟩ else ⟨.sustain, Const.one⟩)
      else ⟨.attack, a'⟩ := by
  unfold envAttack
  dsimp only
  split
  · split <;> rfl
  · rfl

theorem releaseRateOf_eq (c : EnvCfg) (a : F32) :
    releaseRateOf c a =
      if c.sustain.le a = true ∧ c.releaseRate.le c.decayRate = true then c.decayRate else c.releaseRate := by
  simp only [releaseRateOf, Bool.and_eq_true]

/-- Settles O53: each stage by its own function's definition, the attack by `envAttack_eq`, the release's rate by
`releaseRateOf_eq`. -/
theorem envelopeStages : Obligations.EnvelopeStages := by
  intro c dt a
  refine ⟨envAttack_eq c dt a, rfl, ?_, rfl, rfl, envelopeBias_toBits⟩
  rw [← releaseRateOf_eq]
  rfl

end Sys2Proof.Machine
end

section
/-! PROOF. The filter's setup: doubling, halving back and the clamp (44_filter.md R261). -/

namespace Sys2Proof.F32

/-- The encoding, sign left out, of twice the magnitude that `g` encodes. -/
def doubleBits (g : Nat) : Nat := if g < 2 ^ 23 then 2 * g else g + 2 ^ 23

theorem magOf_doubleBits (g : Nat) : magOf (doubleBits g) = 2 * magOf g := (Machine.magOf_double g).symm

theorem doubleBits_lt_iff {g : Nat} : doubleBits g < 255 * 2 ^ 23 ↔ g < 254 * 2 ^ 23 := by
  unfold doubleBits
  split <;> omega

theorem two_eq_num : Machine.Const.two = .num false 128 0#23 := by decide

theorem magnitude_two : magnitude 128 0#23 = 2 ^ 150 := by decide

/-- Doubling is exact up to overflow (00_scope.md R7, R8). -/
theorem mul_two_num (s : Bool) (e : Fin 255) (f : BitVec 23) :
    (F32.num s e f).mul Machine.Const.two = ofMagnitudeBits s (doubleBits (e.val * 2 ^ 23 + f.toNat)) := by
  rw [two_eq_num, mul_num, magnitude_two, magnitude_eq_magOf, Bool.xor_false]
  generalize hg : e.val * 2 ^ 23 + f.toNat = g
  by_cases hz : magOf g = 0
  · have hg0 : g = 0 := magOf_strictMono.injective (hz.trans Machine.magOf_zero.symm)
    rw [hz, hg0]
    rfl
  · have hprod : magOf g * 2 ^ 150 = magOf (doubleBits g) * 2 ^ 149 := by rw [magOf_doubleBits]; ring
    rw [if_neg (by simp [hz]), round_eq, hprod, roundBits_exact (Nat.two_pow_pos 149)]

/-- Halving undoes doubling (00_scope.md R7, R8). -/
theorem div_two_of_doubleBits (s : Bool) {e e' : Fin 255} {f f' : BitVec 23}
    (h : e'.val * 2 ^ 23 + f'.toNat = doubleBits (e.val * 2 ^ 23 + f.toNat)) :
    (F32.num s e' f').div Machine.Const.two = .num s e f := by
  rw [two_eq_num, Machine.div_of_num _ _ _ _ _ _ (by rw [magnitude_two]; decide), magnitude_two, magnitude_eq_magOf, h,
    magOf_doubleBits, Bool.xor_false]
  generalize hg : e.val * 2 ^ 23 + f.toNat = g
  have hquot : 2 * magOf g * 2 ^ 149 = magOf g * 2 ^ 150 := by ring
  rw [hquot, round_eq, roundBits_exact (Nat.two_pow_pos 150), ← hg, ofMagnitudeBits_num]

/-- A finite value doubled and halved is itself where the doubling does not overflow, else the infinity of its sign. -/
theorem mul_two_div_two_num (s : Bool) (e : Fin 255) (f : BitVec 23) :
    ((F32.num s e f).mul Machine.Const.two).div Machine.Const.two = if e.val < 254 then .num s e f else .inf s := by
  have hf := f.isLt
  rw [mul_two_num]
  split
  · rename_i he
    have hlt : e.val * 2 ^ 23 + f.toNat < 254 * 2 ^ 23 := by omega
    obtain ⟨e', f', hnum, hbits⟩ := ofMagnitudeBits_of_lt s (doubleBits_lt_iff.2 hlt)
    rw [hnum, div_two_of_doubleBits s hbits.symm]
  · rename_i he
    have hge : ¬ e.val * 2 ^ 23 + f.toNat < 254 * 2 ^ 23 := by omega
    rw [ofMagnitudeBits_of_ge s (not_lt.1 (mt doubleBits_lt_iff.1 hge)), two_eq_num, div, Bool.xor_false]

theorem mul_two_div_two_inf (s : Bool) :
    ((F32.inf s).mul Machine.Const.two).div Machine.Const.two = .inf s := by
  cases s <;> decide

theorem isNan_mul_two_div_two (x : F32) : ((x.mul Machine.Const.two).div Machine.Const.two).isNan = x.isNan := by
  cases x with
  | nan s p => rfl
  | inf s => rw [mul_two_div_two_inf]
  | num s e f =>
    rw [mul_two_div_two_num]
    split <;> rfl

/-- A magnitude with the largest finite exponent is at least 2^127. -/
theorem le_magnitude_of_exp {e : Fin 255} (f : BitVec 23) (h : 254 ≤ e.val) : 2 ^ 127 * 2 ^ 149 ≤ magnitude e f := by
  have hbits : 254 * 2 ^ 23 ≤ e.val * 2 ^ 23 + f.toNat := by omega
  calc 2 ^ 127 * 2 ^ 149 = magOf (254 * 2 ^ 23) := by decide
    _ ≤ magnitude e f := by rw [magnitude_eq_magOf]; exact magOf_le_magOf.2 hbits

/-- Where the doubling does overflow upward the clamp at 1 answers 1 before and after. -/
theorem min_one_mul_two_div_two {x : F32} (h : (ofBits 0xFF000000#32).lt x = true) :
    ((x.mul Machine.Const.two).div Machine.Const.two).min Machine.Const.one = x.min Machine.Const.one := by
  cases x with
  | nan s p => cases h
  | inf s => rw [mul_two_div_two_inf]
  | num s e f =>
    rw [mul_two_div_two_num]
    split
    · rfl
    · rename_i he
      have hmag := le_magnitude_of_exp f (not_lt.1 he)
      have hlow : (ofBits 0xFF000000#32).place = -(2 ^ 127 * 2 ^ 149) := by decide
      rw [lt_iff_place rfl rfl, hlow, place_num, signed_eq] at h
      have hs : s = false := by
        cases s
        · rfl
        · rw [if_pos rfl] at h; omega
      subst hs
      have hone : Machine.Const.one.lt (.num false e f) = true := by
        rw [lt_iff_place rfl rfl, Machine.place_one, place_num, signed_false]
        omega
      rw [min, min, hone]
      rfl

/-- The smaller of a value that is no NaN and 1 is at most 1 (00_scope.md R9). -/
theorem min_one_le_one {y : F32} (h : y.isNan = false) : (y.min Machine.Const.one).le Machine.Const.one = true := by
  rw [min]
  cases hlt : Machine.Const.one.lt y
  · have hnot : ¬ Machine.Const.one.lt y = true := by rw [hlt]; decide
    rw [lt_iff_place rfl h, not_lt] at hnot
    exact (le_iff_place h rfl).2 hnot
  · rfl

/-- The smaller of a NaN and a value is the NaN (00_scope.md R9). -/
theorem isNan_min_of_isNan {y b : F32} (h : y.isNan = true) : (y.min b).isNan = true := by
  cases hlt : b.lt y
  · rw [min, hlt]; exact h
  · rw [(not_nan_of_lt hlt).2] at h; cases h

end Sys2Proof.F32

namespace Sys2Proof.Machine

/-- Settles O56: doubling and halving keep a NaN a NaN and change only values the clamp answers alike
(`F32.min_one_mul_two_div_two`). -/
theorem filterSetupClamps : Obligations.FilterSetupClamps := by
  intro cutoff dt x
  have hnan := F32.isNan_mul_two_div_two x
  exact ⟨fun h => F32.isNan_min_of_isNan (hnan.trans h), fun h => F32.min_one_le_one (hnan.trans h),
    F32.min_one_mul_two_div_two⟩

end Sys2Proof.Machine
end

section
/-! PROOF. The saturator: its branches, a NaN, and its oddness (44_filter.md R262). -/

namespace Sys2Proof.F32

theorem isNan_mul_left {a : F32} (b : F32) (h : a.isNan = true) : (a.mul b).isNan = true := by
  cases a with
  | nan s p => rfl
  | inf | num => cases h

theorem isNan_div_left {a : F32} (b : F32) (h : a.isNan = true) : (a.div b).isNan = true := by
  cases a with
  | nan s p => rfl
  | inf | num => cases h

theorem lt_neg_comm {a b : F32} : a.lt b.neg = b.lt a.neg := by
  cases ha : a.isNan
  · cases hb : b.isNan
    · rw [Bool.eq_iff_iff, lt_iff_place ha (by rw [isNan_neg, hb]), lt_iff_place hb (by rw [isNan_neg, ha]), place_neg,
        place_neg]
      omega
    · cases b with
      | nan => cases a <;> rfl
      | inf | num => cases hb
  · cases a with
    | nan => cases b <;> rfl
    | inf | num => cases ha

end Sys2Proof.F32

namespace Sys2Proof.Machine

theorem ftanh_above {x : F32} (h : Const.three.lt x = true) : ftanh x = Const.one := by
  rw [ftanh, if_pos h]

theorem negThree_eq_neg : Const.negThree = Const.three.neg := by decide

/-- No value is past both clamps (44_filter.md R262). -/
theorem not_three_lt_of_lt_negThree {x : F32} (h : x.lt Const.negThree = true) : Const.three.lt x = false := by
  have hn := (F32.not_nan_of_lt h).1
  rw [F32.lt_iff_place hn rfl, show Const.negThree.place = -(3 * 2 ^ 149) by decide] at h
  rw [← Bool.not_eq_true, F32.lt_iff_place rfl hn, show Const.three.place = 3 * 2 ^ 149 by decide]
  omega

theorem ftanh_below {x : F32} (h : x.lt Const.negThree = true) : ftanh x = Const.negOne := by
  rw [ftanh, not_three_lt_of_lt_negThree h, if_neg (by decide), if_pos h]

theorem isNan_ftanh {x : F32} (h : x.isNan = true) : (ftanh x).isNan = true := by
  cases x with
  | nan s p =>
    rw [ftanh_between rfl rfl]
    exact F32.isNan_div_left _ (F32.isNan_mul_left _ h)
  | inf | num => cases h

/-- Negation swaps the two clamps (44_filter.md R262). -/
theorem three_lt_neg (x : F32) : Const.three.lt x.neg = x.lt Const.negThree := by
  rw [negThree_eq_neg, F32.lt_neg_comm]

theorem neg_lt_negThree (x : F32) : x.neg.lt Const.negThree = Const.three.lt x := by
  rw [← three_lt_neg, F32.neg_neg]

/-- The saturator is odd: negation swaps the clamps, and between them it goes through the product and the quotient
(44_filter.md R262). -/
theorem ftanh_neg {x : F32} (hn : x.isNan = false) : ftanh x.neg = (ftanh x).neg := by
  cases habove : Const.three.lt x
  · cases hbelow : x.lt Const.negThree
    · obtain ⟨hfin, hbound⟩ := between_clamps habove hbelow hn
      obtain ⟨hnum, -, -, hden, hpos, -⟩ := ftanh_factors hfin hbound
      have hprod := (F32.mul_finite hfin hnum).1
      have hneg := ftanh_between ((three_lt_neg x).trans hbelow) ((neg_lt_negThree x).trans habove)
      rw [hneg, ftanh_between habove hbelow, neg_mul_self x hn,
        neg_mul_right _ _ hn (F32.isNan_of_isFinite hnum) hprod, neg_div_left _ _ hprod hden (ne_of_gt hpos)]
    · rw [ftanh_below hbelow, ftanh_above ((three_lt_neg x).trans hbelow)]
      decide
  · rw [ftanh_above habove, ftanh_below ((neg_lt_negThree x).trans habove)]
    decide

/-- The saturator at the clamps, by its formula there (44_filter.md R262). -/
theorem ftanh_three : ftanh Const.three = Const.one ∧ ftanh Const.negThree = Const.negOne := by decide

/-- The examples of 44_filter.md R262. -/
theorem ftanh_examples :
    (ftanh Const.half).toBits = 0x3EEE7EE8#32 ∧ (ftanh Const.one).toBits = 0x3F471C72#32 ∧
      (ftanh Const.two).toBits = 0x3F7BEFBF#32 := by
  decide

/-- Settles O59: the branches are `ftanh_above`, `ftanh_below` and `ftanh_between`, the oddness is `ftanh_neg`. -/
theorem saturatorRules : Obligations.SaturatorRules := by
  obtain ⟨hthree, hnegThree⟩ := ftanh_three
  exact ⟨fun x => ⟨ftanh_above, ftanh_below, ftanh_between, isNan_ftanh, ftanh_neg⟩, hthree, hnegThree,
    ftanh_above rfl, ftanh_below rfl, ftanh_examples⟩

end Sys2Proof.Machine
end

section
/-! PROOF. The filter update: the bypass, the output taps, what each core computes and what it reads of the old state
(44_filter.md R260, R263 to R288; 10_state.md R32). -/

namespace Sys2Proof.Machine

theorem filterUpdate_of_none {c : FilterCfg} (core : FilterCore) (f : FilterState) (cutoff x dt : F32) (h : c.mode = .none) :
    filterUpdate core c f cutoff x dt = (f, x) := by
  rw [filterUpdate, h]

/-- In every mode but `None` the filter is its core, then the mode's tap (44_filter.md R260). -/
theorem filterUpdate_of_ne_none {c : FilterCfg} (core : FilterCore) (f : FilterState) (cutoff x dt : F32)
    (h : c.mode ≠ .none) :
    filterUpdate core c f cutoff x dt =
      ((coreUpdate core c.resonance (filterSetup cutoff dt) x f).1,
        filterTap c.mode x (coreUpdate core c.resonance (filterSetup cutoff dt) x f).2) := by
  rw [filterUpdate]
  cases hm : c.mode with
  | none => exact absurd hm h
  | _ => rfl

theorem coreUpdate_improved : coreUpdate .improved = improvedUpdate := rfl

theorem coreUpdate_nonlinear : coreUpdate .nonlinear = nonlinearUpdate := rfl

/-- Settles O55: `filterUpdate`'s first case. -/
theorem filterBypass : Obligations.FilterBypass := fun core _ f cutoff x dt => filterUpdate_of_none core f cutoff x dt

/-- Settles O57: the taps are sums of small dyadic multiples, evaluated mode by mode. -/
theorem filterTapExamples : Obligations.FilterTapExamples := by
  unfold Obligations.FilterTapExamples
  decide

/-! What an update reads of the old state. -/

/-- `g` with the fields that carry from one update to the next taken from `f` (10_state.md R32). -/
def FilterState.withCarried (g f : FilterState) : FilterState :=
  { g with
    y0 := f.y0, y1 := f.y1, y2 := f.y2, y3 := f.y3, y4 := f.y4
    ytan1 := f.ytan1, ytan2 := f.ytan2, ytan3 := f.ytan3 }

/-- The improved core reads only what carries, and keeps `tune` and `ytan` as they were (44_filter.md R263, R264). -/
theorem improvedUpdate_withCarried (res fc x : F32) (f g : FilterState) :
    improvedUpdate res fc x (g.withCarried f) =
      ({ (improvedUpdate res fc x f).1 with tune := g.tune, ytan0 := g.ytan0 }, (improvedUpdate res fc x f).2) := rfl

/-- The nonlinear core reads only what carries, and keeps the improved core's coefficients as they were
(44_filter.md R265, R266). -/
theorem nonlinearUpdate_withCarried (res fc x : F32) (f g : FilterState) :
    nonlinearUpdate res fc x (g.withCarried f) =
      ({ (nonlinearUpdate res fc x f).1 with a1 := g.a1, b0 := g.b0, b1 := g.b1 }, (nonlinearUpdate res fc x f).2) := rfl

/-- Settles O58: both cores compute what `improvedUpdate` and `nonlinearUpdate` write out; a state that agrees with the old
one in what carries is itself with the old one's carried fields (`FilterState.withCarried`), and `improvedUpdate_withCarried`
and `nonlinearUpdate_withCarried` compare the updates. -/
theorem filterStateThatCarries : Obligations.FilterStateThatCarries := by
  intro core c f cutoff x dt hmode u fc
  have hu : u = _ := filterUpdate_of_ne_none core f cutoff x dt hmode
  clear_value u
  subst hu
  refine ⟨?_, ?_, ?_⟩
  · rintro rfl
    exact ⟨rfl, rfl⟩
  · rintro rfl
    exact ⟨rfl, rfl⟩
  · intro g hy0 hy1 hy2 hy3 hy4 ht1 ht2 ht3 w
    have hg : g = g.withCarried f := by rw [FilterState.withCarried, hy0, hy1, hy2, hy3, hy4, ht1, ht2, ht3]
    have hw : w = _ := filterUpdate_of_ne_none core g cutoff x dt hmode
    clear_value w
    rw [hg] at hw
    subst hw
    cases core with
    | improved =>
      rw [coreUpdate_improved, improvedUpdate_withCarried]
      exact ⟨rfl, rfl, rfl, rfl, rfl, rfl, rfl, rfl, rfl, rfl, fun _ => ⟨rfl, rfl, rfl, rfl, rfl, rfl, rfl, rfl⟩, nofun⟩
    | nonlinear =>
      rw [coreUpdate_nonlinear, nonlinearUpdate_withCarried]
      exact ⟨rfl, rfl, rfl, rfl, rfl, rfl, rfl, rfl, rfl, rfl, nofun, fun _ => ⟨rfl, rfl, rfl, rfl, rfl⟩⟩

end Sys2Proof.Machine
end

section
/-! PROOF. What a sample step emits, what it leaves unchanged, and what it does over any list of voices
(10_state.md R50; 45_voice_mixer.md R313, R324 to R331). -/

namespace Sys2Proof.Machine

/-! From a step to its sample step. -/

theorem step_eq_sampleStep {s : State} (hturn : nextTurn s = .sample) :
    step s = .next (sampleStep { s with schedule := s.schedule.tail }) := by
  rw [step, hturn]

/-- A sample step moves no port but, with the block's last frame, the port whose `RENDER` then completes
(46_host_commands.md R350). -/
theorem sampleStep_port {s : State} {p : Port} {n : Nat} {active : List VoiceIx} (hs : s.seq = .rendering p n active)
    (q : Port) :
    (sampleStep s).port q =
      if p = q ∧ n ≤ 1 then { s.port p with queue := (s.port p).queue.tail, owed := (s.port p).owed - 1 }
      else s.port q := by
  obtain ⟨-, -, hkept⟩ := renderFrame_kept active s
  have hport : ∀ seq r, ({ (renderFrame active s).1 with seq := seq } : State).port r = s.port r :=
    fun _ r => (port_congr rfl rfl r).trans (hkept r)
  obtain ⟨hn, h⟩ | ⟨hn, h⟩ := sampleStep_cases hs <;> rw [h]
  · rw [completeTxn_port, hport, hport]
    simp only [hn, and_true]
  · rw [hport, if_neg (by omega)]

/-- The sequencer after a sample step: idle after the last frame, else one frame fewer to go over the list left
(10_state.md R50). -/
theorem sampleStep_seq {s : State} {p : Port} {n : Nat} {active : List VoiceIx} (hs : s.seq = .rendering p n active) :
    if n ≤ 1 then (sampleStep s).seq = .idle
    else (sampleStep s).seq = .rendering p (n - 1) (renderFrame active s).2 := by
  obtain ⟨hn, h⟩ | ⟨hn, h⟩ := sampleStep_cases hs <;> rw [h]
  · rw [if_pos hn, completeTxn_seq]
  · rw [if_neg (by omega)]

theorem sampleStep_mostRecentKey (s : State) : (sampleStep s).mostRecentKey = s.mostRecentKey := by
  cases hs : s.seq with
  | idle => rw [sampleStep_of_idle hs]
  | rendering p n active =>
    obtain ⟨q, hframe, -⟩ := renderFrame_frame active s
    obtain ⟨seq, ctrl, audio, h⟩ := sampleStep_eq_renderFrame hs
    rw [h]
    exact (congrArg State.mostRecentKey hframe).trans rfl

/-- A sample step does to the voices what its frame does. -/
theorem sampleStep_voice {s : State} {p : Port} {n : Nat} {active : List VoiceIx} (hs : s.seq = .rendering p n active)
    (k : VoiceIx) : (sampleStep s).voice k = (renderFrame active s).1.voice k := by
  obtain ⟨seq, ctrl, audio, h⟩ := sampleStep_eq_renderFrame hs
  rw [h]
  rfl

theorem renderFrame_voice_of_notMem {s : State} {active : List VoiceIx} (h : active.Nodup) {k : VoiceIx}
    (hk : k ∉ active) : (renderFrame active s).1.voice k = s.voice k := by
  obtain ⟨t, l, q, hframe, -, -, -, hkept, -⟩ := renderFrame_spec s h
  rw [hframe]
  exact hkept k hk

/-- Settles O31: each field by its own lemma about `sampleStep`, whose state differs from the step's in the schedule only. -/
theorem sampleStepFrame : Obligations.SampleStepFrame := by
  intro s p n active hs hturn hnd
  have hs0 : ({ s with schedule := s.schedule.tail } : State).seq = .rendering p n active := hs
  obtain ⟨q, hpcm⟩ := sampleStep_pcm hs0
  obtain ⟨hhw, hstatus⟩ := sampleStep_hw_status { s with schedule := s.schedule.tail }
  have hport := sampleStep_port hs0
  have hseq := sampleStep_seq hs0
  simp only [setSchedule_port] at hport
  refine ⟨_, q, step_eq_sampleStep hturn, hpcm, hhw, sampleStep_cfg _, hstatus, sampleStep_mostRecentKey _,
    fun k hk => (sampleStep_voice hs0 k).trans (renderFrame_voice_of_notMem hnd hk), sampleStep_gate _, ?_, ?_, ?_⟩
  · rw [hport, if_neg (fun h => ne_other p h.1)]
  · rw [hport]
    split <;> rfl
  · by_cases hn : n ≤ 1
    · rw [if_pos hn] at hseq ⊢
      rw [hport, if_pos ⟨rfl, hn⟩]
      exact ⟨hseq, rfl⟩
    · rw [if_neg hn] at hseq ⊢
      rw [hport, if_neg (fun h => hn h.2)]
      exact ⟨⟨_, hseq⟩, rfl⟩

/-! A frame over any list of voices. -/

/-- A voice that sounds: both slots, its envelopes, its filter and its gate (45_voice_mixer.md R325; 42_oscillator_lfo.md
R208). -/
theorem soundAt_voice (s : State) (dt : F32) (k : VoiceIx) (seed : Word) :
    let v := voiceEnvelopes s.cfg dt (s.voice k)
    let kf := voiceFreq s k
    let g0 := oscUpdate s.cfg.useAntialias (slotOscCfg s.cfg.osc0 s.der0) v.osc0 seed kf dt
    let g1 := oscUpdate s.cfg.useAntialias (slotOscCfg s.cfg.osc1 s.der1) v.osc1 g0.seed kf dt
    let f := filterUpdate s.hw.filterCore s.cfg.flt v.flt (cutoffOf s.cfg.flt s.lfoValue kf v.fenv.amplitude)
      (g0.value.add g1.value) dt
    (soundAt s dt k seed).1.voice k = ⟨g0.st, g1.st, v.fenv, v.venv, f.1, v.gate⟩ :=
  setVoice_voice_self { s with seed := seed } k _

/-- Everything steps a to e of a sample step compute over a list with no repeats, from the state after the LFO and the
derived registers: the voices that are not reaped sound in `soundingOrder` and are the list left, the frame is the saturated
sum of what they give, and a reaped voice has its envelopes updated (45_voice_mixer.md R313, R324, R325, R327, R330). -/
theorem renderFrame_order (s : State) {active : List VoiceIx} (h : active.Nodup) :
    let dt := sampleInterval s.cfg
    let s1 := recompute (lfoUpdate dt s)
    let order := soundingOrder (reapedBy s1 dt) active.length active
    let mix := mixOver s1 dt (s1.seed, zeroF)
    let q := pcmQuantize s.cfg.outputScale (mix order).2
    ∃ t, renderFrame active s = (t, order) ∧ t.pcm = s.pcm ++ [⟨q, q⟩] ∧ t.seed = (mix order).1 ∧
      (∀ a k b, order = a ++ k :: b → t.voice k = (soundAt s1 dt k (mix a).1).1.voice k) ∧
      (∀ k ∈ active, reapedBy s1 dt k = true → t.voice k = voiceEnvelopes s.cfg dt (s.voice k)) ∧
      order.Nodup ∧ ∀ k, k ∈ order ↔ k ∈ active ∧ reapedBy s1 dt k = false := by
  intro dt s1 order mix q
  obtain ⟨t, hmix, hseed, ht, hsound, hreaped, -, hnd, hmem⟩ :=
    mixVoices_order dt s1 active.length [] active s1 zeroF (le_refl _) (by simpa using h) rfl (fun _ _ => rfl)
  have hcfg : t.cfg = s.cfg := (congrArg State.cfg ht).trans rfl
  have hpcm : t.pcm = s.pcm := (congrArg State.pcm ht).trans rfl
  rw [List.nil_append, List.nil_append, List.length_nil] at hmix
  refine ⟨pcmEmit q q t, ?_, ?_, hseed, hsound, hreaped, hnd, hmem⟩
  · rw [renderFrame]
    rw [hmix, hcfg]
  · rw [pcmEmit_pcm, hpcm]

theorem renderFrame_envelopes {s : State} {active : List VoiceIx} (h : active.Nodup) {k : VoiceIx} (hk : k ∈ active) :
    (s.voice k).Advanced s.cfg (sampleInterval s.cfg) ((renderFrame active s).1.voice k) := by
  obtain ⟨t, l, q, hframe, -, -, hadv, -⟩ := renderFrame_spec s h
  rw [hframe]
  exact hadv k hk

/-- Settles O32: the frame by `renderFrame_order`, a sounding voice's fields by `soundAt_voice`, the envelopes of all listed
voices by `renderFrame_envelopes`. -/
theorem sampleStepAdvancesEachVoiceOnce : Obligations.SampleStepAdvancesEachVoiceOnce := by
  intro s p n active hs hturn hnd dt s1 fe ve kf g0 g1 cutoff f order mix q
  have hs0 : ({ s with schedule := s.schedule.tail } : State).seq = .rendering p n active := hs
  obtain ⟨t, hframe, hpcm, hseed, hsound, hreaped, hnodup, hmem⟩ :=
    renderFrame_order { s with schedule := s.schedule.tail } hnd
  obtain ⟨seq, ctrl, audio, hstep⟩ := sampleStep_eq_renderFrame hs0
  have hvoice := sampleStep_voice hs0
  have hseq := sampleStep_seq hs0
  rw [hframe] at hstep hvoice hseq
  refine ⟨_, step_eq_sampleStep hturn, ?_, ?_, ?_, ?_, hseq, hnodup, ?_⟩
  · rw [hstep]
    exact hpcm
  · rw [hstep]
    exact hseed
  · intro a k b hk
    exact (hvoice k).trans ((hsound a k b hk).trans (soundAt_voice _ _ _ _))
  · intro k hk
    obtain ⟨hfenv, hvenv, -, -⟩ := renderFrame_envelopes (s := { s with schedule := s.schedule.tail }) hnd hk
    rw [hframe] at hfenv hvenv
    rw [hvoice]
    exact ⟨hfenv, hvenv, fun hoff => hreaped k hk (beq_iff_eq.2 hoff)⟩
  · intro k
    exact (hmem k).trans (and_congr_right' beq_eq_false_iff_ne)

end Sys2Proof.Machine
end

section
/-! PROOF. A `RENDER` on an idle block: the start of a block and the empty block (45_voice_mixer.md R312, R320, R321;
46_host_commands.md R353). -/

namespace Sys2Proof.Machine

/-- The bookkeeping of a block's start moves the ports only (log 11). -/
theorem markOwed_eq (p : Port) (s : State) :
    markOwed p s = { s with ctrl := (markOwed p s).ctrl, audio := (markOwed p s).audio } := by
  cases p <;> rfl

/-- A `RENDER` leaves its own port alone, and of the other only what it is owed can change (log 11). -/
theorem renderCommand_port (p : Port) (n : BitVec 24) (s : State) :
    (renderCommand p n s).port p = s.port p ∧
      (renderCommand p n s).port p.other =
        { s.port p.other with owed := ((renderCommand p n s).port p.other).owed } := by
  have hmark : (markOwed p s).port p = s.port p ∧
      (markOwed p s).port p.other = { s.port p.other with owed := ((markOwed p s).port p.other).owed } := by
    simp
  obtain ⟨-, h⟩ | ⟨-, -, h⟩ | ⟨-, -, -, h⟩ | ⟨-, -, -, h⟩ := renderCommand_cases p n s <;> rw [h]
  · exact ⟨rfl, rfl⟩
  · have hport : ∀ q, (emptyBlock n.toNat (markOwed p s)).port q = (markOwed p s).port q := port_congr rfl rfl
    rw [hport, hport]
    exact hmark
  · exact hmark
  · have hport : ∀ q, ({ markOwed p s with seq := .rendering p n.toNat (activeList s) } : State).port q =
        (markOwed p s).port q := port_congr rfl rfl
    rw [hport, hport]
    exact hmark

theorem mem_activeList_iff (s : State) (k : VoiceIx) : k ∈ activeList s ↔ (s.voice k).venv.stage ≠ .off := by
  rw [mem_activeList, Voice.active, bne_iff_ne]

theorem activeList_eq_nil_iff (s : State) : activeList s = [] ↔ ∀ k, (s.voice k).venv.stage = .off := by
  simp only [List.eq_nil_iff_forall_not_mem, mem_activeList_iff, not_not]

/-- A `RENDER` on an idle block with active voices is the bookkeeping and, unless its count is 0, a sequencer that starts
over the active list (45_voice_mixer.md R320). -/
theorem renderCommand_of_active {p : Port} {n : BitVec 24} {s : State} (hidle : s.seq = .idle)
    (hactive : activeList s ≠ []) :
    renderCommand p n s =
      { markOwed p s with seq := if n = 0#24 then .idle else .rendering p n.toNat (activeList s) } := by
  obtain ⟨hbusy, -⟩ | ⟨-, hnil, -⟩ | ⟨-, -, hn, h⟩ | ⟨-, -, hn, h⟩ := renderCommand_cases p n s
  · exact absurd hidle hbusy
  · exact absurd hnil hactive
  · rw [h, if_pos (BitVec.eq_of_toNat_eq hn), ← hidle, ← markOwed_seq p s]
  · rw [h, if_neg (fun h0 => hn (congrArg BitVec.toNat h0))]

/-- Settles O13: the command is `renderCommand_of_active`, the list by `mem_activeList_iff` and `activeList_sorted`. -/
theorem renderStartsBlock : Obligations.RenderStartsBlock := by
  intro p n s hidle ⟨k, hk⟩
  have hactive : activeList s ≠ [] := fun h => hk ((activeList_eq_nil_iff s).1 h k)
  have h := renderCommand_of_active (p := p) (n := n) hidle hactive
  have hseq := congrArg State.seq h
  obtain ⟨hown, hother⟩ := renderCommand_port p n s
  refine ⟨renderCommand p n s, rfl, ?_, hown, hother, fun hn => hseq.trans (if_pos hn), fun hn => ?_⟩
  · rw [h, markOwed_eq]
  · have hrun : (renderCommand p n s).seq = .rendering p n.toNat (activeList s) := hseq.trans (if_neg hn)
    refine ⟨?_, _, hrun, activeList_sorted s, mem_activeList_iff s⟩
    rw [State.busy, hrun]

/-- Settles O14: of `renderCommand_cases` the one with no active voice, the empty block. -/
theorem renderOfSilence : Obligations.RenderOfSilence := by
  intro p n s hidle hoff dt g der
  have hnil := (activeList_eq_nil_iff s).2 hoff
  obtain ⟨hown, hother⟩ := renderCommand_port p n s
  refine ⟨renderCommand p n s, rfl, ?_, hown, hother⟩
  obtain ⟨hbusy, -⟩ | ⟨-, -, h⟩ | ⟨-, hne, -⟩ | ⟨-, hne, -⟩ := renderCommand_cases p n s
  · exact absurd hidle hbusy
  · rw [h, markOwed_eq]
    rfl
  · exact absurd hnil hne
  · exact absurd hnil hne

end Sys2Proof.Machine
end

section
/-! PROOF. The output saturator: the floor of the saturated value times 32768, limited to an int16 (45_voice_mixer.md
R330). -/

namespace Sys2Proof.F32

/-- A value that equals zero is a zero of either sign (00_scope.md R9). -/
theorem exists_zero_of_eq_zeroF {x : F32} (h : x.eq Machine.zeroF = true) : ∃ s, x = .num s 0 0#23 := by
  obtain ⟨s, e, f, rfl, hmag⟩ := exists_num_of_eq_zeroF h
  rw [magnitude_eq_magOf] at hmag
  have hbits := magOf_strictMono.injective (hmag.trans Machine.magOf_zero.symm)
  refine ⟨s, ?_⟩
  rw [← ofMagnitudeBits_num s e f, hbits]
  rfl

end Sys2Proof.F32

namespace Sys2Proof.Machine

/-- An integer limited to the int16 range (45_voice_mixer.md R330). -/
theorem toInt_ofInt_limited (q : Int) :
    (BitVec.ofInt 16 (min (max q (-32768)) 32767)).toInt = min (max q (-32768)) 32767 :=
  BitVec.toInt_ofInt_eq_self (by decide) (by omega) (by omega)

theorem pcmQuantize_of_isNan {scale sample : F32} (h : (sample.mul scale).isNan = true) :
    pcmQuantize scale sample = 0#16 := if_pos (isNan_ftanh h)

/-- The saturated value is finite and its product with 32768 exact, so the sample is the floor limited to an int16
(45_voice_mixer.md R330). -/
theorem toInt_pcmQuantize {scale sample : F32} (h : (sample.mul scale).isNan = false) :
    (pcmQuantize scale sample).toInt =
      min (max ((ftanh (sample.mul scale)).place * 32768 / 2 ^ 149) (-32768)) 32767 := by
  obtain ⟨hfin, hbound⟩ := ftanh_bound h
  have hnan : ¬ (ftanh (sample.mul scale)).isNan = true := by rw [F32.isNan_of_isFinite hfin]; decide
  rw [pcmQuantize, if_neg hnan, quantizeSaturated, floor_mul_pcmScale hfin hbound]
  exact toInt_ofInt_limited _

/-- The saturator keeps a zero and its sign (44_filter.md R262). -/
theorem ftanh_zero (s : Bool) : ftanh (.num s 0 0#23) = .num s 0 0#23 := by
  revert s
  decide

/-- Settles O60: a NaN by `pcmQuantize_of_isNan`, anything else by `toInt_pcmQuantize`, at the saturator's ends and zeros
with its value there. -/
theorem outputQuantizer : Obligations.OutputQuantizer := by
  intro scale sample x
  refine ⟨pcmQuantize_of_isNan, fun h => ⟨_, F32.units_of_isFinite (ftanh_bound h).1, toInt_pcmQuantize h⟩,
    fun h => ?_, fun h => ?_, fun h => ?_⟩
  · apply BitVec.eq_of_toInt_eq
    rw [toInt_pcmQuantize (F32.not_nan_of_lt h).2, ftanh_above h]
    decide
  · rw [toInt_pcmQuantize (F32.not_nan_of_lt h).1, ftanh_below h]
    decide
  · obtain ⟨s, hx⟩ := F32.exists_zero_of_eq_zeroF h
    apply BitVec.eq_of_toInt_eq
    rw [toInt_pcmQuantize (F32.not_nan_of_eq h).1, show sample.mul scale = _ from hx, ftanh_zero, F32.place_zero]
    decide

end Sys2Proof.Machine
end

section
/-! PROOF. The host's commands: words written out, what an operation leaves alone, and a write to `STATUS`
(46_host_commands.md R350 to R357). -/

namespace Sys2Proof.Machine

/-! Words written out. -/

/-- A numbered word of 32 bits that is a command's word is that command on `CTRL` (46_host_commands.md R350; log 7). -/
theorem decodeTableWord_of_command {w : Nat} {c : Cmd} (h : BitVec.ofNat 32 w = encodeCmd c) :
    decodeTableWord 32 w = some (c.toInstr .ctrl) := by
  rw [decodeTableWord, if_pos rfl, decodeCmd_eq_ok_iff.2 h]

/-- A numbered word of 32 bits that is no command word is refused (46_host_commands.md R357; log 7). -/
theorem decodeTableWord_of_not_command {w : Nat} (h : isCommandWord (BitVec.ofNat 32 w) = false) :
    decodeTableWord 32 w = none := by
  obtain ⟨e, he⟩ := decodeCmd_error h
  rw [decodeTableWord, if_pos rfl, he]

/-- A numbered word of another length is the operation of the transaction it spells out (log 7). -/
theorem decodeTableWord_of_txn {nbits w : Nat} {t : BusTxn} (hbits : nbits ≠ 32) (h : tableTxn nbits w = .ok t) :
    decodeTableWord nbits w = some (decodeTxn .ctrl t) := by
  rw [decodeTableWord, if_neg hbits, h]

/-- Settles O4: the 32-bit words are the encodings of their commands or no command word, the others spell out a transaction
that is no command. -/
theorem specimenWords : Obligations.SpecimenWords :=
  ⟨decodeTableWord_of_command (c := .nop) rfl, decodeTableWord_of_command (c := .gate 9#5 true) rfl,
    decodeTableWord_of_command (c := .gate 23#5 false) rfl, decodeTableWord_of_command (c := .gate 30#5 true) rfl,
    decodeTableWord_of_command (c := .render 4#24) rfl, decodeTableWord_of_not_command rfl,
    decodeTableWord_of_txn (t := ⟨0x020#12, some 0#32⟩) (by decide) rfl,
    decodeTableWord_of_txn (t := ⟨0x020#12, some 2#32⟩) (by decide) rfl,
    decodeTableWord_of_txn (t := ⟨0x008#12, none⟩) (by decide) rfl⟩

/-! Commands that change nothing. -/

/-- A word with `OP` 0 other than the word 0 is rejected (46_host_commands.md R351). -/
theorem decodeCmd_error_of_opcode_zero {w : Word} (hop : w.toNat / 2 ^ 24 = 0) (hw : w ≠ 0#32) :
    ∃ e, decodeCmd w = .error e := by
  have hlow : w.extractLsb' 0 24 ≠ 0#24 := fun h => hw (word_eq_zero_iff.2 ⟨hop, h⟩)
  exact decodeCmd_error (isCommandWord_eq_false_iff_fields.2 (Or.inr (Or.inl ⟨hop, hlow⟩)))

/-- Settles O9: the word 0 is `NOP`'s encoding, and the decoder rejects every other word with `OP` 0. -/
theorem nopChangesNothing : Obligations.NopChangesNothing := by
  refine fun p s => ⟨decodeTxn_cmd_ok (decodeCmd_encodeCmd .nop), exec_eq (.nop p) s, fun w hop hw => ?_⟩
  obtain ⟨e, he⟩ := decodeCmd_error_of_opcode_zero hop hw
  exact exec_illegalCommand he s

theorem gateCommand_of_no_edge {v : BitVec 5} {d : Bool} {s : State} (hv : v.toNat < 24)
    (h : (s.voice ⟨v.toNat, hv⟩).gate = d) : gateCommand v d s = s :=
  (dif_pos hv).trans (if_pos h.symm)

theorem gateCommand_of_no_voice {v : BitVec 5} {d : Bool} {s : State} (hv : 24 ≤ v.toNat) :
    gateCommand v d s = raiseError .value s :=
  dif_neg hv.not_gt

/-- Settles O12: the command's case with no edge and its case with no voice. -/
theorem gateWithoutEdge : Obligations.GateWithoutEdge := by
  refine fun p v d s => ⟨fun hv h => ?_, fun hv => ?_⟩
  · rw [exec_eq, effect, gateCommand_of_no_edge hv h]
  · rw [exec_eq, effect, gateCommand_of_no_voice hv]
    rfl

theorem renderCommand_of_rendering {p r : Port} {n : BitVec 24} {m : Nat} {active : List VoiceIx} {s : State}
    (h : s.seq = .rendering r m active) : renderCommand p n s = s := by
  rw [renderCommand, h]

/-- Settles O15: the command's case with a block running. -/
theorem renderWaitsForRunningBlock : Obligations.RenderWaitsForRunningBlock := by
  intro p r n m active s h
  rw [exec_eq, effect, renderCommand_of_rendering h]

/-! The write to `STATUS`. -/

theorem exec_statusWrite (p : Port) (m : Word) (s : State) :
    exec (.busWrite p 0x004#12 m) s = .next (clearErrors m s) :=
  congrArg Host.Outcome.next (memWrite_offset p .status m s)

/-- A write that names all three bits clears them all (46_host_commands.md R356). -/
theorem Status.clear_seven (st : Status) : st.clear 7#32 = ⟨false, false, false⟩ := by simp [Status.clear]

/-- Where `STATUS` reads 5, `ERR_CMD` and `ERR_VALUE` are set and no block runs (10_state.md R37). -/
theorem status_of_statusWord_five {s : State} (h : statusWord s = 5#32) :
    s.status = ⟨true, false, true⟩ ∧ s.busy = false := by
  obtain ⟨hcmd, haddr, hvalue, -, -, hbusy⟩ := statusWord_fields s
  rw [h] at hcmd haddr hvalue hbusy
  have hstatus : s.status = ⟨s.status.errCmd, s.status.errAddr, s.status.errValue⟩ := rfl
  rw [← hcmd, ← haddr, ← hvalue] at hstatus
  exact ⟨hstatus, hbusy.symm⟩

/-- Settles O21: the write is `clearErrors`, which gives each bit as `Status.clear` does and keeps the rest; in the example
only `ERR_CMD` is left. -/
theorem statusWriteClears : Obligations.StatusWriteClears := by
  refine fun p m s => ⟨⟨clearErrors m s, exec_statusWrite p m s, rfl, rfl, rfl, rfl, rfl, ?_⟩,
    fun h => ⟨clearErrors 4#32 s, exec_statusWrite p _ s, ?_⟩⟩
  · rintro rfl
    exact s.status.clear_seven
  · obtain ⟨hstatus, hbusy⟩ := status_of_statusWord_five h
    have hclear : (clearErrors 4#32 s).status = ⟨true, false, false⟩ := by rw [clearErrors_status, hstatus]; rfl
    have hidle : (clearErrors 4#32 s).busy = false := hbusy
    rw [readReg, statusWord, hclear, hidle]
    rfl

end Sys2Proof.Machine
end

section
/-! PROOF. Errors: the block takes no trap, the causes of `ERR_ADDR` and `ERR_VALUE`, and that an error changes nothing but
its bit (60_exceptions.md R400 to R406). -/

namespace Sys2Proof.Machine

theorem exists_step_next (s : State) : ∃ t, step s = .next t := by
  cases hturn : nextTurn s with
  | nothing => exact ⟨_, by rw [step, hturn]⟩
  | issue p x => exact ⟨_, by rw [step, hturn]⟩
  | serve p x => exact ⟨_, step_of_nextTurn_serve hturn⟩
  | sample => exact ⟨_, step_eq_sampleStep hturn⟩
  | reset => exact ⟨_, by rw [step, hturn]⟩

/-- Settles O8: an operation's state is its `effect`, and a step is one of its turns, none of which stops. -/
theorem everyOperationCompletes : Obligations.EveryOperationCompletes :=
  ⟨fun i s => ⟨effect i s, exec_eq i s⟩, exists_step_next⟩

/-! `ERR_ADDR`. -/

@[simp] theorem raiseError_port (e : ErrorBit) (s : State) (p : Port) : (raiseError e s).port p = s.port p :=
  port_congr rfl rfl p

/-- A misaligned offset is unmapped too (20_memory.md R78). -/
theorem regAt_eq_none {off : BitVec 12} (h : off.toNat % 4 ≠ 0 ∨ regAt off = none) : regAt off = none := by
  obtain hmis | hnone := h
  · exact Option.eq_none_iff_forall_ne_some.2 fun r hr => hmis (aligned_of_regAt hr)
  · exact hnone

theorem memWrite_of_unmapped {off : BitVec 12} (h : regAt off = none) (p : Port) (v : Word) (s : State) :
    memWrite p off v s = raiseError .addr s := by
  rw [memWrite, h]
  exact ite_self _

theorem memRead_of_unmapped {off : BitVec 12} (h : regAt off = none) (s : State) :
    memRead off s = (0#32, raiseError .addr s) := by
  rw [memRead, h]
  exact ite_self _

/-- A write to a read-only register is an address error (60_exceptions.md R403). -/
theorem memWrite_of_readOnly {r : Reg} (h : r.readOnly = true) (p : Port) (v : Word) (s : State) :
    memWrite p (BitVec.ofNat 12 r.offset) v s = raiseError .addr s := by
  rw [memWrite_offset, writeMapped, if_pos h]

/-- A mapped offset that is `HWCFG`'s or from 0x100 on is a read-only register's (20_memory.md R78). -/
theorem exists_readOnly_offset {off : BitVec 12} (hmapped : MappedOffset off.toNat)
    (h : off.toNat = 0x008 ∨ 0x100 ≤ off.toNat) : ∃ r : Reg, r.readOnly = true ∧ off = BitVec.ofNat 12 r.offset := by
  obtain ⟨r, hr⟩ := exists_offset_eq hmapped
  refine ⟨r, r.readOnly_iff.2 (h.imp (fun h8 => ?_) (fun h100 => hr ▸ h100)),
    regAt_eq_some_iff.1 (regAt_eq_some_iff_offset.2 hr)⟩
  have hcfg : regAtNat r.offset = some .hwcfg := by rw [← hr, h8]; rfl
  exact Option.some.inj ((regAtNat_offset r).symm.trans hcfg)

/-- A read in error is the error bit and a returned 0 on the port it came from (20_memory.md R71). -/
theorem respond_raiseError (p : Port) (w : Word) (e : ErrorBit) (s : State) :
    respond p w (raiseError e s) =
        { s with
          status := s.status.set e
          ctrl := (respond p w (raiseError e s)).ctrl
          audio := (respond p w (raiseError e s)).audio } ∧
      (respond p w (raiseError e s)).port p = { s.port p with responses := (s.port p).responses ++ [w] } ∧
      (respond p w (raiseError e s)).port p.other = s.port p.other := by
  refine ⟨respond_frame p w (raiseError e s), ?_, ?_⟩
  · rw [respond_port, if_pos rfl, raiseError_port]
  · rw [respond_port, if_neg (ne_other p), raiseError_port]

/-- Settles O23: an offset with no register raises the error on a write and on a read, the listed offsets are read-only
registers' by `exists_readOnly_offset`, and the bit is `statusWord`'s. -/
theorem addressErrors : Obligations.AddressErrors := by
  refine fun p off v s => ⟨fun h => ⟨?_, respond p 0#32 (raiseError .addr s), ?_, respond_raiseError p 0#32 .addr s⟩,
    fun h => ?_, (statusWord_fields _).2.1⟩
  · rw [exec_eq, effect, memWrite_of_unmapped (regAt_eq_none h)]
    rfl
  · rw [exec_eq, effect, memRead_of_unmapped (regAt_eq_none h)]
  · obtain ⟨r, hro, rfl⟩ := exists_readOnly_offset (off := off) ⟨by omega, by omega⟩ (by omega)
    rw [exec_eq, effect, memWrite_of_readOnly hro]
    rfl

/-! `ERR_VALUE`. -/

/-- The codes from 11 on name no wave type (30_encoding.md R106). -/
theorem waveTypeOfCode_of_gt {v : Word} (h : 10 < v.toNat) : waveTypeOfCode v = none := by
  obtain ⟨n, hn⟩ := Nat.exists_eq_add_of_le' h
  rw [waveTypeOfCode, hn]
  rfl

/-- The codes from 21 on name no filter mode (30_encoding.md R107). -/
theorem filterModeOfCode_of_gt {v : Word} (h : 20 < v.toNat) : filterModeOfCode v = none := by
  obtain ⟨n, hn⟩ := Nat.exists_eq_add_of_le' h
  rw [filterModeOfCode, hn]
  rfl

/-- A write of a value that a writable register refuses only raises `ERR_VALUE` (20_memory.md R72). -/
theorem exec_busWrite_of_refused {r : Reg} {v : Word} (hro : r.readOnly = false) (hc : r ≠ .cmd) (hs : r ≠ .status)
    (ha : r.accepts v = false) (p : Port) (s : State) :
    exec (.busWrite p (BitVec.ofNat 12 r.offset) v) s = .next (raiseError .value s) := by
  rw [exec_eq, effect, memWrite_offset]
  simp [writeMapped, hro, hc, hs, ha]

/-- Settles O24: the wave type registers, the filter mode and `FS` refuse the values named, and a `GATE` of no voice is
`gateCommand_of_no_voice`. -/
theorem valueErrors : Obligations.ValueErrors := by
  refine fun p v g d s => ⟨fun hv => ?_, fun hv => ?_, ?_, fun hg => ?_, (statusWord_fields _).2.2.1⟩
  · have hnone : (waveTypeOfCode v).isSome = false := by rw [waveTypeOfCode_of_gt hv]; rfl
    simp only [List.forall_mem_cons, List.not_mem_nil, false_implies, implies_true, and_true]
    exact ⟨exec_busWrite_of_refused (r := .osc .s0 .waveType) rfl nofun nofun hnone p s,
      exec_busWrite_of_refused (r := .osc .s1 .waveType) rfl nofun nofun hnone p s,
      exec_busWrite_of_refused (r := .lfo .waveType) rfl nofun nofun hnone p s⟩
  · have hnone : (filterModeOfCode v).isSome = false := by rw [filterModeOfCode_of_gt hv]; rfl
    exact exec_busWrite_of_refused (r := .flt .mode) rfl nofun nofun hnone p s
  · exact exec_busWrite_of_refused (r := .fs) rfl nofun nofun rfl p s
  · rw [exec_eq, effect, gateCommand_of_no_voice hg]
    rfl

/-! Errors are precise. -/

/-- The error bits are kept, or `t` is `s` with one error raised and nothing else changed (60_exceptions.md R401). -/
def State.KeptOrRaised (s t : State) : Prop := t.status = s.status ∨ ∃ e, t = raiseError e s

theorem gateCommand_keptOrRaised (v : BitVec 5) (d : Bool) (s : State) : s.KeptOrRaised (gateCommand v d s) := by
  obtain ⟨-, h⟩ | ⟨_, ⟨-, h⟩ | ⟨-, -, h⟩ | ⟨-, -, h⟩⟩ := gateCommand_cases v d s <;> rw [h]
  · exact Or.inr ⟨.value, rfl⟩
  · exact Or.inl rfl
  · exact Or.inl (risingEdge_status _ s)
  · exact Or.inl (setVoice_status _ _ _)

theorem commandWord_keptOrRaised (p : Port) (w : Word) (s : State) : s.KeptOrRaised (commandWord p w s) := by
  obtain h | ⟨v, d, -, h⟩ | ⟨n, -, h⟩ | ⟨e, -, h⟩ := commandWord_cases p w s <;> rw [h]
  · exact Or.inl rfl
  · exact gateCommand_keptOrRaised v d s
  · exact Or.inl (renderCommand_status p n s)
  · exact Or.inr ⟨.cmd, rfl⟩

theorem memWrite_keptOrRaised {off : BitVec 12} (hoff : off ≠ 4#12) (p : Port) (v : Word) (s : State) :
    s.KeptOrRaised (memWrite p off v s) := by
  obtain ⟨e, h⟩ | ⟨-, h⟩ | ⟨hstatus, -⟩ | ⟨r, -, -, -, -, -, h⟩ := memWrite_cases p off v s
  · exact Or.inr ⟨e, h⟩
  · rw [h]
    exact commandWord_keptOrRaised p v s
  · exact absurd hstatus hoff
  · exact Or.inl ((congrArg State.status h).trans rfl)

/-- Every operation but a write to `STATUS` keeps the error bits or only raises an error, a read in error returning 0
besides (60_exceptions.md R400, R401). -/
theorem effect_keptOrRaised {i : Instr} (hi : ∀ p v, i ≠ .busWrite p 4#12 v) (s : State) :
    s.KeptOrRaised (effect i s) ∨
      ∃ p off, i = .busRead p off ∧ effect i s = respond p 0#32 (raiseError .addr s) := by
  cases i with
  | nop p => exact Or.inl (Or.inl rfl)
  | gate p v d => exact Or.inl (gateCommand_keptOrRaised v d s)
  | render p n => exact Or.inl (Or.inl (renderCommand_status p n s))
  | busWrite p off v =>
    have hoff : off ≠ 4#12 := by
      rintro rfl
      exact hi p v rfl
    exact Or.inl (memWrite_keptOrRaised hoff p v s)
  | busRead p off =>
    rw [effect]
    obtain h | ⟨r, -, h⟩ := memRead_cases off s <;> rw [h]
    · exact Or.inr ⟨p, off, rfl, rfl⟩
    · exact Or.inl (Or.inl (respond_status p _ s))

/-- Settles O25: by `effect_keptOrRaised`; only the read in error touches a port, its own. -/
theorem errorsArePrecise : Obligations.ErrorsArePrecise := by
  intro i s t hexec hi
  obtain rfl : effect i s = t := Host.Outcome.next.inj ((exec_eq i s).symm.trans hexec)
  obtain (hkept | ⟨e, h⟩) | ⟨p, off, rfl, h⟩ := effect_keptOrRaised hi s
  · exact Or.inl hkept
  · rw [h]
    exact Or.inr ⟨e, rfl, fun q => Or.inl (raiseError_port e s q)⟩
  · rw [h]
    obtain ⟨hframe, hown, hother⟩ := respond_raiseError p 0#32 .addr s
    refine Or.inr ⟨.addr, hframe, fun q => ?_⟩
    obtain rfl | rfl := eq_or_other p q
    · exact Or.inr ⟨⟨off, rfl⟩, hown⟩
    · exact Or.inl hother

end Sys2Proof.Machine
end

section
/-! PROOF. Which transaction may take effect when, that pending work proceeds, and the reset input (60_exceptions.md R412,
R413; 70_reset_and_hazards.md R430). -/

namespace Sys2Proof.Machine

theorem mayServe_of_idle {s : State} (h : s.seq = .idle) (p : Port) (x : BusTxn) :
    mayServe s p x = true ↔ (s.port p.other).owed = 0 := by
  unfold mayServe
  rw [h]
  exact beq_iff_eq

theorem mayServe_of_rendering {s : State} {r : Port} {n : Nat} {active : List VoiceIx} (h : s.seq = .rendering r n active)
    (p : Port) (x : BusTxn) : mayServe s p x = true ↔ p ≠ r ∧ isRenderTxn x = false := by
  unfold mayServe
  rw [h]
  simp

/-- On an idle block a `RENDER` leaves the ports as the bookkeeping of a block's start does (log 11). -/
theorem renderCommand_port_of_idle {s : State} (h : s.seq = .idle) (p : Port) (n : BitVec 24) (q : Port) :
    (renderCommand p n s).port q = (markOwed p s).port q := by
  obtain ⟨hbusy, -⟩ | ⟨-, -, hr⟩ | ⟨-, -, -, hr⟩ | ⟨-, -, -, hr⟩ := renderCommand_cases p n s
  · exact absurd h hbusy
  · exact (congrArg (State.port · q) hr).trans (port_congr rfl rfl q)
  · exact congrArg (State.port · q) hr
  · exact (congrArg (State.port · q) hr).trans (port_congr rfl rfl q)

/-- Settles O40: what is served is servable, and `mayServe` says so on an idle block and during one; a `RENDER` leaves the
other port owed what `markOwed` counts. -/
theorem interleavingConstraints : Obligations.InterleavingConstraints := by
  refine ⟨fun s p x hturn => ?_, fun s t p n hidle hexec => ?_⟩
  · obtain ⟨hmay, q, hq⟩ := servable_some (nextTurn_serve hturn)
    refine ⟨by rw [hq]; rfl, fun r n active hseq => ?_, fun hidle => (mayServe_of_idle hidle p x).1 hmay⟩
    obtain ⟨hport, hrender⟩ := (mayServe_of_rendering hseq p x).1 hmay
    refine ⟨hport, fun m hm => ?_⟩
    rw [(decodeTxn_render hm).1] at hrender
    cases hrender
  · obtain rfl : renderCommand p n s = t := Host.Outcome.next.inj hexec
    rw [renderCommand_port_of_idle hidle, markOwed_port, if_pos rfl]

/-! Pending work proceeds. -/

/-- Where no choice is made and no block runs, a port whose head may take effect makes some head take effect (log 9). -/
theorem nextTurn_of_servable {s : State} {p : Port} {x : BusTxn} (hsched : s.schedule = []) (hidle : s.seq = .idle)
    (h : servable s p = some x) : ∃ q y, nextTurn s = .serve q y := by
  unfold nextTurn defaultTurn
  rw [hsched, hidle]
  cases hctrl : servable s .ctrl with
  | some y => exact ⟨.ctrl, y, rfl⟩
  | none =>
    cases p with
    | ctrl => rw [hctrl] at h; cases h
    | audio => exact ⟨.audio, x, by rw [h]⟩

/-- In a sound state with something pending some port has a transaction and is not held back by what the other is owed:
at most one port is owed, and what it is owed is pending (60_exceptions.md R412; log 11). -/
theorem State.Inv.exists_pending {s : State} (h : s.Inv) (hpending : s.ctrl.queue ≠ [] ∨ s.audio.queue ≠ []) :
    ∃ p : Port, (s.port p.other).owed = 0 ∧ (s.port p).queue ≠ [] := by
  have howed : ∀ {x : PortState}, x.Ok → x.queue = [] → x.owed = 0 := fun hx hq =>
    Nat.le_zero.1 (by simpa [hq] using hx.pending)
  by_cases hctrl : s.ctrl.queue = []
  · exact ⟨.audio, howed h.ctrl hctrl, hpending.resolve_left (not_not.2 hctrl)⟩
  · by_cases haudio : s.audio.owed = 0
    · exact ⟨.ctrl, haudio, hctrl⟩
    · exact ⟨.audio, h.oneOwed.resolve_right haudio, fun hq => haudio (howed h.audio hq)⟩

/-- Settles O41: a running block's default turn is its sample step; on an idle block a head of `State.Inv.exists_pending`
may take effect. -/
theorem pendingWorkProceeds : Obligations.PendingWorkProceeds := by
  refine fun s hinv hsched => ⟨fun p n active hseq => ?_, fun hidle hpending => ?_⟩
  · rw [nextTurn, hsched, defaultTurn, hseq]
  · obtain ⟨p, howed, hqueue⟩ := hinv.exists_pending hpending
    obtain ⟨x, q, hq⟩ := List.exists_cons_of_ne_nil hqueue
    exact nextTurn_of_servable hsched hidle (servable_of_mayServe hq ((mayServe_of_idle hidle p x).2 howed))

/-- A sound idle block with a transaction pending and no choice made: reset, with a `NOP` issued (46_host_commands.md R351). -/
theorem pendingWorkProceeds_idle_occurs :
    let s := issueTxn .ctrl (encode (.nop .ctrl)) State.reset
    s.Inv ∧ s.schedule = [] ∧ s.seq = .idle ∧ s.ctrl.queue ≠ [] :=
  ⟨issueTxn_inv _ _ resetMeetsInvariant, rfl, rfl, nofun⟩

/-! The reset input. -/

theorem step_of_reset {s : State} {rest : List Event} (h : s.schedule = .reset :: rest) :
    step s = .next (applyReset { s with schedule := rest }) := by
  have hturn : nextTurn s = .reset := by rw [nextTurn, h]
  rw [step, hturn, h]
  rfl

theorem applyReset_voice (s : State) (k : VoiceIx) : (applyReset s).voice k = Voice.zero := resetWith_voice s.hw k

/-- Settles O28: each voice is `Voice.zero`, and the other fields are `applyReset`'s by definition. -/
theorem resetInput : Obligations.ResetInput := by
  refine fun s rest hsched => ⟨_, step_of_reset hsched, rfl, fun k => ?_, rfl, rfl, rfl, rfl, rfl, rfl, rfl, rfl, rfl, rfl⟩
  rw [applyReset_voice]
  exact ⟨rfl, rfl, rfl, rfl, rfl, rfl⟩

end Sys2Proof.Machine
end
